-- ==== Sys2Proof/Word.lean ====
section
/-! DEFINITION. The machine's words: 64-bit registers and addresses, 8-bit memory bytes (00_scope.md R8, R10). -/

namespace Sys2Proof

/-- A register of the register block, and a memory address held in one (R8: `REG_W = 64`, `ADDR_W = 64`). -/
abbrev Word := BitVec 64

/-- One byte of memory (10_state.md R35). -/
abbrev Byte := BitVec 8

/-- One past the highest byte address: memory has `2^64` bytes (10_state.md R35). -/
abbrev addressTop : Nat := 2 ^ 64

end Sys2Proof
end

