-- ==== Sys2Proof/Config.lean ====
section
/-! DEFINITION. What a platform fixes (00_scope.md R8, the OPEN parameters) and the free values the spec leaves open. -/

namespace Sys2Proof

/-- A range of byte addresses `[base, base + size)`. -/
structure Region where
  base : Nat
  size : Nat
deriving DecidableEq, Repr

/-- The OPEN platform parameters of 00_scope.md R8, as plain data that no step changes (log 6):
which bytes of the address space do not exist (`MemAdmits`), which belong to a device (20_memory.md R58),
and the address of each block's register window (`REG_BASE`; their number is `N_INST`). -/
structure Platform where
  absent  : List Region
  device  : List Region
  regBase : List Word
deriving DecidableEq, Repr

/-- FREE VALUE. The byte that draw `n` leaves in the out range of a command aborted by a reset
(70_reset_and_hazards.md R211: "a free draw per byte under no law"; log 9). -/
opaque Config.freeByte : Nat → Byte

/-- FREE VALUE. The contents that draw `n` leaves in a multiply-accumulate lane
(10_state.md R33 and R37: "unspecified; unobservable"; log 8). -/
opaque Config.freeAcc : Nat → Word

end Sys2Proof
end

