-- ==== Sys2Proof/Syntax.lean ====
section
/-! DEFINITION. The command set (30_encoding.md): kernels, operations, registers, the descriptor, and one
constructor of `Instr` for each row of spec/opcode_table.json. -/

namespace Sys2Proof

/-- The two kernels (00_scope.md R2), selected by CMD bit 2, WSEL (30_encoding.md R71). -/
inductive Kernel where
  | k32
  | k64
deriving DecidableEq, Repr

/-- The four operations (00_scope.md R3), selected by CMD bits 1:0, OP (30_encoding.md R72). -/
inductive Op where
  | dense
  | vector
  | expand
  | unpack
deriving DecidableEq, Repr

/-- The twelve registers of a block (10_state.md R20). -/
inductive Reg where
  | cmd
  | outBase
  | aBase
  | bBase
  | aRows
  | aCols
  | bCols
  | outLen
  | aLen
  | bLen
  | ctrl
  | status
deriving DecidableEq, Repr

/-- The ten descriptor registers (10_state.md R26), in the order of their offsets. A command is these ten
words: one CMD word and nine operand words (30_encoding.md R70). -/
structure Descriptor where
  cmd     : Word
  outBase : Word
  aBase   : Word
  bBase   : Word
  aRows   : Word
  aCols   : Word
  bCols   : Word
  outLen  : Word
  aLen    : Word
  bLen    : Word
deriving DecidableEq, Repr

/-- Operands of DenseMultiply and ExpandAndMultiply, in the source's order with the three lengths
(30_encoding.md R76, R83): `a` is the matrix A or the seed buffer. -/
structure MatOperands where
  out    : Word
  a      : Word
  b      : Word
  aRows  : Word
  aCols  : Word
  bCols  : Word
  outLen : Word
  aLen   : Word
  bLen   : Word
deriving DecidableEq, Repr

/-- Operands of VectorMultiply and UnpackAndMultiply (30_encoding.md R76, R83). They have no `bCols`:
these commands ignore B_COLS, "neither read nor checked" (log 4). -/
structure VecOperands where
  out    : Word
  a      : Word
  b      : Word
  aRows  : Word
  aCols  : Word
  outLen : Word
  aLen   : Word
  bLen   : Word
deriving DecidableEq, Repr

/-- The eight commands of 30_encoding.md R74. -/
inductive Instr where
  | dmul32 (o : MatOperands)
  | vmul32 (o : VecOperands)
  | emul32 (o : MatOperands)
  | umul32 (o : VecOperands)
  | dmul64 (o : MatOperands)
  | vmul64 (o : VecOperands)
  | emul64 (o : MatOperands)
  | umul64 (o : VecOperands)
deriving DecidableEq, Repr

/-- The operation of a command (30_encoding.md R74). -/
def Instr.op : Instr → Op
  | .dmul32 _ => .dense
  | .vmul32 _ => .vector
  | .emul32 _ => .expand
  | .umul32 _ => .unpack
  | .dmul64 _ => .dense
  | .vmul64 _ => .vector
  | .emul64 _ => .expand
  | .umul64 _ => .unpack

/-- The kernel of a command (30_encoding.md R74). -/
def Instr.kernel : Instr → Kernel
  | .dmul32 _ => .k32
  | .vmul32 _ => .k32
  | .emul32 _ => .k32
  | .umul32 _ => .k32
  | .dmul64 _ => .k64
  | .vmul64 _ => .k64
  | .emul64 _ => .k64
  | .umul64 _ => .k64

end Sys2Proof
end

