-- ==== Sys2Proof/Decode.lean ====
section
/-! DEFINITION. Decoding, total on every CMD value and on every list of words (30_encoding.md R75, R80), the encoder
beside it, and the numbering of an instruction's bits that spec/opcode_table.json uses. -/

namespace Sys2Proof

/-- Why words are no command. -/
inductive DecodeError where
  /-- CMD bits 63:3 are not all zero (30_encoding.md R73): the only illegal encoding (R80). -/
  | reservedBits
  /-- Not ten words: every command has one CMD word and nine operand words (30_encoding.md R70). -/
  | wordCount
deriving DecidableEq, Repr

/-- OP, CMD bits 1:0 (30_encoding.md R72). -/
def opOfBits (v : Word) : Op :=
  match (v.extractLsb' 0 2).toNat with
  | 0 => .dense
  | 1 => .vector
  | 2 => .expand
  | _ => .unpack

/-- WSEL, CMD bit 2 (30_encoding.md R71). -/
def kernelOfBit (v : Word) : Kernel := if v.getLsbD 2 then .k64 else .k32

/-- Decoding a CMD value (30_encoding.md R75). -/
def decodeCmd (v : Word) : Option (Op × Kernel) :=
  if v.extractLsb' 3 61 ≠ 0 then none else some (opOfBits v, kernelOfBit v)

/-- Operands of DMUL and EMUL from the descriptor (30_encoding.md R76). -/
def Descriptor.matOperands (d : Descriptor) : MatOperands :=
  { out := d.outBase, a := d.aBase, b := d.bBase, aRows := d.aRows, aCols := d.aCols, bCols := d.bCols,
    outLen := d.outLen, aLen := d.aLen, bLen := d.bLen }

/-- Operands of VMUL and UMUL from the descriptor: B_COLS is not read (30_encoding.md R76). -/
def Descriptor.vecOperands (d : Descriptor) : VecOperands :=
  { out := d.outBase, a := d.aBase, b := d.bBase, aRows := d.aRows, aCols := d.aCols,
    outLen := d.outLen, aLen := d.aLen, bLen := d.bLen }

/-- The command of an operation and a kernel, with its operands (30_encoding.md R74, R76). -/
def commandOf (op : Op) (k : Kernel) (d : Descriptor) : Instr :=
  match op, k with
  | .dense, .k32 => .dmul32 d.matOperands
  | .vector, .k32 => .vmul32 d.vecOperands
  | .expand, .k32 => .emul32 d.matOperands
  | .unpack, .k32 => .umul32 d.vecOperands
  | .dense, .k64 => .dmul64 d.matOperands
  | .vector, .k64 => .vmul64 d.vecOperands
  | .expand, .k64 => .emul64 d.matOperands
  | .unpack, .k64 => .umul64 d.vecOperands

/-- The command that ten descriptor registers hold (30_encoding.md R75, R76). -/
def decode (d : Descriptor) : Except DecodeError Instr :=
  match decodeCmd d.cmd with
  | none => .error .reservedBits
  | some (op, k) => .ok (commandOf op k d)

/-- The ten words of a descriptor in the order of their register offsets (10_state.md R20). -/
def Descriptor.words (d : Descriptor) : List Word :=
  [d.cmd, d.outBase, d.aBase, d.bBase, d.aRows, d.aCols, d.bCols, d.outLen, d.aLen, d.bLen]

/-- Decoding a list of words: total, rejecting by name. -/
def decodeWords : List Word → Except DecodeError Instr
  | [cmd, outBase, aBase, bBase, aRows, aCols, bCols, outLen, aLen, bLen] =>
    decode { cmd, outBase, aBase, bBase, aRows, aCols, bCols, outLen, aLen, bLen }
  | _ => .error .wordCount

/-- The CMD value of a command (30_encoding.md R74). -/
def Instr.code : Instr → Word
  | .dmul32 _ => 0x0
  | .vmul32 _ => 0x1
  | .emul32 _ => 0x2
  | .umul32 _ => 0x3
  | .dmul64 _ => 0x4
  | .vmul64 _ => 0x5
  | .emul64 _ => 0x6
  | .umul64 _ => 0x7

/-- The descriptor of a CMD value and matrix operands. -/
def MatOperands.descriptor (cmd : Word) (o : MatOperands) : Descriptor :=
  { cmd, outBase := o.out, aBase := o.a, bBase := o.b, aRows := o.aRows, aCols := o.aCols, bCols := o.bCols,
    outLen := o.outLen, aLen := o.aLen, bLen := o.bLen }

/-- The descriptor of a CMD value and vector operands, with B_COLS 0 as the pseudo-instruction of
30_encoding.md R83 writes it. -/
def VecOperands.descriptor (cmd : Word) (o : VecOperands) : Descriptor :=
  { cmd, outBase := o.out, aBase := o.a, bBase := o.b, aRows := o.aRows, aCols := o.aCols, bCols := 0,
    outLen := o.outLen, aLen := o.aLen, bLen := o.bLen }

/-- The descriptor that encodes a command (30_encoding.md R74, R76, R83). -/
def encode (i : Instr) : Descriptor :=
  match i with
  | .dmul32 o => o.descriptor i.code
  | .vmul32 o => o.descriptor i.code
  | .emul32 o => o.descriptor i.code
  | .umul32 o => o.descriptor i.code
  | .dmul64 o => o.descriptor i.code
  | .vmul64 o => o.descriptor i.code
  | .emul64 o => o.descriptor i.code
  | .umul64 o => o.descriptor i.code

/-- The ten words that encode a command. -/
def encodeWords (i : Instr) : List Word := (encode i).words

/-- The descriptor whose words are the bits of `w`, word `j` at bits `64*j+63` to `64*j`, so that bit 0 is the
least significant bit of the CMD word (log 17). -/
def descriptorOfBits (w : Nat) : Descriptor :=
  { cmd := BitVec.ofNat 64 w
    outBase := BitVec.ofNat 64 (w / 2 ^ 64)
    aBase := BitVec.ofNat 64 (w / 2 ^ 128)
    bBase := BitVec.ofNat 64 (w / 2 ^ 192)
    aRows := BitVec.ofNat 64 (w / 2 ^ 256)
    aCols := BitVec.ofNat 64 (w / 2 ^ 320)
    bCols := BitVec.ofNat 64 (w / 2 ^ 384)
    outLen := BitVec.ofNat 64 (w / 2 ^ 448)
    aLen := BitVec.ofNat 64 (w / 2 ^ 512)
    bLen := BitVec.ofNat 64 (w / 2 ^ 576) }

/-- A list of words as one number, the first word lowest. -/
def bitsOfWords : List Word → Nat
  | [] => 0
  | v :: vs => v.toNat + 2 ^ 64 * bitsOfWords vs

/-- The command in the first `nbits` bits of `w`, every bit above them 0. -/
def decodeTableWord (nbits w : Nat) : Option Instr :=
  match decodeWords (descriptorOfBits (w % 2 ^ nbits)).words with
  | .ok i => some i
  | .error _ => none

end Sys2Proof
end

