-- ==== Sys2Proof/Machine/Kernel.lean ====
section
/-! DEFINITION. The constants of each kernel (00_scope.md R7; 30_encoding.md R71) and the register map (10_state.md R20). -/

namespace Sys2Proof.Machine

/-- `W`, the element width in bits (R7). -/
def width : Kernel → Nat
  | .k32 => 32
  | .k64 => 64

/-- `E = W/8`, the element size in bytes (R7). -/
def elemBytes : Kernel → Nat
  | .k32 => 4
  | .k64 => 8

/-- `BASIS`, the packed sub-element width in bits (R7). -/
def basis : Kernel → Nat
  | .k32 => 10
  | .k64 => 20

/-- `MASK = 2^BASIS - 1` (R7). -/
def mask : Kernel → Nat
  | .k32 => 0x3FF
  | .k64 => 0xFFFFF

/-- `C_EXT`, sub-elements extracted from a packed word: 3 and 2 (R7; 44_unpack_and_multiply.md R147). -/
def slotsPerWord : Kernel → Nat
  | .k32 => 3
  | .k64 => 2

/-- `C_DECL`, the declared compression factor: 3 for both kernels, used by no rule (R7; 90_conflicts.md C3). -/
def declaredSlots : Kernel → Nat
  | .k32 => 3
  | .k64 => 3

/-- `ROW_BLOCK`, rows per pass of the multiply-accumulate array (R7). -/
def rowBlock : Nat := 8

/-- The byte offset of a register (10_state.md R20). -/
def regOffset : Reg → Nat
  | .cmd => 0x00
  | .outBase => 0x08
  | .aBase => 0x10
  | .bBase => 0x18
  | .aRows => 0x20
  | .aCols => 0x28
  | .bCols => 0x30
  | .outLen => 0x38
  | .aLen => 0x40
  | .bLen => 0x48
  | .ctrl => 0x50
  | .status => 0x58

/-- The register at a byte offset, if there is one: not a multiple of 8, or `0x60` and above, is none
(10_state.md R20, R29). -/
def regAt (off : Nat) : Option Reg :=
  [Reg.cmd, .outBase, .aBase, .bBase, .aRows, .aCols, .bCols, .outLen, .aLen, .bLen, .ctrl, .status].find?
    fun r => regOffset r == off

/-- Bytes of a block's twelve registers from its REG_BASE (10_state.md R20; log 7). -/
def windowBytes : Nat := 0x60

end Sys2Proof.Machine
end

