-- ==== Sys2Proof/Machine/Regions.lean ====
section
/-! DEFINITION. Ranges of addresses and the platform's memory map (00_scope.md R8; 20_memory.md R58, R59; log 6). -/

namespace Sys2Proof.Machine

/-- Two ranges share a byte (60_exceptions.md R182, `overlap`): an empty range shares none (R186). -/
def overlap (a m b n : Nat) : Bool := decide (0 < m) && decide (0 < n) && decide (a < b + n) && decide (b < a + m)

/-- `overlap` of two regions. -/
def regionsMeet (r q : Region) : Bool := overlap r.base r.size q.base q.size

/-- Address `a` lies in the region. -/
def inRegion (r : Region) (a : Nat) : Bool := decide (r.base ≤ a) && decide (a < r.base + r.size)

/-- `MemAdmits(a)`: the byte exists (00_scope.md R8; 10_state.md R35). -/
def memAdmits (p : Platform) (a : Nat) : Bool := decide (a < addressTop) && !p.absent.any (inRegion · a)

/-- Every byte of the region exists. -/
def regionAdmitted (p : Platform) (r : Region) : Bool :=
  decide (r.size = 0) || decide (r.base + r.size ≤ addressTop) && !p.absent.any (regionsMeet r)

/-- The windows of the blocks' registers in the platform's address map (10_state.md R36; log 7). -/
def registerWindows (p : Platform) : List Region := p.regBase.map fun b => { base := b.toNat, size := windowBytes }

/-- The regions that are no ordinary memory: devices (20_memory.md R58) and register windows
(70_reset_and_hazards.md R221). -/
def notMemory (p : Platform) : List Region := p.device ++ registerWindows p

/-- Every byte of the region is ordinary memory or does not exist. -/
def regionOrdinary (p : Platform) (r : Region) : Bool := !(notMemory p).any (regionsMeet r)

/-- The platform that `State.reset` takes for the OPEN parameters (DESIGN CHOICE, log 6): one block, the
`N_INST = 1` of the reference design (60_exceptions.md R196), its registers near the top of the address space,
every byte of memory present and no device. -/
def defaultPlatform : Platform := { absent := [], device := [], regBase := [0xFFFFFFFFFFFF0000] }

end Sys2Proof.Machine
end

