-- ==== Sys2Proof/Machine/State.lean ====
section
/-! DEFINITION. The machine's state as plain data (10_state.md; 45_host_interface.md R160), why a step can stop,
and the state after reset (70_reset_and_hazards.md R210). -/

namespace Sys2Proof.Machine

/-- Memory `M` (10_state.md R35): the listed bytes, addresses strictly rising, none equal to what an unlisted
address reads as. -/
abbrev Memory := List Host.Cell

/-- One block (10_state.md R37): the descriptor registers, the fields of STATUS, the latched descriptor `LD`
(`none` is invalid, R31) and the multiply-accumulate lanes (R33; log 8). CTRL "holds no stored state" (R27). -/
structure Block where
  regs    : Descriptor
  busy    : Bool
  done    : Bool
  err     : Bool
  errCode : BitVec 8
  latched : Option Descriptor
  acc     : Vector Word 8
deriving DecidableEq, Repr

/-- One transaction of the host's program (30_encoding.md R82; 45_host_interface.md R160). -/
inductive HostOp where
  /-- A register write of `value` at byte offset `off` of block `block`, `bits` wide (R161, R162). -/
  | regWrite (block off bits : Nat) (value : Word)
  /-- A register read at byte offset `off` of block `block`, `bits` wide (R161, R167). -/
  | regRead (block off bits : Nat)
  /-- A memory write of `bytes` from address `addr` up (R168). -/
  | memWrite (addr : Word) (bytes : List Byte)
  /-- A memory read of `count` bytes from address `addr` up, little-endian (R168). -/
  | memRead (addr : Word) (count : Nat)
  /-- The loop that reads STATUS of block `block` until BUSY is 0 (30_encoding.md R84). -/
  | poll (block : Nat)
deriving DecidableEq, Repr

/-- What a read returned to the host (45_host_interface.md R167, R168). -/
inductive Reply where
  /-- A register's value. -/
  | register (value : Word)
  /-- Memory bytes as one little-endian number (00_scope.md R11). -/
  | memory (value : Nat)
deriving DecidableEq, Repr

/-- Who moves at a step (45_host_interface.md R160). -/
inductive Turn where
  /-- The host makes its next transaction. -/
  | host
  /-- The engine of a block performs its accepted command, `Perform(n)` (R166). -/
  | engine (block : Nat)
  /-- The reset input of a block is asserted, `Reset(n)` (70_reset_and_hazards.md R210). -/
  | reset (block : Nat)
deriving DecidableEq, Repr

/-- The whole machine (45_host_interface.md R160). -/
structure State where
  /-- Memory `M`, shared by the host and every block (10_state.md R35). -/
  mem      : Memory
  /-- The blocks, block `n` at position `n` (60_exceptions.md R196). -/
  blocks   : List Block
  /-- The OPEN platform parameters; no step changes them (00_scope.md R8; log 6). -/
  platform : Platform
  /-- The host's transactions still to make, in program order (R160, R170). -/
  program  : List HostOp
  /-- What the host's reads returned, newest first (R167, R168; log 15). -/
  replies  : List Reply
  /-- The MODEL's own: who moves at the next steps, "any enabled step may fire next" (R160; log 1). -/
  turns    : List Turn
  /-- The MODEL's own: the block whose engine performs the command that `exec` is given (log 4). -/
  engine   : Nat
  /-- The MODEL's own: how many free values have been drawn (log 9). -/
  draws    : Nat
deriving DecidableEq, Repr

/-- Why the machine stops with a fault: it never does, so there is no constructor. "The block itself has no fault
outcome" (45_host_interface.md R169), "the model has no bus-error outcome" (60_exceptions.md R189), and what is undefined
"becomes an error code, a refusal or a stuck state" (R169). -/
inductive Fault where
deriving DecidableEq, Repr

/-- Why the model gives a program no meaning. Each is safe: nothing can be proved about what follows. -/
inductive Refusal where
  /-- Raised by `exec` alone for a command with no meaning yet; no command is left so. Safe. -/
  | notModelled (mnemonic : String)
  /-- Raised by a register access to an unmapped offset, not 64 bits wide, or of a block that is not there
  (10_state.md R29; 45_host_interface.md R161; log 14). Safe. -/
  | noSuchRegister
  /-- Raised by a host write into the footprint of a running command, or a host read of its out range, whatever else
  the access touches (70_reset_and_hazards.md R218). Safe. -/
  | footprintHazard
  /-- Raised by a START whose command would run beside another whose footprint it conflicts with
  (70_reset_and_hazards.md R220). Safe. -/
  | crossBlockHazard
  /-- Raised by a START, and by a Perform, of a command whose footprint holds a byte of a device or of a register
  window (20_memory.md R58; 70_reset_and_hazards.md R221; log 12). Safe. -/
  | footprintNotMemory
  /-- Raised by a host memory access to a byte that does not exist: outside the `2^64` addresses, or not admitted by the
  platform (10_state.md R35). The spec gives no outcome for it, and no bus error (60_exceptions.md R189; log 13). Safe. -/
  | noSuchMemory
  /-- Raised by a host memory access to a byte of a device or of a register window, whose behaviour as memory the
  spec does not give (10_state.md R36; log 13). Safe. -/
  | hostAccessNotMemory
  /-- Raised by an engine whose latched CMD encodes no command: START checked it, so no reachable state has one
  (45_host_interface.md R171; log 11). Safe. -/
  | latchedIllegal
deriving DecidableEq, Repr

/-- The descriptor registers after reset (70_reset_and_hazards.md R210). -/
def zeroDescriptor : Descriptor :=
  { cmd := 0, outBase := 0, aBase := 0, bBase := 0, aRows := 0, aCols := 0, bCols := 0, outLen := 0, aLen := 0, bLen := 0 }

/-- A block after reset (70_reset_and_hazards.md R210), its lanes as given: the spec leaves them unspecified. -/
def Block.afterReset (acc : Vector Word 8) : Block :=
  { regs := zeroDescriptor, busy := false, done := false, err := false, errCode := 0, latched := none, acc }

/-- The machine right after reset on platform `p`: every block reset, lanes 0 (DESIGN CHOICE, log 8), memory with
nothing listed (log 5), the host with no transaction to make (log 3). -/
def State.resetOn (p : Platform) : State :=
  { mem := []
    blocks := p.regBase.map fun _ => Block.afterReset (Vector.replicate 8 0)
    platform := p
    program := []
    replies := []
    turns := []
    engine := 0
    draws := 0 }

/-- The machine right after reset, on the default platform (log 6). -/
def State.reset : State := State.resetOn defaultPlatform

end Sys2Proof.Machine
end

