-- ==== Sys2Proof/Machine/Ops.lean ====
section
/-! DEFINITION. The shared operations over memory, registers and STATUS: byte and element access (00_scope.md R11),
register access (45_host_interface.md R162, R167), taking an error and clearing it (60_exceptions.md R183, R190),
latching and completing a command (45_host_interface.md R164, R166) and reset (70_reset_and_hazards.md R210, R211). -/

namespace Sys2Proof.Machine

/-! ### Memory -/

/-- What an unlisted byte reads as (DESIGN CHOICE, log 5). -/
def unlistedByte : Byte := 0

/-- The byte at an address. -/
def Memory.read : Memory → Nat → Byte
  | [], _ => unlistedByte
  | (k, v) :: m, a => if k = a then v else Memory.read m a

/-- Storing a byte keeps the list's form: a byte equal to what an unlisted one reads as is not listed. -/
def Memory.write : Memory → Nat → Byte → Memory
  | [], a, v => if v = unlistedByte then [] else [(a, v)]
  | (k, w) :: m, a, v =>
    if a < k then (if v = unlistedByte then (k, w) :: m else (a, v) :: (k, w) :: m)
    else if a = k then (if v = unlistedByte then m else (a, v) :: m)
    else (k, w) :: Memory.write m a v

/-- The canonical form from address `lo` up: addresses strictly rising, none below `lo`, no byte listed that an
unlisted one equals. -/
def Memory.wfFrom : Nat → Memory → Bool
  | _, [] => true
  | lo, (k, v) :: m => decide (lo ≤ k) && decide (v ≠ unlistedByte) && Memory.wfFrom (k + 1) m

/-- The canonical form of memory: equal memories are equal lists. -/
def Memory.wf (m : Memory) : Bool := Memory.wfFrom 0 m

/-- `MemRead(addr, n)`: `n` bytes as one little-endian number (00_scope.md R11). -/
def memRead (m : Memory) (addr : Nat) : Nat → Nat
  | 0 => 0
  | n + 1 => (Memory.read m addr).toNat + 2 ^ 8 * memRead m (addr + 1) n

/-- `MemWrite(addr, n, v)`: the low `n` bytes of `v`, little-endian (00_scope.md R11). -/
def memWrite (m : Memory) (addr : Nat) : Nat → Nat → Memory
  | 0, _ => m
  | n + 1, v => memWrite (Memory.write m addr (BitVec.ofNat 8 v)) (addr + 1) n (v / 2 ^ 8)

/-- Storing a list of bytes from an address up (45_host_interface.md R168). -/
def storeBytes (m : Memory) (addr : Nat) : List Byte → Memory
  | [] => m
  | v :: vs => storeBytes (Memory.write m addr v) (addr + 1) vs

/-- The low `n` bytes of a number, least significant first. -/
def bytesOf : Nat → Nat → List Byte
  | 0, _ => []
  | n + 1, v => BitVec.ofNat 8 v :: bytesOf n (v / 2 ^ 8)

/-- Every existing byte of the range takes a free value, one draw each (70_reset_and_hazards.md R211; log 9). -/
def drawBytes (p : Platform) (m : Memory) (addr draw : Nat) : Nat → Memory
  | 0 => m
  | n + 1 =>
    let m' := if memAdmits p addr then Memory.write m addr (Config.freeByte draw) else m
    drawBytes p m' (addr + 1) (draw + 1) n

/-! ### Registers -/

/-- A descriptor register's value; CTRL reads 0 (10_state.md R27); STATUS is no descriptor register
(its word is `statusWord`). -/
def getReg (d : Descriptor) : Reg → Word
  | .cmd => d.cmd
  | .outBase => d.outBase
  | .aBase => d.aBase
  | .bBase => d.bBase
  | .aRows => d.aRows
  | .aCols => d.aCols
  | .bCols => d.bCols
  | .outLen => d.outLen
  | .aLen => d.aLen
  | .bLen => d.bLen
  | .ctrl => 0
  | .status => 0

/-- Storing to a descriptor register, as written (10_state.md R22 to R25); CTRL and STATUS store nothing
(45_host_interface.md R162). -/
def setReg (d : Descriptor) (r : Reg) (v : Word) : Descriptor :=
  match r with
  | .cmd => { d with cmd := v }
  | .outBase => { d with outBase := v }
  | .aBase => { d with aBase := v }
  | .bBase => { d with bBase := v }
  | .aRows => { d with aRows := v }
  | .aCols => { d with aCols := v }
  | .bCols => { d with bCols := v }
  | .outLen => { d with outLen := v }
  | .aLen => { d with aLen := v }
  | .bLen => { d with bLen := v }
  | .ctrl => d
  | .status => d

/-! ### STATUS: errors, latching, completion -/

/-- The error conditions of 60_exceptions.md R181. -/
inductive ErrorCode where
  | opcode
  | dim
  | rows8
  | lenOut
  | lenA
  | lenB
  | align
  | range
  | aliased
deriving DecidableEq, Repr

/-- The code an error reports in STATUS.ERRCODE (60_exceptions.md R181). -/
def errorNumber : ErrorCode → BitVec 8
  | .opcode => 1
  | .dim => 2
  | .rows8 => 3
  | .lenOut => 4
  | .lenA => 5
  | .lenB => 6
  | .align => 7
  | .range => 8
  | .aliased => 9

/-- An accepted START clears what the last command reported (45_host_interface.md R164; 60_exceptions.md R190). -/
def Block.clearStatus (b : Block) : Block := { b with done := false, err := false, errCode := 0 }

/-- Error entry (60_exceptions.md R183): the code is recorded, ERR and DONE set, BUSY left 0, nothing latched. -/
def Block.errorEntry (b : Block) (e : ErrorCode) : Block :=
  { b with errCode := errorNumber e, err := true, done := true }

/-- A START that passes every check latches the descriptor registers and sets BUSY (45_host_interface.md R164). -/
def Block.latch (b : Block) : Block := { b with latched := some b.regs, busy := true }

/-- Eight lanes of free values (log 8). -/
def freeLanes (draw : Nat) : Vector Word 8 := Vector.ofFn fun i => Config.freeAcc (draw + i)

/-- Completion of a command (45_host_interface.md R166): BUSY cleared, DONE set, `LD` invalid, ERR and ERRCODE as
they are; the lanes hold what the command left in them, a free value (10_state.md R33; log 8). -/
def Block.finish (b : Block) (acc : Vector Word 8) : Block :=
  { b with busy := false, done := true, latched := none, acc }

/-- Block `n` changed by `f`, nothing else. -/
def State.updateBlock (s : State) (n : Nat) (f : Block → Block) : State := { s with blocks := s.blocks.modify n f }

/-- The perform step's whole effect (45_host_interface.md R166): memory becomes `m`, the engine's block finishes. -/
def State.complete (s : State) (m : Memory) : State :=
  { s.updateBlock s.engine (·.finish (freeLanes s.draws)) with mem := m, draws := s.draws + 8 }

/-- A reply to the host (45_host_interface.md R167, R168; log 15). -/
def State.answer (s : State) (r : Reply) : State := { s with replies := r :: s.replies }

/-! ### Reset -/

/-- Memory after a reset of a block with this latched descriptor: a running command's out range takes free values,
everything else is unchanged (70_reset_and_hazards.md R210, R211). -/
def abortMemory (p : Platform) (m : Memory) (draw : Nat) (running : Option Descriptor) : Memory :=
  match running with
  | none => m
  | some d => drawBytes p m d.outBase.toNat draw d.outLen.toNat

/-- The free values that aborting a command draws. -/
def abortDraws (running : Option Descriptor) : Nat :=
  match running with
  | none => 0
  | some d => d.outLen.toNat

/-- The descriptor of the command a block is running: `LD` while BUSY (10_state.md R31). -/
def Block.running (b : Block) : Option Descriptor := if b.busy then b.latched else none

/-- The descriptor that block `n` is running, if it is BUSY. -/
def State.runningAt (s : State) (n : Nat) : Option Descriptor := s.blocks[n]?.bind Block.running

/-- `Reset(n)` (70_reset_and_hazards.md R210, R211): the block's registers as after reset, its lanes a free value;
another block is not affected; a block that is not there has no reset input (log 16). -/
def State.resetBlock (s : State) (n : Nat) : State :=
  match s.blocks[n]? with
  | none => s
  | some b =>
    { s.updateBlock n (fun _ => Block.afterReset (freeLanes (s.draws + abortDraws b.running))) with
      mem := abortMemory s.platform s.mem s.draws b.running
      draws := s.draws + abortDraws b.running + 8 }

end Sys2Proof.Machine
end

