-- ==== Sys2Proof/Machine/Operands.lean ====
section
/-! DEFINITION. Operands: element addresses and access (00_scope.md R12; 20_memory.md R51, R52), ring sums
(40_datapath.md R92), seed elements (R93), packed sub-elements (R94), required lengths (30_encoding.md R77) and the
footprint (10_state.md R34). -/

namespace Sys2Proof.Machine

/-- A ring element of the kernel: addition and multiplication of `BitVec` are modulo `2^W` (40_datapath.md R91). -/
abbrev Elem (k : Kernel) := BitVec (width k)

/-- `Σ_W{k<n} f(k)`, from 0 upward; 0 when `n = 0` (40_datapath.md R92). -/
def ringSum {w : Nat} : Nat → (Nat → BitVec w) → BitVec w
  | 0, _ => 0
  | n + 1, f => ringSum n f + f n

/-- `for i in 0..n-1` (00_scope.md R13). -/
def forUpTo {α : Type} : Nat → (Nat → α → α) → α → α
  | 0, _, x => x
  | n + 1, body, x => body n (forUpTo n body x)

/-- The address of element `idx` of a flat sequence of the kernel's elements (00_scope.md R12). -/
def elemAt (k : Kernel) (base : Word) (idx : Nat) : Nat := base.toNat + idx * elemBytes k

/-- The address of element `(i, j)` of a matrix with `cols` columns (00_scope.md R12). -/
def cellAt (k : Kernel) (base : Word) (cols i j : Nat) : Nat := elemAt k base (i * cols + j)

/-- The element at a byte address: `MemRead(a, E)` (20_memory.md R52). -/
def readElem (k : Kernel) (m : Memory) (a : Nat) : Elem k := BitVec.ofNat (width k) (memRead m a (elemBytes k))

/-- Storing an element: `MemWrite(a, E, v)` (20_memory.md R52). -/
def writeElem (k : Kernel) (m : Memory) (a : Nat) (v : Elem k) : Memory := memWrite m a (elemBytes k) v.toNat

/-- `seedElem(s, idx)`: `E` seed bytes, little-endian, zero-extended (40_datapath.md R93). -/
def seedElem (k : Kernel) (m : Memory) (seed : Word) (idx : Nat) : Elem k :=
  BitVec.ofNat (width k) (memRead m (seed.toNat + idx * elemBytes k) (elemBytes k))

/-- `slot(w, s)`: sub-element `s` of a packed word, the bit_sliced_extractor (40_datapath.md R94). -/
def slot (k : Kernel) (w : Elem k) (s : Nat) : Elem k := (w >>> (s * basis k)) &&& BitVec.ofNat (width k) (mask k)

/-- The element of `b` that sub-element `s` of word `j` multiplies (44_unpack_and_multiply.md R141, R142). -/
def slotColumn (k : Kernel) (j s : Nat) : Nat := j * slotsPerWord k + s

/-- The logical matrix of a packed one, the packed_matrix_unpacker (44_unpack_and_multiply.md R140, R141):
entry `(i, c)` with `cols` packed words a row. -/
def unpacked (k : Kernel) (m : Memory) (packed : Word) (cols i c : Nat) : Elem k :=
  slot k (readElem k m (cellAt k packed cols i (c / slotsPerWord k))) (c % slotsPerWord k)

/-! ### Lengths and ranges -/

/-- `reqOut`, in bytes over the unbounded naturals (30_encoding.md R77). -/
def requiredOut (op : Op) (k : Kernel) (rows _cols bCols : Nat) : Nat :=
  match op with
  | .dense => rows * bCols * elemBytes k
  | .expand => rows * bCols * elemBytes k
  | .vector => rows * elemBytes k
  | .unpack => rows * elemBytes k

/-- `reqA` (30_encoding.md R77). -/
def requiredA (k : Kernel) (rows cols : Nat) : Nat := rows * cols * elemBytes k

/-- `reqB` (30_encoding.md R77; 44_unpack_and_multiply.md R140 with R141 for UMUL). -/
def requiredB (op : Op) (k : Kernel) (cols bCols : Nat) : Nat :=
  match op with
  | .dense => cols * bCols * elemBytes k
  | .expand => cols * bCols * elemBytes k
  | .vector => cols * elemBytes k
  | .unpack => slotsPerWord k * cols * elemBytes k

/-- The out range of a descriptor (10_state.md R34). -/
def outRange (d : Descriptor) : Region := { base := d.outBase.toNat, size := d.outLen.toNat }

/-- The A range (10_state.md R34). -/
def aRange (d : Descriptor) : Region := { base := d.aBase.toNat, size := d.aLen.toNat }

/-- The B range (10_state.md R34). -/
def bRange (d : Descriptor) : Region := { base := d.bBase.toNat, size := d.bLen.toNat }

/-- The footprint: the out, A and B ranges (10_state.md R34). -/
def footprint (d : Descriptor) : List Region := [outRange d, aRange d, bRange d]

/-- Address `a` lies in the footprint. -/
def inFootprint (d : Descriptor) (a : Nat) : Bool := (footprint d).any (inRegion · a)

/-- Every byte of the footprint exists (45_host_interface.md R166). -/
def footprintAdmitted (p : Platform) (d : Descriptor) : Bool := (footprint d).all (regionAdmitted p)

/-- No byte of the footprint is a device's or a register window's (20_memory.md R58; 70_reset_and_hazards.md R221). -/
def footprintOrdinary (p : Platform) (d : Descriptor) : Bool := (footprint d).all (regionOrdinary p)

/-- Two running commands conflict: the out range of one meets a range of the other (70_reset_and_hazards.md R220). -/
def conflict (d e : Descriptor) : Bool :=
  (footprint e).any (regionsMeet (outRange d)) || (footprint d).any (regionsMeet (outRange e))

end Sys2Proof.Machine
end

