-- ==== Sys2Proof/Machine/Check.lean ====
section
/-! DEFINITION. The START check of 60_exceptions.md R182, in its order. -/

namespace Sys2Proof.Machine

/-- A required length of `2^64` bytes or more (60_exceptions.md R185). -/
def tooLong (bytes : Nat) : Bool := decide (addressTop ≤ bytes)

/-- A base that must be a multiple of `E` is not (20_memory.md R55): EMUL's seed may have any alignment. -/
def misaligned (op : Op) (k : Kernel) (d : Descriptor) : Bool :=
  decide (d.outBase.toNat % elemBytes k ≠ 0) ||
    (decide (op ≠ .expand) && decide (d.aBase.toNat % elemBytes k ≠ 0)) ||
    decide (d.bBase.toNat % elemBytes k ≠ 0)

/-- The buffer runs past the top of the address space (20_memory.md R61). -/
def pastTop (base len : Word) : Bool := decide (addressTop < base.toNat + len.toNat)

/-- The checks of a command's operands (60_exceptions.md R182 after the opcode check): the first failing code. -/
def checkOperands (op : Op) (k : Kernel) (d : Descriptor) : Option ErrorCode :=
  let rows := d.aRows.toNat
  let cols := d.aCols.toNat
  let bCols := d.bCols.toNat
  if tooLong (requiredOut op k rows cols bCols) || tooLong (requiredA k rows cols) ||
      tooLong (requiredB op k cols bCols) then some .dim
  else if op = .unpack ∧ rows % rowBlock ≠ 0 then some .rows8
  else if d.outLen.toNat ≠ requiredOut op k rows cols bCols then some .lenOut
  else if d.aLen.toNat ≠ requiredA k rows cols then some .lenA
  else if d.bLen.toNat ≠ requiredB op k cols bCols then some .lenB
  else if misaligned op k d then some .align
  else if pastTop d.outBase d.outLen || pastTop d.aBase d.aLen || pastTop d.bBase d.bLen then some .range
  else if regionsMeet (outRange d) (aRange d) || regionsMeet (outRange d) (bRange d) then some .aliased
  else none

/-- `Check(reg)` (60_exceptions.md R182): `none` is code 0. -/
def check (d : Descriptor) : Option ErrorCode :=
  match decodeCmd d.cmd with
  | none => some .opcode
  | some (op, k) => checkOperands op k d

end Sys2Proof.Machine
end

