-- ==== Sys2Proof/Machine/Perform.lean ====
section
/-! DEFINITION. The engine's perform step, shared by the eight commands (45_host_interface.md R166, R171). -/

namespace Sys2Proof.Machine

/-- `Perform` of the latched descriptor `d` with the command function `f` (45_host_interface.md R166, R171).
A footprint that is not ordinary memory is refused (20_memory.md R58; log 12). Where a footprint byte does not
exist the step is not enabled and nothing changes: the command stays BUSY, "a stuck state, not a fault"
(20_memory.md R59; log 10). -/
def perform (f : Descriptor → Memory → Memory) (d : Descriptor) (s : State) : Host.Outcome State Fault Refusal :=
  if footprintOrdinary s.platform d then
    if footprintAdmitted s.platform d then .next (s.complete (f d s.mem)) else .next s
  else .refused .footprintNotMemory

end Sys2Proof.Machine
end

