-- ==== Sys2Proof/Machine/Dense.lean ====
section
/-! DEFINITION. DenseMultiply: DMUL32, DMUL64 (41_dense_multiply.md). -/

namespace Sys2Proof.Machine

/-- `Σ_W{k<K} mul_W(A[i][k], B[k][j])`, every input read from `m0` (R110). -/
def denseSum (k : Kernel) (d : Descriptor) (m0 : Memory) (i j : Nat) : Elem k :=
  ringSum d.aCols.toNat fun t =>
    readElem k m0 (cellAt k d.aBase d.aCols.toNat i t) * readElem k m0 (cellAt k d.bBase d.bCols.toNat t j)

/-- `out[i][j] <- out[i][j] + Σ_k A[i][k]·B[k][j]` for every `i < R`, `j < N` (R110). -/
def denseMultiply (k : Kernel) (d : Descriptor) (m0 : Memory) : Memory :=
  forUpTo d.aRows.toNat (fun i m =>
    forUpTo d.bCols.toNat (fun j m =>
      writeElem k m (cellAt k d.outBase d.bCols.toNat i j)
        (readElem k m0 (cellAt k d.outBase d.bCols.toNat i j) + denseSum k d m0 i j)) m) m0

/-- DMUL32 (R111). -/
def execDmul32 (o : MatOperands) (s : State) : Host.Outcome State Fault Refusal :=
  perform (denseMultiply .k32) (encode (.dmul32 o)) s

/-- DMUL64 (R112). -/
def execDmul64 (o : MatOperands) (s : State) : Host.Outcome State Fault Refusal :=
  perform (denseMultiply .k64) (encode (.dmul64 o)) s

end Sys2Proof.Machine
end

