-- ==== Sys2Proof/Machine/Expand.lean ====
section
/-! DEFINITION. ExpandAndMultiply: EMUL32, EMUL64 (43_expand_and_multiply.md). -/

namespace Sys2Proof.Machine

/-- `Σ_W{k<K} mul_W(seedElem(seed, i*K + k), B[k][j])` (R130). -/
def expandSum (k : Kernel) (d : Descriptor) (m0 : Memory) (i j : Nat) : Elem k :=
  ringSum d.aCols.toNat fun t =>
    seedElem k m0 d.aBase (i * d.aCols.toNat + t) * readElem k m0 (cellAt k d.bBase d.bCols.toNat t j)

/-- `out[i][j] <- out[i][j] + Σ_k Decode(seed)[i][k]·B[k][j]` for every `i < R`, `j < N` (R130). -/
def expandMultiply (k : Kernel) (d : Descriptor) (m0 : Memory) : Memory :=
  forUpTo d.aRows.toNat (fun i m =>
    forUpTo d.bCols.toNat (fun j m =>
      writeElem k m (cellAt k d.outBase d.bCols.toNat i j)
        (readElem k m0 (cellAt k d.outBase d.bCols.toNat i j) + expandSum k d m0 i j)) m) m0

/-- EMUL32 (R131). -/
def execEmul32 (o : MatOperands) (s : State) : Host.Outcome State Fault Refusal :=
  perform (expandMultiply .k32) (encode (.emul32 o)) s

/-- EMUL64 (R132). -/
def execEmul64 (o : MatOperands) (s : State) : Host.Outcome State Fault Refusal :=
  perform (expandMultiply .k64) (encode (.emul64 o)) s

end Sys2Proof.Machine
end

