-- ==== Sys2Proof/Machine/Unpack.lean ====
section
/-! DEFINITION. UnpackAndMultiply: UMUL32, UMUL64 (44_unpack_and_multiply.md). -/

namespace Sys2Proof.Machine

/-- `Σ_W{j<K} Σ_W{s<C_EXT} mul_W(slot(P[i][j], s), b[j*C_EXT + s])` (R142). -/
def unpackSum (k : Kernel) (d : Descriptor) (m0 : Memory) (i : Nat) : Elem k :=
  ringSum d.aCols.toNat fun j =>
    ringSum (slotsPerWord k) fun t =>
      slot k (readElem k m0 (cellAt k d.aBase d.aCols.toNat i j)) t * readElem k m0 (elemAt k d.bBase (slotColumn k j t))

/-- `out[i] <- out[i] + Σ_c U[i][c]·b[c]` for every `i < R`: the command accumulates (R142). -/
def unpackMultiply (k : Kernel) (d : Descriptor) (m0 : Memory) : Memory :=
  forUpTo d.aRows.toNat (fun i m =>
    writeElem k m (elemAt k d.outBase i) (readElem k m0 (elemAt k d.outBase i) + unpackSum k d m0 i)) m0

/-- UMUL32 (R143). -/
def execUmul32 (o : VecOperands) (s : State) : Host.Outcome State Fault Refusal :=
  perform (unpackMultiply .k32) (encode (.umul32 o)) s

/-- UMUL64 (R144). -/
def execUmul64 (o : VecOperands) (s : State) : Host.Outcome State Fault Refusal :=
  perform (unpackMultiply .k64) (encode (.umul64 o)) s

end Sys2Proof.Machine
end

