-- ==== Sys2Proof/Machine/VectorMul.lean ====
section
/-! DEFINITION. VectorMultiply: VMUL32, VMUL64 (42_vector_multiply.md). -/

namespace Sys2Proof.Machine

/-- `Σ_W{k<K} mul_W(A[i][k], b[k])` (R120). -/
def vectorSum (k : Kernel) (d : Descriptor) (m0 : Memory) (i : Nat) : Elem k :=
  ringSum d.aCols.toNat fun t =>
    readElem k m0 (cellAt k d.aBase d.aCols.toNat i t) * readElem k m0 (elemAt k d.bBase t)

/-- `out[i] <- Σ_k A[i][k]·b[k]` for every `i < R`: the command overwrites (R120). -/
def vectorMultiply (k : Kernel) (d : Descriptor) (m0 : Memory) : Memory :=
  forUpTo d.aRows.toNat (fun i m => writeElem k m (elemAt k d.outBase i) (vectorSum k d m0 i)) m0

/-- VMUL32 (R121). -/
def execVmul32 (o : VecOperands) (s : State) : Host.Outcome State Fault Refusal :=
  perform (vectorMultiply .k32) (encode (.vmul32 o)) s

/-- VMUL64 (R122). -/
def execVmul64 (o : VecOperands) (s : State) : Host.Outcome State Fault Refusal :=
  perform (vectorMultiply .k64) (encode (.vmul64 o)) s

end Sys2Proof.Machine
end

