-- ==== Sys2Proof/Machine/Dispatch.lean ====
section
/-! DEFINITION. `Exec` dispatches on the decoded command (45_host_interface.md R171), one arm per command. -/

namespace Sys2Proof.Machine

def exec (i : Instr) (s : State) : Host.Outcome State Fault Refusal :=
  match i with
  | .dmul32 o => Sys2Proof.Machine.execDmul32 o s
  | .vmul32 o => Sys2Proof.Machine.execVmul32 o s
  | .emul32 o => Sys2Proof.Machine.execEmul32 o s
  | .umul32 o => Sys2Proof.Machine.execUmul32 o s
  | .dmul64 o => Sys2Proof.Machine.execDmul64 o s
  | .vmul64 o => Sys2Proof.Machine.execVmul64 o s
  | .emul64 o => Sys2Proof.Machine.execEmul64 o s
  | .umul64 o => Sys2Proof.Machine.execUmul64 o s

end Sys2Proof.Machine
end

