-- ==== Sys2Proof/Machine/Flags.lean ====
section
/-! DEFINITION. The machine's only flags: the STATUS word (10_state.md R28, R30) and what a register read returns
(45_host_interface.md R167). -/

namespace Sys2Proof.Machine

/-- A one-bit field as a number. -/
def bit (b : Bool) : Word := if b then 1 else 0

/-- STATUS: `BUSY | DONE<<1 | ERR<<2 | ERRCODE<<8`, every other bit 0 (10_state.md R28). -/
def statusWord (b : Block) : Word :=
  bit b.busy ||| bit b.done <<< 1 ||| bit b.err <<< 2 ||| b.errCode.setWidth 64 <<< 8

/-- What a read of a register returns (45_host_interface.md R167). -/
def Block.readReg (b : Block) (r : Reg) : Word :=
  match r with
  | .status => statusWord b
  | r => getReg b.regs r

end Sys2Proof.Machine
end

