-- ==== Sys2Proof/Machine/HostSide.lean ====
section
/-! DEFINITION. The host's transactions (45_host_interface.md R160 to R168; 30_encoding.md R82 to R84) and START
(R163, R164), with the hazards that the model refuses (70_reset_and_hazards.md R218, R220, R221). -/

namespace Sys2Proof.Machine

/-! ### START -/

/-- Some other running block conflicts with a command of block `n` that has descriptor `d` (70_reset_and_hazards.md R220). -/
def conflictsWithRunning (s : State) (n : Nat) (d : Descriptor) : Bool :=
  (List.range s.blocks.length).any fun m =>
    decide (m ≠ n) && ((s.runningAt m).any (conflict d))

/-- An accepted START of block `n`, whose registers are those of `b` (45_host_interface.md R164): an error completion,
or the command is latched. A passing START is refused over memory that is not ordinary (70_reset_and_hazards.md R221;
log 12) and beside a conflicting command (R220: "It checks when the second of the two STARTs is accepted"). -/
def acceptStart (s : State) (n : Nat) (b : Block) : Host.Outcome State Fault Refusal :=
  match check b.regs with
  | some e => .next (s.updateBlock n fun b => b.clearStatus.errorEntry e)
  | none =>
    if footprintOrdinary s.platform b.regs then
      if conflictsWithRunning s n b.regs then .refused .crossBlockHazard
      else .next (s.updateBlock n fun b => b.clearStatus.latch)
    else .refused .footprintNotMemory

/-- `Start(n)`: dropped while BUSY (45_host_interface.md R163), else accepted (R164). -/
def start (s : State) (n : Nat) (b : Block) : Host.Outcome State Fault Refusal :=
  if b.busy then .next s else acceptStart s n b

/-! ### Register transactions -/

/-- What a legal register access names: a block that is there, a mapped offset, 64 bits
(10_state.md R29; 45_host_interface.md R161; log 14). -/
def registerAccess (s : State) (n off bits : Nat) : Option (Block × Reg) :=
  if bits = 64 then
    match s.blocks[n]?, regAt off with
    | some b, some r => some (b, r)
    | _, _ => none
  else none

/-- `RegWrite(n, off, v)` on a mapped register (45_host_interface.md R162). -/
def writeReg (s : State) (n : Nat) (b : Block) (r : Reg) (v : Word) : Host.Outcome State Fault Refusal :=
  match r with
  | .ctrl => if v.getLsbD 0 then start s n b else .next s
  | .status => .next s
  | r => .next (s.updateBlock n fun b => { b with regs := setReg b.regs r v })

/-- `RegRead(n, off)` on a mapped register: the value, no side effect (45_host_interface.md R167). -/
def readReg (s : State) (b : Block) (r : Reg) : State := s.answer (.register (b.readReg r))

/-! ### Memory accesses -/

/-- A running command's footprint meets the region (70_reset_and_hazards.md R218). -/
def meetsRunningFootprint (s : State) (r : Region) : Bool :=
  s.blocks.any fun b => b.running.any fun d => (footprint d).any (regionsMeet r)

/-- A running command's out range meets the region (70_reset_and_hazards.md R218). -/
def meetsRunningOut (s : State) (r : Region) : Bool :=
  s.blocks.any fun b => b.running.any fun d => regionsMeet r (outRange d)

/-- A host access to region `r`, answering `t`. A breach of the footprint hazard is refused, whatever memory it touches
(45_host_interface.md R168, R173; 70_reset_and_hazards.md R218). Then every byte must exist and be ordinary memory, else
the access is refused too (DESIGN CHOICE, log 13): the model "has no bus-error outcome" (60_exceptions.md R189). -/
def hostAccess (s : State) (r : Region) (breach : Bool) (t : State) : Host.Outcome State Fault Refusal :=
  if breach then .refused .footprintHazard
  else if regionAdmitted s.platform r then
    if regionOrdinary s.platform r then .next t else .refused .hostAccessNotMemory
  else .refused .noSuchMemory

/-- `HostMemWrite(a, bytes)` (45_host_interface.md R168), refused inside a running footprint
(70_reset_and_hazards.md R218). -/
def hostWrite (s : State) (a : Word) (bytes : List Byte) : Host.Outcome State Fault Refusal :=
  let r : Region := { base := a.toNat, size := bytes.length }
  hostAccess s r (meetsRunningFootprint s r) { s with mem := storeBytes s.mem a.toNat bytes }

/-- `HostMemRead(a, n)` (45_host_interface.md R168), refused inside a running out range
(70_reset_and_hazards.md R218: "Host reads of the A and B ranges are allowed"). -/
def hostRead (s : State) (a : Word) (count : Nat) : Host.Outcome State Fault Refusal :=
  let r : Region := { base := a.toNat, size := count }
  hostAccess s r (meetsRunningOut s r) (s.answer (.memory (memRead s.mem a.toNat count)))

/-! ### The host's turn -/

/-- One transaction, already taken off the program (45_host_interface.md R160). POLL reads STATUS and, while BUSY is
1, stays the next transaction (30_encoding.md R84; log 15). -/
def transact (op : HostOp) (s : State) : Host.Outcome State Fault Refusal :=
  match op with
  | .regWrite n off bits v =>
    match registerAccess s n off bits with
    | some (b, r) => writeReg s n b r v
    | none => .refused .noSuchRegister
  | .regRead n off bits =>
    match registerAccess s n off bits with
    | some (b, r) => .next (readReg s b r)
    | none => .refused .noSuchRegister
  | .memWrite a bytes => hostWrite s a bytes
  | .memRead a count => hostRead s a count
  | .poll n =>
    match registerAccess s n (regOffset .status) 64 with
    | some (b, r) =>
      if (b.readReg r).getLsbD 0 then .next { readReg s b r with program := .poll n :: s.program }
      else .next (readReg s b r)
    | none => .refused .noSuchRegister

/-- The host makes its next transaction; with none left, nothing happens (log 16). -/
def hostTurn (s : State) : Host.Outcome State Fault Refusal :=
  match s.program with
  | [] => .next s
  | op :: rest => transact op { s with program := rest }

/-! ### The assembler's notation (30_encoding.md R82, R83) -/

/-- `WR <reg>, <value>` to block `n`. -/
def WR (n : Nat) (r : Reg) (v : Word) : HostOp := .regWrite n (regOffset r) 64 v

/-- `RD <reg>` of block `n`. -/
def RD (n : Nat) (r : Reg) : HostOp := .regRead n (regOffset r) 64

/-- `MW8`, `MW32`, `MW64`, by the number of bytes. -/
def MW (bytes : Nat) (a : Word) (v : Nat) : HostOp := .memWrite a (bytesOf bytes v)

/-- `MR8`, `MR32`, `MR64`, by the number of bytes. -/
def MR (bytes : Nat) (a : Word) : HostOp := .memRead a bytes

/-- The expansion of a command's pseudo-instruction on block `n`: ten descriptor writes in the order of R83 (which
is the order of the words), START, POLL. -/
def expand (n : Nat) (i : Instr) : List HostOp :=
  let d := encode i
  [WR n .cmd d.cmd, WR n .outBase d.outBase, WR n .aBase d.aBase, WR n .bBase d.bBase, WR n .aRows d.aRows,
    WR n .aCols d.aCols, WR n .bCols d.bCols, WR n .outLen d.outLen, WR n .aLen d.aLen, WR n .bLen d.bLen,
    WR n .ctrl 1, .poll n]

/-- Matrix operands with the lengths that their dimensions require, for a pseudo-instruction with the length operands
left out (R83). A required length of `2^64` or more is no literal of R82 and the spec is silent on what is then written:
it is taken modulo `2^64` (DESIGN CHOICE, log 18). -/
def MatOperands.withRequiredLengths (op : Op) (k : Kernel) (o : MatOperands) : MatOperands :=
  { o with
    outLen := BitVec.ofNat 64 (requiredOut op k o.aRows.toNat o.aCols.toNat o.bCols.toNat)
    aLen := BitVec.ofNat 64 (requiredA k o.aRows.toNat o.aCols.toNat)
    bLen := BitVec.ofNat 64 (requiredB op k o.aCols.toNat o.bCols.toNat) }

/-- Vector operands with the lengths that their dimensions require (R83), one of `2^64` or more taken modulo `2^64`
(DESIGN CHOICE, log 18). -/
def VecOperands.withRequiredLengths (op : Op) (k : Kernel) (o : VecOperands) : VecOperands :=
  { o with
    outLen := BitVec.ofNat 64 (requiredOut op k o.aRows.toNat o.aCols.toNat 0)
    aLen := BitVec.ofNat 64 (requiredA k o.aRows.toNat o.aCols.toNat)
    bLen := BitVec.ofNat 64 (requiredB op k o.aCols.toNat 0) }

/-- A command with the length operands left out (R83). -/
def withRequiredLengths (i : Instr) : Instr :=
  match i with
  | .dmul32 o => .dmul32 (MatOperands.withRequiredLengths .dense .k32 o)
  | .vmul32 o => .vmul32 (VecOperands.withRequiredLengths .vector .k32 o)
  | .emul32 o => .emul32 (MatOperands.withRequiredLengths .expand .k32 o)
  | .umul32 o => .umul32 (VecOperands.withRequiredLengths .unpack .k32 o)
  | .dmul64 o => .dmul64 (MatOperands.withRequiredLengths .dense .k64 o)
  | .vmul64 o => .vmul64 (VecOperands.withRequiredLengths .vector .k64 o)
  | .emul64 o => .emul64 (MatOperands.withRequiredLengths .expand .k64 o)
  | .umul64 o => .umul64 (VecOperands.withRequiredLengths .unpack .k64 o)

end Sys2Proof.Machine
end

