-- ==== Sys2Proof/Machine/Turns.lean ====
section
/-! DEFINITION. Who moves, and what a move is (45_host_interface.md R160): the engine's fetch of its latched command,
the host's transaction, the reset input. -/

namespace Sys2Proof.Machine

/-- The command that block `n` has latched, `LD_n` while BUSY (10_state.md R31): the engine "reads only `LD`". -/
def fetch (s : State) (n : Nat) : Option (Except DecodeError Instr) :=
  (s.runningAt n).map decode

/-- The engine's turn of block `n`: its latched command is performed (45_host_interface.md R166). With BUSY 0 the
step is not enabled and nothing changes (log 16); a latched CMD that encodes no command is refused (R171; log 11). -/
def engineTurn (n : Nat) (s : State) : Host.Outcome State Fault Refusal :=
  match fetch s n with
  | none => .next s
  | some (.ok i) => exec i { s with engine := n }
  | some (.error _) => .refused .latchedIllegal

/-- `Perform(n)` is enabled: BUSY, and every footprint byte exists (45_host_interface.md R166). -/
def performEnabled (s : State) (n : Nat) : Bool :=
  (s.runningAt n).any (footprintAdmitted s.platform)

/-- Who moves where no turn is listed (DESIGN CHOICE, log 2): the first block whose Perform is enabled, else the host.
So an enabled Perform fires, as weak fairness asks (45_host_interface.md R166). -/
def defaultTurn (s : State) : Turn :=
  match (List.range s.blocks.length).find? (performEnabled s) with
  | some n => .engine n
  | none => .host

/-- One move (45_host_interface.md R160). -/
def move (t : Turn) (s : State) : Host.Outcome State Fault Refusal :=
  match t with
  | .host => hostTurn s
  | .engine n => engineTurn n s
  | .reset n => .next (s.resetBlock n)

/-- One step: the next listed turn, or the default one (log 1, log 2). -/
def nextMove (s : State) : Host.Outcome State Fault Refusal :=
  match s.turns with
  | [] => move (defaultTurn s) s
  | t :: rest => move t { s with turns := rest }

/-- Block 0 right after the accepted START of descriptor `d` (45_host_interface.md R164), and its engine the next to
move. -/
def State.withLatched (s : State) (d : Descriptor) : State :=
  { s.updateBlock 0 (fun b => { b.clearStatus with latched := some d, busy := true }) with
    turns := .engine 0 :: s.turns }

end Sys2Proof.Machine
end

