-- ==== Sys2Proof/Machine/Step.lean ====
section
/-! DEFINITION. The machine's step (45_host_interface.md R160), and where a step finds its command. -/

namespace Sys2Proof.Machine

/-- One step of the machine. -/
def step (s : State) : Host.Outcome State Fault Refusal := nextMove s

/-- `s` with the command of the first `nbits` bits of `w` latched in block 0 and that block's engine next to move:
the very next step performs it. It stands for the host's loading and starting the command (log 3). -/
def State.withFetchWord (s : State) (nbits w : Nat) : State := s.withLatched (descriptorOfBits (w % 2 ^ nbits))

end Sys2Proof.Machine
end

