-- ==== Sys2Proof/Machine/MacArray.lean ====
section
/-! DEFINITION. The multiply_accumulate_array (40_datapath.md R96, R97) and the reference schedules of R98. They are
informative: no meaning uses them. That each gives its command's closed form (R99) is stated among the obligations.
Unlike the closed forms they read memory as they go, outputs included. -/

namespace Sys2Proof.Machine

/-- One lane's step: `acc <- add_W(acc, mul_W(x, y))` (R96). -/
def macLane {w : Nat} (acc x y : BitVec w) : BitVec w := acc + x * y

/-- The array's eight lanes, as a step or a row block leaves them. -/
abbrev Lanes (k : Kernel) := Vector (Elem k) 8

/-- Lanes cleared at the start of a row block (R96). -/
def clearedLanes (k : Kernel) : Lanes k := Vector.replicate 8 0

/-- One array step: `y` is broadcast, lane `r` takes its own `x r` (R97). -/
def macStep {k : Kernel} (acc : Lanes k) (x : Nat → Elem k) (y : Elem k) : Lanes k :=
  Vector.ofFn fun r => macLane acc[r] (x r) y

/-- The lanes' sums over the packed words of rows `i0 .. i0+7` (R98, UMUL). -/
def unpackLanes (k : Kernel) (d : Descriptor) (m : Memory) (i0 : Nat) : Lanes k :=
  forUpTo d.aCols.toNat (fun j acc =>
    forUpTo (slotsPerWord k) (fun t acc =>
      macStep acc (fun r => slot k (readElem k m (cellAt k d.aBase d.aCols.toNat (i0 + r) j)) t)
        (readElem k m (elemAt k d.bBase (slotColumn k j t)))) acc) (clearedLanes k)

/-- The end of a row block: each lane's sum is added into its `out` element (R98, UMUL). -/
def drainLanes (k : Kernel) (d : Descriptor) (i0 : Nat) (acc : Lanes k) (m : Memory) : Memory :=
  forUpTo rowBlock (fun r m =>
    writeElem k m (elemAt k d.outBase (i0 + r)) (readElem k m (elemAt k d.outBase (i0 + r)) + acc.getD r 0)) m

/-- UMUL's schedule: rows in blocks of 8 (R98). -/
def unpackSchedule (k : Kernel) (d : Descriptor) (m0 : Memory) : Memory :=
  forUpTo (d.aRows.toNat / rowBlock) (fun g m => drainLanes k d (g * rowBlock) (unpackLanes k d m (g * rowBlock)) m) m0

/-- DMUL's and EMUL's schedule: row, then contraction, then column, each product accumulated into `out` (R98).
`x m i t` reads the element of the left operand. -/
def productSchedule (k : Kernel) (x : Memory → Nat → Nat → Elem k) (d : Descriptor) (m0 : Memory) : Memory :=
  forUpTo d.aRows.toNat (fun i m =>
    forUpTo d.aCols.toNat (fun t m =>
      forUpTo d.bCols.toNat (fun j m =>
        writeElem k m (cellAt k d.outBase d.bCols.toNat i j)
          (macLane (readElem k m (cellAt k d.outBase d.bCols.toNat i j)) (x m i t)
            (readElem k m (cellAt k d.bBase d.bCols.toNat t j)))) m) m) m0

/-- DMUL's schedule (R98). -/
def denseSchedule (k : Kernel) (d : Descriptor) (m0 : Memory) : Memory :=
  productSchedule k (fun m i t => readElem k m (cellAt k d.aBase d.aCols.toNat i t)) d m0

/-- EMUL's schedule (R98). -/
def expandSchedule (k : Kernel) (d : Descriptor) (m0 : Memory) : Memory :=
  productSchedule k (fun m i t => seedElem k m d.aBase (i * d.aCols.toNat + t)) d m0

/-- VMUL's schedule: a local accumulator for each row, from zero, then assigned (R98). -/
def vectorSchedule (k : Kernel) (d : Descriptor) (m0 : Memory) : Memory :=
  forUpTo d.aRows.toNat (fun i m =>
    writeElem k m (elemAt k d.outBase i)
      (forUpTo d.aCols.toNat (fun t acc =>
        macLane acc (readElem k m (cellAt k d.aBase d.aCols.toNat i t)) (readElem k m (elemAt k d.bBase t))) 0)) m0

end Sys2Proof.Machine
end

