-- ==== Sys2Proof/Safety.lean ====
section
/-! DEFINITION. What counts as a good state: the invariants that the spec says every reachable state keeps
(10_state.md R28, R31; 70_reset_and_hazards.md R220), and the end of a run (45_host_interface.md R170). -/

namespace Sys2Proof.Machine

/-- A run has ended: the host has no transaction left and no block is BUSY (45_host_interface.md R170). -/
def State.ended (s : State) : Bool := s.program.isEmpty && s.blocks.all fun b => !b.busy

/-- A good block on platform `p`. -/
structure Block.Good (p : Platform) (b : Block) : Prop where
  /-- "`ERR = 1` exactly when `ERRCODE ≠ 0`" (10_state.md R28). -/
  errCode : b.err = true ↔ b.errCode ≠ 0
  /-- "`BUSY = 1` implies `DONE = 0` and `ERR = 0`" (10_state.md R28). -/
  busy : b.busy = true → b.done = false ∧ b.err = false
  /-- "`ERR = 1` implies `DONE = 1`" (10_state.md R28). -/
  errDone : b.err = true → b.done = true
  /-- Codes 10 to 255 are "never reported" (60_exceptions.md R181). -/
  reported : b.errCode.toNat ≤ 9
  /-- `LD` "is valid exactly while STATUS.BUSY = 1" (10_state.md R31). -/
  latched : b.latched.isSome = b.busy
  /-- What is latched passed every check (45_host_interface.md R164). -/
  checked : ∀ d, b.latched = some d → check d = none
  /-- What is latched lies over ordinary memory (70_reset_and_hazards.md R221). -/
  ordinary : ∀ d, b.latched = some d → footprintOrdinary p d = true

/-- A good state. -/
structure State.Good (s : State) : Prop where
  /-- Memory is in its canonical form. -/
  memWf : Memory.wf s.mem = true
  /-- Only bytes that exist are listed (10_state.md R35). -/
  memAdmitted : ∀ c ∈ s.mem, memAdmits s.platform c.1 = true
  /-- There are `N_INST` blocks (45_host_interface.md R160). -/
  blockCount : s.blocks.length = s.platform.regBase.length
  /-- Every block is good. -/
  blocks : ∀ b ∈ s.blocks, Block.Good s.platform b
  /-- Running commands do not conflict (70_reset_and_hazards.md R220). -/
  apart : ∀ (n m : Nat) (d e : Descriptor), n ≠ m → s.runningAt n = some d → s.runningAt m = some e →
    conflict d e = false

/-! ### Terms that claims use -/

/-- What completing a command leaves of everything but memory, free values and draws (45_host_interface.md R166;
10_state.md R21): the engine's block has BUSY 0, DONE 1, `LD` invalid and all else as before but its lanes; every
other block, the platform, the host's program and replies and the turns are as before. -/
structure Completed (s t : State) : Prop where
  block : ∀ b, s.blocks[s.engine]? = some b →
    ∃ c, t.blocks[s.engine]? = some c ∧ c.busy = false ∧ c.done = true ∧ c.latched = none ∧
      c.err = b.err ∧ c.errCode = b.errCode ∧ c.regs = b.regs
  others : ∀ m, m ≠ s.engine → t.blocks[m]? = s.blocks[m]?
  platform : t.platform = s.platform
  program : t.program = s.program
  replies : t.replies = s.replies
  turns : t.turns = s.turns
  engine : t.engine = s.engine

/-- A host transaction that changed block `n` and nothing else: its turn and its place in the program are taken. -/
structure OnlyBlock (n : Nat) (s t : State) : Prop where
  others : ∀ m, m ≠ n → t.blocks[m]? = s.blocks[m]?
  mem : t.mem = s.mem
  platform : t.platform = s.platform
  program : t.program = s.program.tail
  replies : t.replies = s.replies
  turns : t.turns = s.turns.tail
  engine : t.engine = s.engine
  draws : t.draws = s.draws

/-- `n` performances of a command, one after the other. -/
def performed (i : Instr) : Nat → State → Host.Outcome State Fault Refusal
  | 0, s => .next s
  | n + 1, s =>
    match performed i n s with
    | .next t => exec i t
    | .fault r => .fault r
    | .refused r => .refused r

/-- A block with its lanes forgotten: they are not host-visible (10_state.md R33). -/
def Block.forgetLanes (b : Block) : Block := { b with acc := Vector.replicate 8 0 }

/-- Everything a rule of the spec can speak of is the same: all but lanes (10_state.md R33). -/
structure SameButLanes (s t : State) : Prop where
  mem : t.mem = s.mem
  blocks : t.blocks.map Block.forgetLanes = s.blocks.map Block.forgetLanes
  platform : t.platform = s.platform
  program : t.program = s.program
  replies : t.replies = s.replies
  turns : t.turns = s.turns

/-- The condition of error code `code` (60_exceptions.md R181, R182), in plain numbers: the CMD value's residues and
quotients for its fields, and a shared byte for an overlap. -/
def failsCheck (d : Descriptor) (code : Nat) : Prop :=
  let op := d.cmd.toNat % 4
  let e := if d.cmd.toNat / 4 % 2 = 0 then 4 else 8
  let cx := if d.cmd.toNat / 4 % 2 = 0 then 3 else 2
  let r := d.aRows.toNat
  let k := d.aCols.toNat
  let n := d.bCols.toNat
  let reqOut := if op = 0 ∨ op = 2 then r * n * e else r * e
  let reqA := r * k * e
  let reqB := if op = 0 ∨ op = 2 then k * n * e else if op = 1 then k * e else cx * k * e
  match code with
  | 1 => 8 ≤ d.cmd.toNat
  | 2 => 2 ^ 64 ≤ reqOut ∨ 2 ^ 64 ≤ reqA ∨ 2 ^ 64 ≤ reqB
  | 3 => op = 3 ∧ r % 8 ≠ 0
  | 4 => d.outLen.toNat ≠ reqOut
  | 5 => d.aLen.toNat ≠ reqA
  | 6 => d.bLen.toNat ≠ reqB
  | 7 => d.outBase.toNat % e ≠ 0 ∨ (op ≠ 2 ∧ d.aBase.toNat % e ≠ 0) ∨ d.bBase.toNat % e ≠ 0
  | 8 => 2 ^ 64 < d.outBase.toNat + d.outLen.toNat ∨ 2 ^ 64 < d.aBase.toNat + d.aLen.toNat ∨
      2 ^ 64 < d.bBase.toNat + d.bLen.toNat
  | 9 => ∃ x, (d.outBase.toNat ≤ x ∧ x < d.outBase.toNat + d.outLen.toNat) ∧
      ((d.aBase.toNat ≤ x ∧ x < d.aBase.toNat + d.aLen.toNat) ∨
        (d.bBase.toNat ≤ x ∧ x < d.bBase.toNat + d.bLen.toNat))
  | _ => False

end Sys2Proof.Machine
end

