-- ==== Sys2Proof/WellFormed.lean ====
section
/-! DEFINITION. Which commands the block accepts, written per command from its own rule (lengths, alignment, row
count: R111, R112, R121, R122, R131, R132, R143, R144) and from 20_memory.md R61 and 60_exceptions.md R184. The
START check of 60_exceptions.md R182 is a separate text (`Sys2Proof.Machine.check`); that the two agree is stated
among the obligations. -/

namespace Sys2Proof

/-- `base` is a multiple of `e` bytes (20_memory.md R55). -/
def alignedTo (e : Nat) (base : Word) : Bool := base.toNat % e == 0

/-- The buffer ends at or below the top of the address space (20_memory.md R61). -/
def fitsMemory (base len : Word) : Bool := base.toNat + len.toNat ≤ addressTop

/-- Two buffers share no byte: an empty one shares none with any (60_exceptions.md R184, R186). -/
def sharesNoByte (a m b n : Word) : Bool :=
  m == 0 || n == 0 || b.toNat + n.toNat ≤ a.toNat || a.toNat + m.toNat ≤ b.toNat

/-- A buffer has exactly the length the command's dimensions require, in bytes. -/
def hasLength (len : Word) (bytes : Nat) : Bool := len.toNat == bytes

/-- The placement rules every command shares: the three buffers end inside the address space, and `out` shares no
byte with an input. -/
def placed (out a b outLen aLen bLen : Word) : Bool :=
  fitsMemory out outLen && fitsMemory a aLen && fitsMemory b bLen &&
    sharesNoByte out outLen a aLen && sharesNoByte out outLen b bLen

/-- The lengths and alignments of a command, each in its own rule's words. -/
def Instr.sized : Instr → Bool
  | .dmul32 o =>
    hasLength o.outLen (4 * o.aRows.toNat * o.bCols.toNat) && hasLength o.aLen (4 * o.aRows.toNat * o.aCols.toNat) &&
      hasLength o.bLen (4 * o.aCols.toNat * o.bCols.toNat) &&
      alignedTo 4 o.out && alignedTo 4 o.a && alignedTo 4 o.b
  | .vmul32 o =>
    hasLength o.outLen (4 * o.aRows.toNat) && hasLength o.aLen (4 * o.aRows.toNat * o.aCols.toNat) &&
      hasLength o.bLen (4 * o.aCols.toNat) && alignedTo 4 o.out && alignedTo 4 o.a && alignedTo 4 o.b
  | .emul32 o =>
    hasLength o.outLen (4 * o.aRows.toNat * o.bCols.toNat) && hasLength o.aLen (4 * o.aRows.toNat * o.aCols.toNat) &&
      hasLength o.bLen (4 * o.aCols.toNat * o.bCols.toNat) && alignedTo 4 o.out && alignedTo 4 o.b
  | .umul32 o =>
    o.aRows.toNat % 8 == 0 &&
      hasLength o.outLen (4 * o.aRows.toNat) && hasLength o.aLen (4 * o.aRows.toNat * o.aCols.toNat) &&
      hasLength o.bLen (12 * o.aCols.toNat) && alignedTo 4 o.out && alignedTo 4 o.a && alignedTo 4 o.b
  | .dmul64 o =>
    hasLength o.outLen (8 * o.aRows.toNat * o.bCols.toNat) && hasLength o.aLen (8 * o.aRows.toNat * o.aCols.toNat) &&
      hasLength o.bLen (8 * o.aCols.toNat * o.bCols.toNat) &&
      alignedTo 8 o.out && alignedTo 8 o.a && alignedTo 8 o.b
  | .vmul64 o =>
    hasLength o.outLen (8 * o.aRows.toNat) && hasLength o.aLen (8 * o.aRows.toNat * o.aCols.toNat) &&
      hasLength o.bLen (8 * o.aCols.toNat) && alignedTo 8 o.out && alignedTo 8 o.a && alignedTo 8 o.b
  | .emul64 o =>
    hasLength o.outLen (8 * o.aRows.toNat * o.bCols.toNat) && hasLength o.aLen (8 * o.aRows.toNat * o.aCols.toNat) &&
      hasLength o.bLen (8 * o.aCols.toNat * o.bCols.toNat) && alignedTo 8 o.out && alignedTo 8 o.b
  | .umul64 o =>
    o.aRows.toNat % 8 == 0 &&
      hasLength o.outLen (8 * o.aRows.toNat) && hasLength o.aLen (8 * o.aRows.toNat * o.aCols.toNat) &&
      hasLength o.bLen (16 * o.aCols.toNat) && alignedTo 8 o.out && alignedTo 8 o.a && alignedTo 8 o.b

/-- Where a command's three buffers lie. -/
def Instr.buffersPlaced : Instr → Bool
  | .dmul32 o => placed o.out o.a o.b o.outLen o.aLen o.bLen
  | .vmul32 o => placed o.out o.a o.b o.outLen o.aLen o.bLen
  | .emul32 o => placed o.out o.a o.b o.outLen o.aLen o.bLen
  | .umul32 o => placed o.out o.a o.b o.outLen o.aLen o.bLen
  | .dmul64 o => placed o.out o.a o.b o.outLen o.aLen o.bLen
  | .vmul64 o => placed o.out o.a o.b o.outLen o.aLen o.bLen
  | .emul64 o => placed o.out o.a o.b o.outLen o.aLen o.bLen
  | .umul64 o => placed o.out o.a o.b o.outLen o.aLen o.bLen

/-- A command whose buffers are sized, aligned and placed as its rule asks. -/
def Instr.wellFormed (i : Instr) : Bool := i.sized && i.buffersPlaced

end Sys2Proof
end

