-- ==== Sys2Proof/Certificates/Slice0/Obligations.lean ====
section
/-! DEFINITION. The statements for the provers. Each cites the rules of spec/ it comes from; a clause that rests on
the model's own choice says so and names the log entry. -/

namespace Sys2Proof.Claims

open Sys2Proof.Machine

/-- The effect of an accumulating matrix command (41_dense_multiply.md R110, 43_expand_and_multiply.md R130), in plain
`MemRead`s of `e` bytes: cell `(i, j)` of `out` gains the ring sum of the products, every other byte is unchanged. -/
def matrixResult (mk : MatOperands → Instr) (w e : Nat) : Prop :=
  ∀ (o : MatOperands) (s : State), Memory.wf s.mem = true →
    footprintOrdinary s.platform (encode (mk o)) = true → footprintAdmitted s.platform (encode (mk o)) = true →
    ∃ t, exec (mk o) s = .next t ∧ Completed s t ∧
      (∀ i < o.aRows.toNat, ∀ j < o.bCols.toNat,
        BitVec.ofNat w (memRead t.mem (o.out.toNat + (i * o.bCols.toNat + j) * e) e) =
          BitVec.ofNat w (memRead s.mem (o.out.toNat + (i * o.bCols.toNat + j) * e) e) +
            ringSum o.aCols.toNat fun c =>
              BitVec.ofNat w (memRead s.mem (o.a.toNat + (i * o.aCols.toNat + c) * e) e) *
                BitVec.ofNat w (memRead s.mem (o.b.toNat + (c * o.bCols.toNat + j) * e) e)) ∧
      ∀ x, x < o.out.toNat ∨ o.out.toNat + o.aRows.toNat * o.bCols.toNat * e ≤ x →
        Memory.read t.mem x = Memory.read s.mem x

/-- The effect of VectorMultiply (42_vector_multiply.md R120): `out[i]` is overwritten with the ring sum. -/
def vectorResult (mk : VecOperands → Instr) (w e : Nat) : Prop :=
  ∀ (o : VecOperands) (s : State), Memory.wf s.mem = true →
    footprintOrdinary s.platform (encode (mk o)) = true → footprintAdmitted s.platform (encode (mk o)) = true →
    ∃ t, exec (mk o) s = .next t ∧ Completed s t ∧
      (∀ i < o.aRows.toNat,
        BitVec.ofNat w (memRead t.mem (o.out.toNat + i * e) e) =
          ringSum o.aCols.toNat fun c =>
            BitVec.ofNat w (memRead s.mem (o.a.toNat + (i * o.aCols.toNat + c) * e) e) *
              BitVec.ofNat w (memRead s.mem (o.b.toNat + c * e) e)) ∧
      ∀ x, x < o.out.toNat ∨ o.out.toNat + o.aRows.toNat * e ≤ x → Memory.read t.mem x = Memory.read s.mem x

/-- The effect of UnpackAndMultiply (44_unpack_and_multiply.md R142): `out[i]` gains the ring sum, over the `cx` fields
of `bits` bits of each of the row's packed words, of field times `b` element. -/
def unpackResult (mk : VecOperands → Instr) (w e bits cx : Nat) : Prop :=
  ∀ (o : VecOperands) (s : State), Memory.wf s.mem = true →
    footprintOrdinary s.platform (encode (mk o)) = true → footprintAdmitted s.platform (encode (mk o)) = true →
    ∃ t, exec (mk o) s = .next t ∧ Completed s t ∧
      (∀ i < o.aRows.toNat,
        BitVec.ofNat w (memRead t.mem (o.out.toNat + i * e) e) =
          BitVec.ofNat w (memRead s.mem (o.out.toNat + i * e) e) +
            ringSum o.aCols.toNat fun j => ringSum cx fun c =>
              BitVec.ofNat w (memRead s.mem (o.a.toNat + (i * o.aCols.toNat + j) * e) e / 2 ^ (c * bits) % 2 ^ bits) *
                BitVec.ofNat w (memRead s.mem (o.b.toNat + (j * cx + c) * e) e)) ∧
      ∀ x, x < o.out.toNat ∨ o.out.toNat + o.aRows.toNat * e ≤ x → Memory.read t.mem x = Memory.read s.mem x

/-- The command can be performed on `s`: its START check passes and its footprint exists and is ordinary memory. -/
def performable (i : Instr) (s : State) : Prop :=
  i.wellFormed = true ∧ Memory.wf s.mem = true ∧ footprintOrdinary s.platform (encode i) = true ∧
    footprintAdmitted s.platform (encode i) = true

/-- DenseMultiply performed `n` times gives `O + n·(A·B)` (41_dense_multiply.md R113). -/
def accumulates (mk : MatOperands → Instr) (w e : Nat) : Prop :=
  ∀ (o : MatOperands) (s : State) (n : Nat), performable (mk o) s →
    ∃ t, performed (mk o) n s = .next t ∧
      ∀ i < o.aRows.toNat, ∀ j < o.bCols.toNat,
        BitVec.ofNat w (memRead t.mem (o.out.toNat + (i * o.bCols.toNat + j) * e) e) =
          BitVec.ofNat w (memRead s.mem (o.out.toNat + (i * o.bCols.toNat + j) * e) e) +
            BitVec.ofNat w n * ringSum o.aCols.toNat fun c =>
              BitVec.ofNat w (memRead s.mem (o.a.toNat + (i * o.aCols.toNat + c) * e) e) *
                BitVec.ofNat w (memRead s.mem (o.b.toNat + (c * o.bCols.toNat + j) * e) e)

/-- Two DenseMultiplies into one `out` add both products (41_dense_multiply.md R114). -/
def chains (mk : MatOperands → Instr) (w e : Nat) : Prop :=
  ∀ (o : MatOperands) (a2 b2 cols2 aLen2 bLen2 : Word) (s : State),
    let p : MatOperands := { o with a := a2, b := b2, aCols := cols2, aLen := aLen2, bLen := bLen2 }
    performable (mk o) s → performable (mk p) s →
    ∃ t u, exec (mk o) s = .next t ∧ exec (mk p) t = .next u ∧
      ∀ i < o.aRows.toNat, ∀ j < o.bCols.toNat,
        BitVec.ofNat w (memRead u.mem (o.out.toNat + (i * o.bCols.toNat + j) * e) e) =
          BitVec.ofNat w (memRead s.mem (o.out.toNat + (i * o.bCols.toNat + j) * e) e) +
            (ringSum o.aCols.toNat fun c =>
              BitVec.ofNat w (memRead s.mem (o.a.toNat + (i * o.aCols.toNat + c) * e) e) *
                BitVec.ofNat w (memRead s.mem (o.b.toNat + (c * o.bCols.toNat + j) * e) e)) +
            ringSum cols2.toNat fun c =>
              BitVec.ofNat w (memRead s.mem (a2.toNat + (i * cols2.toNat + c) * e) e) *
                BitVec.ofNat w (memRead s.mem (b2.toNat + (c * o.bCols.toNat + j) * e) e)

/-- VectorMultiply overwrites (42_vector_multiply.md R123): a second run changes nothing, and the initial contents of
`out` do not matter. -/
def overwrites (mk : VecOperands → Instr) : Prop :=
  ∀ (o : VecOperands) (s s' : State), performable (mk o) s → performable (mk o) s' →
    (∀ x, inRegion (outRange (encode (mk o))) x = false → Memory.read s'.mem x = Memory.read s.mem x) →
    ∃ t u t', exec (mk o) s = .next t ∧ exec (mk o) t = .next u ∧ exec (mk o) s' = .next t' ∧
      u.mem = t.mem ∧ t'.mem = t.mem

/-- ExpandAndMultiply is DenseMultiply of the decoded seed (43_expand_and_multiply.md R133): with the decoded matrix at
an aligned address of a second memory, and over an aligned seed the same command. -/
def expandsAsDense (emul dmul : MatOperands → Instr) (w e : Nat) : Prop :=
  (∀ (o : MatOperands) (a' : Word) (s s' : State), performable (emul o) s → performable (dmul { o with a := a' }) s' →
    (∀ x, inRegion (outRange (encode (emul o))) x = true ∨ inRegion (bRange (encode (emul o))) x = true →
      Memory.read s'.mem x = Memory.read s.mem x) →
    (∀ i < o.aRows.toNat, ∀ c < o.aCols.toNat,
      BitVec.ofNat w (memRead s'.mem (a'.toNat + (i * o.aCols.toNat + c) * e) e) =
        BitVec.ofNat w (memRead s.mem (o.a.toNat + (i * o.aCols.toNat + c) * e) e)) →
    ∃ t t', exec (emul o) s = .next t ∧ exec (dmul { o with a := a' }) s' = .next t' ∧
      ∀ x, inRegion (outRange (encode (emul o))) x = true → Memory.read t'.mem x = Memory.read t.mem x) ∧
  (∀ (o : MatOperands) (s : State), (emul o).wellFormed = true → o.a.toNat % e = 0 →
    (dmul o).wellFormed = true ∧ exec (dmul o) s = exec (emul o) s)

/-- UnpackAndMultiply adds what VectorMultiply of the unpacked matrix would write (44_unpack_and_multiply.md R145): with
the unpacked matrix, `cx` columns for each packed word, in a second memory. -/
def unpacksAsVector (umul vmul : VecOperands → Instr) (w e bits cx : Nat) : Prop :=
  ∀ (o : VecOperands) (a' cols' aLen' : Word) (s s' : State),
    let p : VecOperands := { o with a := a', aCols := cols', aLen := aLen' }
    cols'.toNat = cx * o.aCols.toNat → performable (umul o) s → performable (vmul p) s' →
    (∀ x, inRegion (bRange (encode (umul o))) x = true → Memory.read s'.mem x = Memory.read s.mem x) →
    (∀ i < o.aRows.toNat, ∀ j < o.aCols.toNat, ∀ c < cx,
      BitVec.ofNat w (memRead s'.mem (a'.toNat + (i * cols'.toNat + (j * cx + c)) * e) e) =
        BitVec.ofNat w (memRead s.mem (o.a.toNat + (i * o.aCols.toNat + j) * e) e / 2 ^ (c * bits) % 2 ^ bits)) →
    ∃ t t', exec (umul o) s = .next t ∧ exec (vmul p) s' = .next t' ∧
      ∀ i < o.aRows.toNat,
        BitVec.ofNat w (memRead t.mem (o.out.toNat + i * e) e) =
          BitVec.ofNat w (memRead s.mem (o.out.toNat + i * e) e) +
            BitVec.ofNat w (memRead t'.mem (o.out.toNat + i * e) e)

/-- Bits of packed words at or above `used` never matter (40_datapath.md R94; 44_unpack_and_multiply.md R147). -/
def ignoresHighBits (umul : VecOperands → Instr) (e used : Nat) : Prop :=
  ∀ (o : VecOperands) (s s' : State), performable (umul o) s → performable (umul o) s' →
    (∀ x, inRegion (aRange (encode (umul o))) x = false ∨ inRegion (bRange (encode (umul o))) x = true →
      Memory.read s'.mem x = Memory.read s.mem x) →
    (∀ p < o.aRows.toNat * o.aCols.toNat,
      memRead s'.mem (o.a.toNat + p * e) e % 2 ^ used = memRead s.mem (o.a.toNat + p * e) e % 2 ^ used) →
    ∃ t t', exec (umul o) s = .next t ∧ exec (umul o) s' = .next t' ∧
      ∀ x, inRegion (outRange (encode (umul o))) x = true → Memory.read t'.mem x = Memory.read t.mem x

end Sys2Proof.Claims

open Sys2Proof Sys2Proof.Machine Sys2Proof.Claims

/-! ### Encoding -/

/-- Every command's descriptor, ten words and bits decode to it again, with every operand at every value
(30_encoding.md R70, R74, R76). The numbering of the bits is log 17. -/
def Obligations.DecodeInvertsEncode : Prop :=
  ∀ i : Instr, decode (encode i) = .ok i ∧ decodeWords (encodeWords i) = .ok i ∧
    decodeTableWord 640 (bitsOfWords (encodeWords i)) = some i

/-- 30_encoding.md R75: CMD values with a bit of 63:3 set are illegal; every other decodes to the operation of bits
1:0 and the kernel of bit 2. -/
def Obligations.DecodeIsTotalOnCmd : Prop :=
  ∀ d : Descriptor,
    (8 ≤ d.cmd.toNat → decode d = .error .reservedBits) ∧
    (d.cmd.toNat < 8 → ∃ i, decode d = .ok i ∧
      i.op = (match d.cmd.toNat % 4 with | 0 => Op.dense | 1 => Op.vector | 2 => Op.expand | _ => Op.unpack) ∧
      i.kernel = if d.cmd.toNat / 4 = 0 then Kernel.k32 else Kernel.k64)

/-- 30_encoding.md R76: what a decoded command takes from the descriptor is all of it, but that VMUL and UMUL do not
read B_COLS. -/
def Obligations.DecodeTakesEveryOperand : Prop :=
  ∀ (d : Descriptor) (i : Instr), decode d = .ok i →
    encode i = if i.op = .vector ∨ i.op = .unpack then { d with bCols := 0 } else d

/-- A few words of 30_encoding.md R74 decode to their commands, and 8 to none. -/
def Obligations.CommandMapWordsDecode : Prop :=
  (decodeTableWord 64 0x0).map Instr.op = some .dense ∧ (decodeTableWord 64 0x1).map Instr.op = some .vector ∧
    (decodeTableWord 64 0x2).map Instr.op = some .expand ∧ (decodeTableWord 64 0x3).map Instr.op = some .unpack ∧
    (decodeTableWord 64 0x3).map Instr.kernel = some .k32 ∧ (decodeTableWord 64 0x7).map Instr.op = some .unpack ∧
    (decodeTableWord 64 0x7).map Instr.kernel = some .k64 ∧ decodeTableWord 64 0x8 = none

/-- An engine's turn performs its latched command (45_host_interface.md R166, R171): step takes the turn off, names the
engine and runs exec. The turn and the engine's number are the model's fields (log 1, log 4). -/
def Obligations.StepPerformsLatchedCommand : Prop :=
  (∀ (s : State) (n : Nat) (rest : List Turn) (d : Descriptor) (i : Instr), s.turns = .engine n :: rest →
    s.runningAt n = some d → decode d = .ok i → step s = exec i { s with turns := rest, engine := n }) ∧
  (∀ (s : State) (b : Block) (nbits w : Nat) (i : Instr), s.blocks[0]? = some b → decodeTableWord nbits w = some i →
    step (s.withFetchWord nbits w) = exec i { s.withFetchWord nbits w with turns := s.turns, engine := 0 })

/-! ### The START check -/

/-- 60_exceptions.md R182 in plain numbers: an error reported is the lowest failing one, and a passing check fails none. -/
def Obligations.CheckReportsLowestFailingCode : Prop :=
  ∀ d : Descriptor,
    (∀ e, check d = some e → failsCheck d (errorNumber e).toNat ∧ ∀ c < (errorNumber e).toNat, ¬ failsCheck d c) ∧
    (check d = none → ∀ c, ¬ failsCheck d c)

/-- The START check accepts exactly the commands whose own rules hold (R111, R112, R121, R122, R131, R132, R143, R144
for lengths and alignment; R146; R61; R184). -/
def Obligations.CheckAcceptsExactlyWellFormed : Prop :=
  ∀ i : Instr, check (encode i) = none ↔ i.wellFormed = true

/-- 60_exceptions.md R187: which commands can report which codes. E_ALIGN comes from a misaligned out or B base, or, in
every command but EMUL, A base, and from nothing else: a misaligned seed alone never raises it. -/
def Obligations.CodesEachCommandCanReport : Prop :=
  (∀ d, check d = some .rows8 → ∃ k, decodeCmd d.cmd = some (.unpack, k)) ∧
  (∀ d, check d = some .opcode ↔ decodeCmd d.cmd = none) ∧
  (∀ op k e, e ≠ ErrorCode.opcode → (e = .rows8 → op = .unpack) →
    ∃ d, decodeCmd d.cmd = some (op, k) ∧ check d = some e) ∧
  (∀ op k, ∃ d, decodeCmd d.cmd = some (op, k) ∧ check d = some .align ∧ d.outBase.toNat % elemBytes k ≠ 0 ∧
    d.aBase.toNat % elemBytes k = 0 ∧ d.bBase.toNat % elemBytes k = 0) ∧
  (∀ op k, ∃ d, decodeCmd d.cmd = some (op, k) ∧ check d = some .align ∧ d.outBase.toNat % elemBytes k = 0 ∧
    d.aBase.toNat % elemBytes k = 0 ∧ d.bBase.toNat % elemBytes k ≠ 0) ∧
  (∀ op k, op ≠ Op.expand → ∃ d, decodeCmd d.cmd = some (op, k) ∧ check d = some .align ∧
    d.outBase.toNat % elemBytes k = 0 ∧ d.aBase.toNat % elemBytes k ≠ 0 ∧ d.bBase.toNat % elemBytes k = 0) ∧
  (∀ d op k, decodeCmd d.cmd = some (op, k) → check d = some .align →
    d.outBase.toNat % elemBytes k ≠ 0 ∨ d.bBase.toNat % elemBytes k ≠ 0 ∨
      (op ≠ .expand ∧ d.aBase.toNat % elemBytes k ≠ 0)) ∧
  (∀ k, ∃ d, decodeCmd d.cmd = some (.expand, k) ∧ check d = none ∧ d.aBase.toNat % elemBytes k ≠ 0)

/-- 30_encoding.md R83: with the length operands left out, the check never reports a length error. That a required
length of `2^64` or more is written modulo `2^64` is log 18; the check then reports E_DIM. -/
def Obligations.RequiredLengthsNeverMismatch : Prop :=
  ∀ i : Instr, check (encode (withRequiredLengths i)) ≠ some .lenOut ∧
    check (encode (withRequiredLengths i)) ≠ some .lenA ∧ check (encode (withRequiredLengths i)) ≠ some .lenB

/-! ### Register transactions and START -/

/-- 45_host_interface.md R164 with 60_exceptions.md R183: an accepted START that fails a check records the code, sets
ERR and DONE, leaves BUSY 0, latches nothing and changes nothing else. STATUS then reads `0x6 | code<<8`. -/
def Obligations.FailingStartReportsError : Prop :=
  ∀ (s : State) (n : Nat) (b : Block) (v : Word) (e : ErrorCode) (prog : List HostOp) (rest : List Turn),
    s.turns = .host :: rest → s.program = WR n .ctrl v :: prog → s.blocks[n]? = some b → b.busy = false →
    v.getLsbD 0 = true → check b.regs = some e →
    ∃ t c, step s = .next t ∧ OnlyBlock n s t ∧ t.blocks[n]? = some c ∧
      c.errCode = errorNumber e ∧ c.err = true ∧ c.done = true ∧ c.busy = false ∧ c.latched = b.latched ∧
      c.regs = b.regs ∧ c.acc = b.acc ∧ (statusWord c).toNat = 6 + 256 * (errorNumber e).toNat

/-- 45_host_interface.md R164: an accepted START that passes every check clears DONE, ERR and ERRCODE, latches the ten
registers and sets BUSY; over ordinary memory and beside no conflicting command (70_reset_and_hazards.md R220, R221). -/
def Obligations.PassingStartLatches : Prop :=
  ∀ (s : State) (n : Nat) (b : Block) (v : Word) (prog : List HostOp) (rest : List Turn),
    s.turns = .host :: rest → s.program = WR n .ctrl v :: prog → s.blocks[n]? = some b → b.busy = false →
    v.getLsbD 0 = true → check b.regs = none → footprintOrdinary s.platform b.regs = true →
    (∀ m d, m ≠ n → s.runningAt m = some d → conflict b.regs d = false) →
    ∃ t c, step s = .next t ∧ OnlyBlock n s t ∧ t.blocks[n]? = some c ∧
      c.latched = some b.regs ∧ c.busy = true ∧ c.done = false ∧ c.err = false ∧ c.errCode = 0 ∧
      c.regs = b.regs ∧ c.acc = b.acc ∧ (statusWord c).toNat = 1

/-- 45_host_interface.md R163: a START while BUSY has no effect. -/
def Obligations.StartWhileBusyIsDropped : Prop :=
  ∀ (s : State) (n : Nat) (b : Block) (v : Word) (prog : List HostOp) (rest : List Turn),
    s.turns = .host :: rest → s.program = WR n .ctrl v :: prog → s.blocks[n]? = some b → b.busy = true →
    step s = .next { s with turns := rest, program := prog }

/-- 10_state.md R26: a write to a descriptor register is stored, BUSY or not, and the running command keeps its latched
copy; every other register, and all else, is as before (45_host_interface.md R162). -/
def Obligations.DescriptorWriteIsStored : Prop :=
  ∀ (s : State) (n : Nat) (b : Block) (r : Reg) (v : Word) (prog : List HostOp) (rest : List Turn),
    s.turns = .host :: rest → s.program = WR n r v :: prog → s.blocks[n]? = some b → r ≠ .ctrl → r ≠ .status →
    ∃ t c, step s = .next t ∧ OnlyBlock n s t ∧ t.blocks[n]? = some c ∧ c.readReg r = v ∧
      (∀ q, q ≠ r → c.readReg q = b.readReg q) ∧ c.latched = b.latched ∧ c.busy = b.busy ∧ c.acc = b.acc ∧
      t.runningAt n = s.runningAt n

/-- 10_state.md R27 and R28: a CTRL write with bit 0 clear has no effect, nor has a write to STATUS
(45_host_interface.md R162). -/
def Obligations.CtrlAndStatusStoreNothing : Prop :=
  ∀ (s : State) (n : Nat) (b : Block) (r : Reg) (v : Word) (prog : List HostOp) (rest : List Turn),
    s.turns = .host :: rest → s.program = WR n r v :: prog → s.blocks[n]? = some b →
    ((r = .ctrl ∧ v.getLsbD 0 = false) ∨ r = .status) →
    step s = .next { s with turns := rest, program := prog }

/-- What a register read returns, and that it has no side effect (45_host_interface.md R167). That the value is kept
as a reply is the model's choice (log 15). -/
def Obligations.RegisterReadReturnsValue : Prop :=
  ∀ (s : State) (n : Nat) (b : Block) (r : Reg) (prog : List HostOp) (rest : List Turn),
    s.turns = .host :: rest → s.program = RD n r :: prog → s.blocks[n]? = some b →
    ∃ v : Word, step s = .next { s with turns := rest, program := prog, replies := .register v :: s.replies } ∧
      (r = .ctrl → v = 0) ∧
      (r = .status → v.toNat = b.busy.toNat + 2 * b.done.toNat + 4 * b.err.toNat + 256 * b.errCode.toNat) ∧
      (r ≠ .ctrl → r ≠ .status → v = (b.regs.words[regOffset r / 8]?).getD 0)

/-- 10_state.md R29: an access to an offset of `0x60` or more, not a multiple of 8, or not 64 bits wide is refused. -/
def Obligations.UnmappedRegisterAccessIsRefused : Prop :=
  ∀ (s : State) (n off bits : Nat) (v : Word) (op : HostOp) (prog : List HostOp) (rest : List Turn),
    s.turns = .host :: rest → s.program = op :: prog → (op = .regWrite n off bits v ∨ op = .regRead n off bits) →
    (0x60 ≤ off ∨ off % 8 ≠ 0 ∨ bits ≠ 64) → step s = .refused .noSuchRegister

/-- The twelve registers are at the offsets of 10_state.md R20, and an offset names nothing else. -/
def Obligations.RegisterMapIsExact : Prop :=
  (regAt 0x00 = some .cmd ∧ regAt 0x08 = some .outBase ∧ regAt 0x10 = some .aBase ∧ regAt 0x18 = some .bBase ∧
    regAt 0x20 = some .aRows ∧ regAt 0x28 = some .aCols ∧ regAt 0x30 = some .bCols ∧ regAt 0x38 = some .outLen ∧
    regAt 0x40 = some .aLen ∧ regAt 0x48 = some .bLen ∧ regAt 0x50 = some .ctrl ∧ regAt 0x58 = some .status) ∧
  ∀ off : Nat, (regAt off = none ↔ (0x60 ≤ off ∨ off % 8 ≠ 0)) ∧ ∀ r, regAt off = some r ↔ regOffset r = off

/-- 10_state.md R28: the fields of the STATUS word, for every block that keeps the rule's invariants. -/
def Obligations.StatusWordFields : Prop :=
  ∀ (p : Platform) (b : Block), Block.Good p b →
    (statusWord b).extractLsb' 3 5 = 0 ∧ (statusWord b).extractLsb' 16 48 = 0 ∧
      ((statusWord b).getLsbD 0 = b.busy ∧ (statusWord b).getLsbD 1 = b.done ∧ (statusWord b).getLsbD 2 = b.err ∧
        (statusWord b).extractLsb' 8 8 = b.errCode) ∧
      ((statusWord b).getLsbD 2 = true ↔ (statusWord b).extractLsb' 8 8 ≠ 0) ∧
      ((statusWord b).getLsbD 0 = true → statusWord b = 1) ∧
      ((statusWord b).getLsbD 2 = true → (statusWord b).getLsbD 1 = true)

/-- 30_encoding.md R84: POLL reads STATUS and is done when BUSY is 0, else it is the host's next transaction again. One
reading is one step (log 15). -/
def Obligations.PollRepeatsWhileBusy : Prop :=
  ∀ (s : State) (n : Nat) (b : Block) (prog : List HostOp) (rest : List Turn),
    s.turns = .host :: rest → s.program = .poll n :: prog → s.blocks[n]? = some b →
    step s = .next { s with
      turns := rest
      program := if b.busy then .poll n :: prog else prog
      replies := .register (statusWord b) :: s.replies }

/-- 30_encoding.md R83: the ten writes of a pseudo-instruction, from any state of a block, leave its descriptor registers
holding the command, whatever they held; START and POLL are left. -/
def Obligations.PseudoInstructionLoadsDescriptor : Prop :=
  ∀ (s : State) (n : Nat) (b : Block) (i : Instr) (prog : List HostOp) (rest : List Turn),
    s.turns = List.replicate 10 .host ++ rest → s.program = expand n i ++ prog → s.blocks[n]? = some b →
    Sys2Proof.core.run 10 s = .next { s.updateBlock n (fun b => { b with regs := encode i }) with
      turns := rest
      program := WR n .ctrl 1 :: .poll n :: prog }

/-! ### Memory -/

/-- 00_scope.md R11 and 20_memory.md R54: a little-endian read of `n + k` bytes is the read of the first `n` plus `2^(8n)`
times the read of the rest; so 64 bits are two 32-bit elements. -/
def Obligations.MixedWidthReadsCompose : Prop :=
  ∀ (m : Memory) (a : Nat), memRead m a 8 = memRead m a 4 + memRead m (a + 4) 4 * 2 ^ 32 ∧
    ∀ n k, memRead m a (n + k) = memRead m a n + 2 ^ (8 * n) * memRead m (a + n) k

/-- 45_host_interface.md R168: a host write outside every running footprint stores the low bytes of the value,
little-endian (byte `k` of the value at address `a + k`), and nothing else; a host read of them then returns them. That
the answer is kept as a reply is log 15. -/
def Obligations.HostWriteThenRead : Prop :=
  ∀ (s : State) (a : Word) (n v : Nat) (prog : List HostOp) (rest : List Turn),
    s.turns = .host :: .host :: rest → s.program = MW n a v :: MR n a :: prog → Memory.wf s.mem = true →
    regionAdmitted s.platform { base := a.toNat, size := n } = true →
    regionOrdinary s.platform { base := a.toNat, size := n } = true →
    (∀ m d x, s.runningAt m = some d → a.toNat ≤ x → x < a.toNat + n → inFootprint d x = false) →
    ∃ t u, step s = .next t ∧ t = { s with mem := t.mem, turns := .host :: rest, program := MR n a :: prog } ∧
      (∀ k < n, Memory.read t.mem (a.toNat + k) = BitVec.ofNat 8 (v / 2 ^ (8 * k))) ∧
      (∀ x, x < a.toNat ∨ a.toNat + n ≤ x → Memory.read t.mem x = Memory.read s.mem x) ∧
      step t = .next u ∧ u = { t with turns := rest, program := prog, replies := .memory (v % 2 ^ (8 * n)) :: s.replies }

/-- 70_reset_and_hazards.md R218: while a command runs, a host write of a byte of its footprint and a host read of a byte
of its out range are refused, whatever memory the access touches, and over existing ordinary memory a read that meets no
running out range (of A or B, say) is answered. That the answer is kept as a reply is log 15. -/
def Obligations.FootprintHazardIsRefused : Prop :=
  ∀ (s : State) (a : Word) (prog : List HostOp) (rest : List Turn), s.turns = .host :: rest →
    (∀ (bytes : List Byte) (n : Nat) (d : Descriptor) (x : Nat), s.program = .memWrite a bytes :: prog →
      s.runningAt n = some d → a.toNat ≤ x → x < a.toNat + bytes.length → inFootprint d x = true →
      step s = .refused .footprintHazard) ∧
    (∀ (count n : Nat) (d : Descriptor) (x : Nat), s.program = .memRead a count :: prog →
      s.runningAt n = some d → a.toNat ≤ x → x < a.toNat + count → inRegion (outRange d) x = true →
      step s = .refused .footprintHazard) ∧
    (∀ (count : Nat), s.program = .memRead a count :: prog →
      regionAdmitted s.platform { base := a.toNat, size := count } = true →
      regionOrdinary s.platform { base := a.toNat, size := count } = true →
      (∀ n d x, s.runningAt n = some d → a.toNat ≤ x → x < a.toNat + count → inRegion (outRange d) x = false) →
      step s = .next { s with
        turns := rest
        program := prog
        replies := .memory (memRead s.mem a.toNat count) :: s.replies })

/-- 70_reset_and_hazards.md R220: a START that passes its checks is refused when a byte of its out range lies in a
footprint that another block is running, or the other way round. -/
def Obligations.CrossBlockHazardIsRefused : Prop :=
  ∀ (s : State) (n m : Nat) (b : Block) (d : Descriptor) (v : Word) (prog : List HostOp) (rest : List Turn) (x : Nat),
    s.turns = .host :: rest → s.program = WR n .ctrl v :: prog → s.blocks[n]? = some b → b.busy = false →
    v.getLsbD 0 = true → check b.regs = none → footprintOrdinary s.platform b.regs = true → m ≠ n →
    s.runningAt m = some d →
    ((inRegion (outRange b.regs) x = true ∧ inFootprint d x = true) ∨
      (inRegion (outRange d) x = true ∧ inFootprint b.regs x = true)) →
    step s = .refused .crossBlockHazard

/-- 70_reset_and_hazards.md R221: a command whose footprint holds a byte of a device or of a register window is refused.
That this is at its START, and again at Perform, is log 12; the window's 96 bytes are log 7. -/
def Obligations.FootprintOverDeviceIsRefused : Prop :=
  (∀ (s : State) (n : Nat) (b : Block) (v : Word) (prog : List HostOp) (rest : List Turn) (q : Region) (x : Nat),
    s.turns = .host :: rest → s.program = WR n .ctrl v :: prog → s.blocks[n]? = some b → b.busy = false →
    v.getLsbD 0 = true → check b.regs = none → inFootprint b.regs x = true → inRegion q x = true →
    (q ∈ s.platform.device ∨ ∃ base ∈ s.platform.regBase, q = { base := base.toNat, size := 0x60 }) →
    step s = .refused .footprintNotMemory) ∧
  (∀ (i : Instr) (s : State) (q : Region) (x : Nat), inFootprint (encode i) x = true → inRegion q x = true →
    (q ∈ s.platform.device ∨ ∃ base ∈ s.platform.regBase, q = { base := base.toNat, size := 0x60 }) →
    exec i s = .refused .footprintNotMemory)

/-- 20_memory.md R59: with a footprint byte that does not exist the perform step is not enabled. From a good state every
step but a reset of the block leaves the command running, so it "stays BUSY for ever" (until a reset,
70_reset_and_hazards.md R211); and the engine's own turn changes nothing: that it passes is log 10. -/
def Obligations.MissingMemoryLeavesCommandStuck : Prop :=
  (∀ (s t : State) (n : Nat) (d : Descriptor) (x : Nat), State.Good s → s.runningAt n = some d →
    inFootprint d x = true → memAdmits s.platform x = false → s.turns.head? ≠ some (.reset n) → step s = .next t →
    t.runningAt n = some d) ∧
  (∀ (s : State) (n : Nat) (d : Descriptor) (i : Instr) (rest : List Turn) (x : Nat),
    s.turns = .engine n :: rest → s.runningAt n = some d → decode d = .ok i →
    footprintOrdinary s.platform d = true → inFootprint d x = true → memAdmits s.platform x = false →
    step s = .next { s with turns := rest, engine := n })

/-- The model's choice (log 13): a host access that breaks no hazard but holds a byte that does not exist is refused, for
"the model has no bus-error outcome" (60_exceptions.md R189). -/
def Obligations.HostAccessToMissingMemoryIsRefused : Prop :=
  ∀ (s : State) (a : Word) (x : Nat) (prog : List HostOp) (rest : List Turn), s.turns = .host :: rest →
    a.toNat ≤ x → memAdmits s.platform x = false →
    (∀ bytes : List Byte, s.program = .memWrite a bytes :: prog → x < a.toNat + bytes.length →
      (∀ m d y, s.runningAt m = some d → a.toNat ≤ y → y < a.toNat + bytes.length → inFootprint d y = false) →
      step s = .refused .noSuchMemory) ∧
    (∀ count : Nat, s.program = .memRead a count :: prog → x < a.toNat + count →
      (∀ m d y, s.runningAt m = some d → a.toNat ≤ y → y < a.toNat + count → inRegion (outRange d) y = false) →
      step s = .refused .noSuchMemory)

/-! ### Datapath -/

/-- 40_datapath.md R92: every order of the terms gives the same ring sum. -/
def Obligations.RingSumIgnoresOrder : Prop :=
  ∀ (w n : Nat) (f : Nat → BitVec w) (l : List Nat), l.Perm (List.range n) →
    (l.map f).foldl (· + ·) 0 = ringSum n f

/-- 40_datapath.md R94: the fields that the extractor returns, as numbers. -/
def Obligations.SlotIsBitField : Prop :=
  (∀ (w : Elem .k32) (s : Nat), s < 3 → (slot .k32 w s).toNat = w.toNat / 2 ^ (10 * s) % 2 ^ 10) ∧
  (∀ (w : Elem .k64) (s : Nat), s < 2 → (slot .k64 w s).toNat = w.toNat / 2 ^ (20 * s) % 2 ^ 20)

/-- 40_datapath.md R95: the extractor's corner cases and the source's worked example. -/
def Obligations.SlotCornerCases : Prop :=
  (∀ (k : Kernel) (w : Elem k) (s : Nat), s < slotsPerWord k → (slot k w s).toNat < 2 ^ basis k) ∧
  (∀ (w w' : Elem .k32) (s : Nat), s < 3 → w.toNat % 2 ^ 30 = w'.toNat % 2 ^ 30 → slot .k32 w s = slot .k32 w' s) ∧
  (∀ (w w' : Elem .k64) (s : Nat), s < 2 → w.toNat % 2 ^ 40 = w'.toNat % 2 ^ 40 → slot .k64 w s = slot .k64 w' s) ∧
  (∀ (k : Kernel) (s : Nat), s < slotsPerWord k → slot k 0 s = 0) ∧
  (∀ s : Nat, s < 3 → slot .k32 0xFFFFFFFF s = 0x3FF) ∧
  (∀ s : Nat, s < 2 → slot .k64 0xFFFFFFFFFFFFFFFF s = 0xFFFFF) ∧
  (slot .k32 0x00201C05 0 = 5 ∧ slot .k32 0x00201C05 1 = 7 ∧ slot .k32 0x00201C05 2 = 2)

/-- 40_datapath.md R99: the reference schedules of R98, which read memory as they go, give the closed forms wherever the
START check passes. -/
def Obligations.SchedulesGiveClosedForms : Prop :=
  ∀ (d : Descriptor) (op : Op) (k : Kernel) (m : Memory), Memory.wf m = true → check d = none →
    decodeCmd d.cmd = some (op, k) →
    (op = .dense → denseSchedule k d m = denseMultiply k d m) ∧
    (op = .vector → vectorSchedule k d m = vectorMultiply k d m) ∧
    (op = .expand → expandSchedule k d m = expandMultiply k d m) ∧
    (op = .unpack → unpackSchedule k d m = unpackMultiply k d m)

/-! ### The eight commands -/

/-- DMUL32 and DMUL64 complete with 41_dense_multiply.md R110's result, status and frame. -/
def Obligations.DenseMultiplyResult : Prop := matrixResult .dmul32 32 4 ∧ matrixResult .dmul64 64 8

/-- VMUL32 and VMUL64 complete with 42_vector_multiply.md R120's result, status and frame. -/
def Obligations.VectorMultiplyResult : Prop := vectorResult .vmul32 32 4 ∧ vectorResult .vmul64 64 8

/-- EMUL32 and EMUL64 complete with 43_expand_and_multiply.md R130's result, status and frame. -/
def Obligations.ExpandMultiplyResult : Prop := matrixResult .emul32 32 4 ∧ matrixResult .emul64 64 8

/-- UMUL32 and UMUL64 complete with 44_unpack_and_multiply.md R142's result, status and frame: three fields of 10 bits,
two of 20 (R147). -/
def Obligations.UnpackMultiplyResult : Prop := unpackResult .umul32 32 4 10 3 ∧ unpackResult .umul64 64 8 20 2

/-- 41_dense_multiply.md R113: the accumulation law. -/
def Obligations.DenseAccumulationLaw : Prop := accumulates .dmul32 32 4 ∧ accumulates .dmul64 64 8

/-- 41_dense_multiply.md R114: chaining. -/
def Obligations.DenseChaining : Prop := chains .dmul32 32 4 ∧ chains .dmul64 64 8

/-- 42_vector_multiply.md R123: the overwrite law. -/
def Obligations.VectorOverwriteLaw : Prop := overwrites .vmul32 ∧ overwrites .vmul64

/-- 43_expand_and_multiply.md R133: ExpandAndMultiply is DenseMultiply of the decoded seed. -/
def Obligations.ExpandEqualsDenseOfDecodedSeed : Prop :=
  expandsAsDense .emul32 .dmul32 32 4 ∧ expandsAsDense .emul64 .dmul64 64 8

/-- 44_unpack_and_multiply.md R145: UnpackAndMultiply adds VectorMultiply of the unpacked matrix. -/
def Obligations.UnpackAddsVectorOfUnpacked : Prop :=
  unpacksAsVector .umul32 .vmul32 32 4 10 3 ∧ unpacksAsVector .umul64 .vmul64 64 8 20 2

/-- 40_datapath.md R94 and 44_unpack_and_multiply.md R147: bits 31:30 and 63:40 of packed words never reach `out`. -/
def Obligations.UnpackIgnoresUnusedBits : Prop := ignoresHighBits .umul32 4 30 ∧ ignoresHighBits .umul64 8 40

/-- 60_exceptions.md R186 with the corner cases of R110, R120, R130 and R142: with no rows, no columns of `out`, or no
terms to sum, memory is unchanged; but VectorMultiply with no terms writes zeros. -/
def Obligations.ZeroDimensions : Prop :=
  ∀ (i : Instr) (s : State), Memory.wf s.mem = true → footprintOrdinary s.platform (encode i) = true →
    footprintAdmitted s.platform (encode i) = true →
    ∃ t, exec i s = .next t ∧ Completed s t ∧
      (((encode i).aRows = 0 ∨ ((encode i).aCols = 0 ∧ i.op ≠ .vector) ∨
        ((encode i).bCols = 0 ∧ (i.op = .dense ∨ i.op = .expand))) → t.mem = s.mem) ∧
      ((encode i).aCols = 0 → i.op = .vector → i.wellFormed = true →
        ∀ x, Memory.read t.mem x = if inRegion (outRange (encode i)) x then 0 else Memory.read s.mem x)

/-- 20_memory.md R58 and 45_host_interface.md R171: a command that passed its START check changes no byte outside the out
range and, of the registers, nothing but its own block's STATUS and LD (10_state.md R21). -/
def Obligations.CommandsWriteOnlyTheirOutRange : Prop :=
  ∀ (i : Instr) (s t : State), Memory.wf s.mem = true → check (encode i) = none → exec i s = .next t →
    (∀ x, inRegion (outRange (encode i)) x = false → Memory.read t.mem x = Memory.read s.mem x) ∧
    (∀ m : Nat, m ≠ s.engine → t.blocks[m]? = s.blocks[m]?) ∧
    (∀ m : Nat, (t.blocks[m]?).map Block.regs = (s.blocks[m]?).map Block.regs) ∧
    t.platform = s.platform ∧ t.program = s.program ∧ t.replies = s.replies ∧ t.turns = s.turns

/-- 10_state.md R32: what a command leaves in its out range is a function of its operands and of the bytes of its
footprint, and VectorMultiply's of A and B alone. -/
def Obligations.ResultDependsOnFootprintOnly : Prop :=
  ∀ (i : Instr) (s s' : State), performable i s → performable i s' →
    ((∀ x, inFootprint (encode i) x = true → Memory.read s'.mem x = Memory.read s.mem x) ∨
      (i.op = .vector ∧ ∀ x, inRegion (aRange (encode i)) x = true ∨ inRegion (bRange (encode i)) x = true →
        Memory.read s'.mem x = Memory.read s.mem x)) →
    ∃ t t', exec i s = .next t ∧ exec i s' = .next t' ∧
      ∀ x, inRegion (outRange (encode i)) x = true → Memory.read t'.mem x = Memory.read t.mem x

/-! ### Reset -/

/-- 70_reset_and_hazards.md R210: a reset puts a block's registers and STATUS to 0 and its LD to invalid, affects no
other block, and changes no byte of memory but those of the out range of the command it aborts (R211). -/
def Obligations.ResetClearsBlock : Prop :=
  ∀ (s : State) (n : Nat) (b : Block) (rest : List Turn), s.turns = .reset n :: rest → s.blocks[n]? = some b →
    Memory.wf s.mem = true →
    ∃ t c, step s = .next t ∧ t.blocks[n]? = some c ∧ (∀ r, c.readReg r = 0) ∧ c.busy = false ∧ c.done = false ∧
      c.err = false ∧ c.errCode = 0 ∧ c.latched = none ∧ (∀ m, m ≠ n → t.blocks[m]? = s.blocks[m]?) ∧
      (s.runningAt n = none → t.mem = s.mem) ∧
      (∀ d, s.runningAt n = some d → ∀ x, inRegion (outRange d) x = false →
        Memory.read t.mem x = Memory.read s.mem x) ∧
      t.platform = s.platform ∧ t.program = s.program ∧ t.replies = s.replies ∧ t.turns = rest

/-- 70_reset_and_hazards.md R211: each existing byte of an aborted command's out range takes a free draw of its own. That
draws are counted, and that a byte that does not exist takes none, is log 9. -/
def Obligations.AbortedOutRangeIsFree : Prop :=
  ∀ (s : State) (n : Nat) (d : Descriptor) (rest : List Turn), s.turns = .reset n :: rest →
    s.runningAt n = some d → Memory.wf s.mem = true →
    ∃ t, step s = .next t ∧ s.draws + d.outLen.toNat ≤ t.draws ∧ ∀ k < d.outLen.toNat,
      Memory.read t.mem (d.outBase.toNat + k) =
        if memAdmits s.platform (d.outBase.toNat + k) then Config.freeByte (s.draws + k)
        else Memory.read s.mem (d.outBase.toNat + k)

/-- 70_reset_and_hazards.md R213: a START right after reset runs an empty DMUL32, on every platform with a block. -/
def Obligations.StartAfterResetRunsEmptyDmul : Prop :=
  ∀ p : Platform, p.regBase ≠ [] →
    ∃ t u, step { State.resetOn p with program := [WR 0 .ctrl 1], turns := [.host, .engine 0] } = .next t ∧
      (t.blocks[0]?).map statusWord = some 1 ∧
      (∃ o, (t.runningAt 0).map decode = some (.ok (.dmul32 o)) ∧ o.aRows = 0 ∧ o.aCols = 0 ∧ o.bCols = 0) ∧
      step t = .next u ∧ (u.blocks[0]?).map statusWord = some 2 ∧ u.mem = []

/-- A reset machine is good on every platform: registers and STATUS as 70_reset_and_hazards.md R210 says. Its memory,
with nothing listed, is log 5. -/
def Obligations.ResetIsGood : Prop :=
  State.Good State.reset ∧ ∀ p : Platform, State.Good (State.resetOn p) ∧
    ∀ b ∈ (State.resetOn p).blocks, (∀ r, b.readReg r = 0) ∧ b.latched = none

/-! ### The whole machine -/

/-- Every step keeps a good state good: the invariants of 10_state.md R28 and R31, what is latched has passed every check,
running commands do not conflict (70_reset_and_hazards.md R220), and memory keeps its form and lists only bytes that
exist (10_state.md R35). -/
def Obligations.StepKeepsGood : Prop :=
  ∀ s t : State, State.Good s → step s = .next t → State.Good t

/-- 10_state.md R31 and R32 with 70_reset_and_hazards.md R218: from a good state, a command that a step leaves running
keeps its latched descriptor, and no byte of its footprint changes; so memory at Perform is `M0` on the footprint. -/
def Obligations.RunningFootprintIsStable : Prop :=
  ∀ (s t : State) (n : Nat) (d : Descriptor), State.Good s → step s = .next t → s.runningAt n = some d →
    t.runningAt n = none ∨
      (t.runningAt n = some d ∧ ∀ x, inFootprint d x = true → Memory.read t.mem x = Memory.read s.mem x)

/-- 10_state.md R21: no command writes a descriptor register: a step that is no host's turn and no reset leaves every
block's registers as they are. -/
def Obligations.EnginesWriteNoRegister : Prop :=
  ∀ (s t : State) (n : Nat) (rest : List Turn), s.turns = .engine n :: rest → step s = .next t →
    ∀ m : Nat, (t.blocks[m]?).map Block.regs = (s.blocks[m]?).map Block.regs

/-- No step changes the platform or the number of blocks (00_scope.md R8; 60_exceptions.md R196); that they are carried
in the state is log 6. -/
def Obligations.StepKeepsPlatform : Prop :=
  ∀ s t : State, step s = .next t → t.platform = s.platform ∧ t.blocks.length = s.blocks.length

/-- 10_state.md R33: the accumulators are never read: two states that differ in a block's lanes alone take the same step,
up to lanes. (The clause on faults is empty: no step faults, 45_host_interface.md R169.) -/
def Obligations.LanesAreNeverRead : Prop :=
  ∀ (s : State) (n : Nat) (acc : Vector Word 8),
    (∀ t, step s = .next t → ∃ t', step (s.updateBlock n fun b => { b with acc }) = .next t' ∧ SameButLanes t t') ∧
    (∀ r, step s = .fault r → step (s.updateBlock n fun b => { b with acc }) = .fault r) ∧
    (∀ r, step s = .refused r → step (s.updateBlock n fun b => { b with acc }) = .refused r)

/-- 20_memory.md R66 and 45_host_interface.md R172: two running commands may be performed in either order: from a good
state both orders complete and leave the same memory, registers and STATUS. -/
def Obligations.PerformOrderIsInvisible : Prop :=
  ∀ (s : State) (n m : Nat) (d e : Descriptor) (rest : List Turn), State.Good s → n ≠ m →
    s.runningAt n = some d → s.runningAt m = some e →
    footprintAdmitted s.platform d = true → footprintAdmitted s.platform e = true →
    ∃ t u, Sys2Proof.core.run 2 { s with turns := .engine n :: .engine m :: rest } = .next t ∧
      Sys2Proof.core.run 2 { s with turns := .engine m :: .engine n :: rest } = .next u ∧
      SameButLanes t u ∧ t.runningAt n = none ∧ t.runningAt m = none

/-- A pseudo-instruction, from its first write to the end of its POLL (30_encoding.md R83; 45_host_interface.md R164,
R166; 20_memory.md R64): on an idle block of a good state, the command is started, performed and seen complete, with
STATUS `0x2`, and memory is what performing the command leaves. The order of the moves is one of those the machine may
take (log 1), and that the POLL's reading is kept as a reply is log 15. -/
def Obligations.PseudoInstructionPerformsCommand : Prop :=
  ∀ (s : State) (n : Nat) (b : Block) (i : Instr) (prog : List HostOp) (rest : List Turn),
    State.Good s → s.blocks[n]? = some b → b.busy = false → i.wellFormed = true →
    footprintOrdinary s.platform (encode i) = true → footprintAdmitted s.platform (encode i) = true →
    (∀ m d, m ≠ n → s.runningAt m = some d → conflict (encode i) d = false) →
    s.turns = List.replicate 11 .host ++ .engine n :: .host :: rest → s.program = expand n i ++ prog →
    ∃ t u, Sys2Proof.core.run 13 s = .next t ∧ exec i { s with engine := n } = .next u ∧ t.mem = u.mem ∧
      t.program = prog ∧ t.turns = rest ∧ t.replies = .register 2 :: s.replies ∧
      (t.blocks[n]?).map statusWord = some 2 ∧ (t.blocks[n]?).map Block.regs = some (encode i) ∧
      ∀ m, m ≠ n → t.blocks[m]? = s.blocks[m]?

/-- The model's choice (log 2): where no turn is listed and some Perform is enabled, the step performs the first enabled
one, so an enabled Perform fires (45_host_interface.md R166 asks weak fairness). -/
def Obligations.DefaultTurnPerformsEnabled : Prop :=
  ∀ (s : State) (n : Nat), s.turns = [] → performEnabled s n = true →
    ∃ m d, m ≤ n ∧ s.runningAt m = some d ∧ footprintAdmitted s.platform d = true ∧
      ∀ i, decode d = .ok i → step s = exec i { s with engine := m }

/-- A free value is drawn fresh (log 8, log 9). A step's draws are the numbers from `s.draws` up to `t.draws`, each used
once, so that no two free values are one draw: completing a command (at a listed turn or the default one) draws its
block's eight lanes; a reset of a block draws the bytes of the out range it aborts and then eight lanes; nothing else
draws. -/
def Obligations.DrawsAreFresh : Prop :=
  ∀ s t : State, step s = .next t →
    let turn := s.turns.head?.getD (defaultTurn s)
    s.draws ≤ t.draws ∧
    (∀ n, turn = .engine n → performEnabled s n = true →
      t.draws = s.draws + 8 ∧
        ∃ c, t.blocks[n]? = some c ∧ ∀ (k : Nat) (h : k < 8), c.acc[k] = Config.freeAcc (s.draws + k)) ∧
    (∀ n b, turn = .reset n → s.blocks[n]? = some b →
      let bytes := match s.runningAt n with
        | some d => d.outLen.toNat
        | none => 0
      t.draws = s.draws + bytes + 8 ∧
        (∃ c, t.blocks[n]? = some c ∧ ∀ (k : Nat) (h : k < 8), c.acc[k] = Config.freeAcc (s.draws + bytes + k)) ∧
        ∀ d, s.runningAt n = some d → Memory.wf s.mem = true → ∀ k < bytes,
          memAdmits s.platform (d.outBase.toNat + k) = true →
          Memory.read t.mem (d.outBase.toNat + k) = Config.freeByte (s.draws + k)) ∧
    ((∀ n, turn = .engine n → performEnabled s n = false) → (∀ n, turn = .reset n → s.blocks[n]? = none) →
      t.draws = s.draws)
end

