-- ==== Sys2Proof/Laws/PerInstr.lean ====
section
/-! SUPPORT. Statements made per command: the CMD word of each encoding is the command's code of 30_encoding.md R74, and
that code decodes to the command's operation and kernel (R75). -/

namespace Sys2Proof.Laws.CommandCode

/-- The encoding's CMD word is the command's code, and the code decodes to its operation and kernel. -/
def Statement (i : Instr) : Prop := (encode i).cmd = i.code ∧ decodeCmd i.code = some (i.op, i.kernel)

theorem dmul32 (o : MatOperands) : Statement (.dmul32 o) :=
  ⟨rfl, show decodeCmd 0 = some (Op.dense, Kernel.k32) by decide⟩

theorem vmul32 (o : VecOperands) : Statement (.vmul32 o) :=
  ⟨rfl, show decodeCmd 1 = some (Op.vector, Kernel.k32) by decide⟩

theorem emul32 (o : MatOperands) : Statement (.emul32 o) :=
  ⟨rfl, show decodeCmd 2 = some (Op.expand, Kernel.k32) by decide⟩

theorem umul32 (o : VecOperands) : Statement (.umul32 o) :=
  ⟨rfl, show decodeCmd 3 = some (Op.unpack, Kernel.k32) by decide⟩

theorem dmul64 (o : MatOperands) : Statement (.dmul64 o) :=
  ⟨rfl, show decodeCmd 4 = some (Op.dense, Kernel.k64) by decide⟩

theorem vmul64 (o : VecOperands) : Statement (.vmul64 o) :=
  ⟨rfl, show decodeCmd 5 = some (Op.vector, Kernel.k64) by decide⟩

theorem emul64 (o : MatOperands) : Statement (.emul64 o) :=
  ⟨rfl, show decodeCmd 6 = some (Op.expand, Kernel.k64) by decide⟩

theorem umul64 (o : VecOperands) : Statement (.umul64 o) :=
  ⟨rfl, show decodeCmd 7 = some (Op.unpack, Kernel.k64) by decide⟩

end Sys2Proof.Laws.CommandCode
end

