-- ==== Sys2Proof/Laws/Regions.lean ====
section
/-! SUPPORT. Ranges of addresses: what the interval tests say of single bytes. -/

namespace Sys2Proof.Machine

theorem overlap_iff {a m b n : Nat} : overlap a m b n = true ↔ ∃ x, (a ≤ x ∧ x < a + m) ∧ (b ≤ x ∧ x < b + n) := by
  simp only [overlap, Bool.and_eq_true, decide_eq_true_eq]
  constructor
  · rintro ⟨⟨⟨h1, h2⟩, h3⟩, h4⟩
    exact ⟨max a b, by omega, by omega⟩
  · rintro ⟨x, h1, h2⟩
    omega

@[simp] theorem inRegion_iff {r : Region} {a : Nat} : inRegion r a = true ↔ r.base ≤ a ∧ a < r.base + r.size := by
  simp [inRegion]

/-- Two regions meet when they share a byte (60_exceptions.md R182). -/
theorem regionsMeet_iff {r q : Region} : regionsMeet r q = true ↔ ∃ a, inRegion r a = true ∧ inRegion q a = true := by
  simp only [regionsMeet, overlap_iff, inRegion_iff]

theorem regionsMeet_comm (r q : Region) : regionsMeet r q = regionsMeet q r := by
  rw [Bool.eq_iff_iff, regionsMeet_iff, regionsMeet_iff]
  simp only [and_comm]

/-- Every byte of an admitted region exists, and no other region is admitted (20_memory.md R59). -/
theorem regionAdmitted_iff {p : Platform} {r : Region} :
    regionAdmitted p r = true ↔ ∀ a, inRegion r a = true → memAdmits p a = true := by
  simp only [regionAdmitted, memAdmits, Bool.or_eq_true, Bool.and_eq_true, decide_eq_true_eq, Bool.not_eq_true',
    List.any_eq_false]
  constructor
  · rintro h a ha
    rw [inRegion_iff] at ha
    rcases h with h | ⟨h1, h2⟩
    · omega
    · refine ⟨by omega, fun q hq hqa => h2 q hq ?_⟩
      exact regionsMeet_iff.2 ⟨a, inRegion_iff.2 ha, hqa⟩
  · intro h
    by_cases h0 : r.size = 0
    · exact .inl h0
    · refine .inr ⟨?_, fun q hq hm => ?_⟩
      · have := (h (r.base + r.size - 1) (inRegion_iff.2 (by omega))).1
        omega
      · obtain ⟨a, ha, hqa⟩ := regionsMeet_iff.1 hm
        exact (h a ha).2 q hq hqa

/-- Every byte of an admitted footprint exists (45_host_interface.md R166). -/
theorem footprintAdmitted_iff {p : Platform} {d : Descriptor} :
    footprintAdmitted p d = true ↔ ∀ a, inFootprint d a = true → memAdmits p a = true := by
  simp only [footprintAdmitted, footprint, inFootprint, List.all_cons, List.all_nil, List.any_cons, List.any_nil,
    Bool.and_true, Bool.or_false, Bool.and_eq_true, Bool.or_eq_true, regionAdmitted_iff]
  constructor
  · rintro ⟨h1, h2, h3⟩ a (ha | ha | ha)
    exacts [h1 a ha, h2 a ha, h3 a ha]
  · intro h
    exact ⟨fun a ha => h a (.inl ha), fun a ha => h a (.inr (.inl ha)), fun a ha => h a (.inr (.inr ha))⟩

/-- No byte of a device or of a register window lies in an ordinary region (20_memory.md R58). -/
theorem regionOrdinary_iff {p : Platform} {r : Region} :
    regionOrdinary p r = true ↔ ∀ q ∈ notMemory p, ∀ a, inRegion r a = true → inRegion q a = false := by
  simp only [regionOrdinary, Bool.not_eq_true', List.any_eq_false]
  constructor
  · intro h q hq a ha
    by_contra hc
    exact h q hq (regionsMeet_iff.2 ⟨a, ha, by simpa using hc⟩)
  · intro h q hq hm
    obtain ⟨a, ha, hqa⟩ := regionsMeet_iff.1 hm
    exact absurd hqa (by simp [h q hq a ha])

/-- Running commands that do not conflict: no byte of one's out range lies in the other's footprint
(70_reset_and_hazards.md R220). -/
theorem conflict_eq_false_iff {d e : Descriptor} :
    conflict d e = false ↔
      (∀ a, inRegion (outRange d) a = true → inFootprint e a = false) ∧
        (∀ a, inRegion (outRange e) a = true → inFootprint d a = false) := by
  have key : ∀ (r : Region) (f : Descriptor), (footprint f).any (regionsMeet r) = false ↔
      ∀ a, inRegion r a = true → inFootprint f a = false := by
    intro r f
    rw [List.any_eq_false]
    constructor
    · intro h a ha
      rw [inFootprint, List.any_eq_false]
      intro q hq hqa
      exact h q hq (regionsMeet_iff.2 ⟨a, ha, hqa⟩)
    · intro h q hq hm
      obtain ⟨a, ha, hqa⟩ := regionsMeet_iff.1 hm
      have := h a ha
      rw [inFootprint, List.any_eq_false] at this
      exact this q hq hqa
  rw [conflict, Bool.or_eq_false_iff, key, key]

theorem conflict_comm (d e : Descriptor) : conflict d e = conflict e d := by
  rw [conflict, conflict, Bool.or_comm]

/-- What a passing check says (60_exceptions.md R182). -/
theorem check_none {d : Descriptor} (h : check d = none) :
    ∃ op k, decodeCmd d.cmd = some (op, k) ∧
      d.outLen.toNat = requiredOut op k d.aRows.toNat d.aCols.toNat d.bCols.toNat ∧
      d.aLen.toNat = requiredA k d.aRows.toNat d.aCols.toNat ∧
      d.bLen.toNat = requiredB op k d.aCols.toNat d.bCols.toNat ∧
      (op = .unpack → d.aRows.toNat % rowBlock = 0) ∧
      misaligned op k d = false ∧
      (pastTop d.outBase d.outLen = false ∧ pastTop d.aBase d.aLen = false ∧ pastTop d.bBase d.bLen = false) ∧
      regionsMeet (outRange d) (aRange d) = false ∧ regionsMeet (outRange d) (bRange d) = false := by
  unfold check at h
  split at h
  · cases h
  · rename_i op k hc
    refine ⟨op, k, hc, ?_⟩
    unfold checkOperands at h
    dsimp only at h
    repeat' split at h
    all_goals first | (cases h; done) | skip
    simp_all

end Sys2Proof.Machine
end

