-- ==== Sys2Proof/Laws/Decode.lean ====
section
/-! SUPPORT. Decoding: which CMD values encode a command, and what decoding keeps of a descriptor. -/

namespace Sys2Proof

open Sys2Proof.Machine

theorem encode_cmd (i : Instr) : (encode i).cmd = i.code ∧ decodeCmd i.code = some (i.op, i.kernel) := by
  cases i with
  | dmul32 o => exact Laws.CommandCode.dmul32 o
  | vmul32 o => exact Laws.CommandCode.vmul32 o
  | emul32 o => exact Laws.CommandCode.emul32 o
  | umul32 o => exact Laws.CommandCode.umul32 o
  | dmul64 o => exact Laws.CommandCode.dmul64 o
  | vmul64 o => exact Laws.CommandCode.vmul64 o
  | emul64 o => exact Laws.CommandCode.emul64 o
  | umul64 o => exact Laws.CommandCode.umul64 o

/-- The CMD value of an operation and a kernel (30_encoding.md R74). -/
def codeOf : Op → Kernel → Word
  | .dense, .k32 => 0
  | .vector, .k32 => 1
  | .expand, .k32 => 2
  | .unpack, .k32 => 3
  | .dense, .k64 => 4
  | .vector, .k64 => 5
  | .expand, .k64 => 6
  | .unpack, .k64 => 7

theorem code_eq_codeOf (i : Instr) : i.code = codeOf i.op i.kernel := by cases i <;> rfl

/-- A CMD value that decodes is below 8 (30_encoding.md R73). -/
theorem cmd_lt_of_decodeCmd {v : Word} {x : Op × Kernel} (h : decodeCmd v = some x) : v.toNat < 8 := by
  unfold decodeCmd at h
  split_ifs at h with h0
  have h0 : v.extractLsb' 3 61 = 0#61 := by simpa using h0
  have := congrArg BitVec.toNat h0
  simp [BitVec.extractLsb'_toNat, Nat.shiftRight_eq_div_pow] at this
  have := v.isLt
  omega

/-- Each operation and kernel has one CMD value (30_encoding.md R74). -/
theorem eq_codeOf_of_decodeCmd {v : Word} {op : Op} {k : Kernel} (h : decodeCmd v = some (op, k)) : v = codeOf op k := by
  have hlt := cmd_lt_of_decodeCmd h
  have hv : v = BitVec.ofNat 64 v.toNat := by simp
  rw [hv] at h ⊢
  generalize v.toNat = x at h hlt ⊢
  revert h
  interval_cases x <;> cases op <;> cases k <;> decide

/-- What decoding keeps of a descriptor: all of it, but B_COLS where the command ignores it (30_encoding.md R76). -/
theorem encode_of_decode {d : Descriptor} {i : Instr} (h : decode d = .ok i) :
    decodeCmd d.cmd = some (i.op, i.kernel) ∧
      (encode i = d ∨ (encode i = { d with bCols := 0 } ∧ (i.op = .vector ∨ i.op = .unpack))) := by
  obtain ⟨cmd, outBase, aBase, bBase, aRows, aCols, bCols, outLen, aLen, bLen⟩ := d
  unfold decode at h
  split at h
  · cases h
  · rename_i op k hc
    have hd : cmd = codeOf op k := eq_codeOf_of_decodeCmd hc
    subst hd
    cases h
    refine ⟨?_, ?_⟩
    · rw [hc]; cases op <;> cases k <;> rfl
    · cases op <;> cases k <;> first
      | exact .inl rfl
      | exact .inr ⟨rfl, .inl rfl⟩
      | exact .inr ⟨rfl, .inr rfl⟩

/-- The decoded command has the descriptor's footprint. -/
theorem footprint_of_decode {d : Descriptor} {i : Instr} (h : decode d = .ok i) : footprint (encode i) = footprint d := by
  rcases (encode_of_decode h).2 with h | ⟨h, -⟩
  · rw [h]
  · rw [h]; rfl

/-- The decoded command has the descriptor's START check: B_COLS is not checked where the command ignores it. -/
theorem check_of_decode {d : Descriptor} {i : Instr} (h : decode d = .ok i) : check (encode i) = check d := by
  obtain ⟨h1, h | ⟨h, hop⟩⟩ := encode_of_decode h
  · rw [h]
  · rw [h, check, check, h1]
    rcases hop with hop | hop <;> rw [hop] <;> rfl

end Sys2Proof
end

