-- ==== Sys2Proof/Laws/Memory.lean ====
section
/-! SUPPORT. Memory: reading after writing, and the canonical form that every memory operation keeps. -/

namespace Sys2Proof.Machine

namespace Memory

@[simp] theorem read_nil (a : Nat) : Memory.read [] a = unlistedByte := rfl

theorem read_cons (k : Nat) (v : Byte) (m : Memory) (a : Nat) :
    Memory.read ((k, v) :: m) a = if k = a then v else Memory.read m a := rfl

theorem wfFrom_cons {lo k : Nat} {v : Byte} {m : Memory} :
    wfFrom lo ((k, v) :: m) = true ↔ lo ≤ k ∧ v ≠ unlistedByte ∧ wfFrom (k + 1) m = true := by
  simp [wfFrom, and_assoc]

theorem wfFrom_mono {lo lo' : Nat} (h : lo' ≤ lo) : ∀ {m : Memory}, wfFrom lo m = true → wfFrom lo' m = true
  | [], _ => rfl
  | (k, v) :: m, hm => by
    rw [wfFrom_cons] at hm ⊢
    exact ⟨h.trans hm.1, hm.2⟩

/-- Below its first address a well-formed memory lists nothing. -/
theorem read_below {lo a : Nat} (h : a < lo) : ∀ {m : Memory}, wfFrom lo m = true → Memory.read m a = unlistedByte
  | [], _ => rfl
  | (k, v) :: m, hm => by
    rw [wfFrom_cons] at hm
    rw [read_cons, if_neg (by omega), read_below (by omega) hm.2.2]

theorem write_wfFrom {lo a : Nat} (v : Byte) (hlo : lo ≤ a) :
    ∀ {m : Memory}, wfFrom lo m = true → wfFrom lo (Memory.write m a v) = true
  | [], _ => by
    by_cases hv : v = unlistedByte <;> simp [Memory.write, wfFrom, hv, hlo]
  | (k, w) :: m, hm => by
    have hm' := wfFrom_cons.1 hm
    unfold Memory.write
    split_ifs with h1 hv h2 hv
    · exact hm
    · exact wfFrom_cons.2 ⟨hlo, hv, wfFrom_cons.2 ⟨by omega, hm'.2⟩⟩
    · exact wfFrom_mono (by omega) hm'.2.2
    · exact wfFrom_cons.2 ⟨hlo, hv, h2 ▸ hm'.2.2⟩
    · exact wfFrom_cons.2 ⟨hm'.1, hm'.2.1, write_wfFrom v (by omega) hm'.2.2⟩

/-- A write keeps the canonical form. -/
theorem write_wf {m : Memory} (a : Nat) (v : Byte) (h : wf m = true) : wf (Memory.write m a v) = true :=
  write_wfFrom v (Nat.zero_le a) h

theorem read_write_from {lo a : Nat} (v : Byte) (b : Nat) :
    ∀ {m : Memory}, wfFrom lo m = true →
      Memory.read (Memory.write m a v) b = if b = a then v else Memory.read m b
  | [], _ => by
    by_cases hv : v = unlistedByte <;> by_cases hb : b = a <;>
      simp [Memory.write, read_cons, hv, hb, eq_comm (a := a)]
  | (k, w) :: m, hm => by
    have hm' := wfFrom_cons.1 hm
    unfold Memory.write
    split_ifs with h1 hv hb hb h2 hv hb hb hb
    · subst hb
      rw [hv, read_cons, if_neg (by omega), read_below (by omega) hm'.2.2]
    · rfl
    · subst hb; simp [read_cons]
    · rw [read_cons, if_neg (Ne.symm hb)]
    · subst hb
      rw [hv, read_below (by omega) hm'.2.2]
    · rw [read_cons, if_neg (by omega)]
    · subst hb; simp [read_cons]
    · rw [read_cons, if_neg (Ne.symm hb), read_cons, if_neg (by omega)]
    · subst hb
      rw [read_cons, if_neg (by omega), read_write_from v b hm'.2.2, if_pos rfl]
    · rw [read_cons, read_cons, read_write_from v b hm'.2.2, if_neg hb]

/-- Reading after a write: the written byte at its address, every other byte as before. -/
theorem read_write {m : Memory} (h : wf m = true) (a : Nat) (v : Byte) (b : Nat) :
    Memory.read (Memory.write m a v) b = if b = a then v else Memory.read m b :=
  read_write_from v b h

/-- A write lists no address but its own. -/
theorem mem_write {m : Memory} {a : Nat} {v : Byte} {c : Host.Cell} (h : c ∈ Memory.write m a v) : c.1 = a ∨ c ∈ m := by
  induction m with
  | nil =>
    unfold Memory.write at h
    split at h <;> simp_all
  | cons x m ih =>
    obtain ⟨k, w⟩ := x
    unfold Memory.write at h
    split_ifs at h with h1 hv h2 hv
    · exact .inr h
    · rcases List.mem_cons.1 h with rfl | h
      · exact .inl rfl
      · exact .inr h
    · exact .inr (List.mem_cons_of_mem _ h)
    · rcases List.mem_cons.1 h with rfl | h
      · exact .inl rfl
      · exact .inr (List.mem_cons_of_mem _ h)
    · rcases List.mem_cons.1 h with rfl | h
      · exact .inr List.mem_cons_self
      · exact (ih h).imp id (List.mem_cons_of_mem _)

theorem ext_from {lo : Nat} : ∀ {m m' : Memory}, wfFrom lo m = true → wfFrom lo m' = true →
    (∀ a, lo ≤ a → Memory.read m a = Memory.read m' a) → m = m'
  | [], [], _, _, _ => rfl
  | [], (k, v) :: m', _, h', he => by
    have h' := wfFrom_cons.1 h'
    have := he k h'.1
    rw [read_cons, if_pos rfl] at this
    exact absurd this.symm h'.2.1
  | (k, v) :: m, [], h, _, he => by
    have h := wfFrom_cons.1 h
    have := he k h.1
    rw [read_cons, if_pos rfl] at this
    exact absurd this h.2.1
  | (k, v) :: m, (k', v') :: m', h, h', he => by
    have h := wfFrom_cons.1 h
    have h' := wfFrom_cons.1 h'
    have hk : k = k' := by
      rcases Nat.lt_trichotomy k k' with hlt | heq | hlt
      · have := he k h.1
        rw [read_cons, if_pos rfl, read_cons, if_neg (by omega), read_below (by omega) h'.2.2] at this
        exact absurd this h.2.1
      · exact heq
      · have := he k' h'.1
        rw [read_cons, if_neg (by omega), read_below (by omega) h.2.2, read_cons, if_pos rfl] at this
        exact absurd this.symm h'.2.1
    subst hk
    have hv : v = v' := by
      have := he k h.1
      rwa [read_cons, read_cons, if_pos rfl, if_pos rfl] at this
    subst hv
    congr 1
    refine ext_from h.2.2 h'.2.2 fun a ha => ?_
    have := he a (by omega)
    rwa [read_cons, read_cons, if_neg (by omega), if_neg (by omega)] at this

/-- Two canonical memories that read alike everywhere are the same list. -/
theorem ext {m m' : Memory} (h : wf m = true) (h' : wf m' = true)
    (he : ∀ a, Memory.read m a = Memory.read m' a) : m = m' :=
  ext_from h h' fun a _ => he a

end Memory

/-! ### Multi-byte access -/

theorem memRead_congr {m m' : Memory} {n : Nat} : ∀ {a : Nat},
    (∀ b, a ≤ b → b < a + n → Memory.read m b = Memory.read m' b) → memRead m a n = memRead m' a n := by
  induction n with
  | zero => intros; rfl
  | succ n ih =>
    intro a h
    simp only [memRead]
    rw [h a le_rfl (by omega), ih fun b h1 h2 => h b (by omega) (by omega)]

theorem memRead_lt (m : Memory) (n : Nat) : ∀ a : Nat, memRead m a n < 2 ^ (8 * n) := by
  induction n with
  | zero => intro a; simp [memRead]
  | succ n ih =>
    intro a
    have h1 := (Memory.read m a).isLt
    have h2 := ih (a + 1)
    have h3 : 2 ^ (8 * (n + 1)) = 2 ^ 8 * 2 ^ (8 * n) := by rw [← pow_add]; congr 1; ring
    simp only [memRead]
    omega

/-- A multi-byte write keeps the canonical form. -/
theorem memWrite_wf (n : Nat) : ∀ {m : Memory} (a v : Nat), Memory.wf m = true → Memory.wf (memWrite m a n v) = true := by
  induction n with
  | zero => intro m a v h; exact h
  | succ n ih => intro m a v h; exact ih _ _ (Memory.write_wf _ _ h)

/-- A multi-byte write changes no byte outside its range. -/
theorem read_memWrite_other (n : Nat) : ∀ {m : Memory} (a v b : Nat), Memory.wf m = true → (b < a ∨ a + n ≤ b) →
    Memory.read (memWrite m a n v) b = Memory.read m b := by
  induction n with
  | zero => intros; rfl
  | succ n ih =>
    intro m a v b h hb
    rw [memWrite, ih _ _ _ (Memory.write_wf _ _ h) (by omega), Memory.read_write h, if_neg (by omega)]

/-- Reading back a multi-byte write gives the low bytes of the value. -/
theorem memRead_memWrite (n : Nat) : ∀ {m : Memory} (a v : Nat), Memory.wf m = true →
    memRead (memWrite m a n v) a n = v % 2 ^ (8 * n) := by
  induction n with
  | zero => intro m a v _; simp [memRead, Nat.mod_one]
  | succ n ih =>
    intro m a v h
    have hw := Memory.write_wf a (BitVec.ofNat 8 v) h
    have h3 : 2 ^ (8 * (n + 1)) = 2 ^ 8 * 2 ^ (8 * n) := by rw [← pow_add]; congr 1; ring
    rw [memWrite, memRead, ih _ _ hw, read_memWrite_other n _ _ _ hw (by omega), Memory.read_write h, if_pos rfl, h3,
      Nat.mod_mul, BitVec.toNat_ofNat]

theorem memRead_memWrite_other (n k : Nat) {m : Memory} (a b v : Nat) (h : Memory.wf m = true)
    (hd : b + k ≤ a ∨ a + n ≤ b) : memRead (memWrite m a n v) b k = memRead m b k :=
  memRead_congr fun c h1 h2 => read_memWrite_other n a v c h (by omega)

/-- What a multi-byte write lists lies in its range or was listed. -/
theorem mem_memWrite (n : Nat) : ∀ {m : Memory} (a v : Nat) {c : Host.Cell}, c ∈ memWrite m a n v →
    (a ≤ c.1 ∧ c.1 < a + n) ∨ c ∈ m := by
  induction n with
  | zero => intro m a v c h; exact .inr h
  | succ n ih =>
    intro m a v c h
    rcases ih _ _ h with h | h
    · exact .inl (by omega)
    · exact (Memory.mem_write h).imp (by omega) id

/-! ### The host's bytes, and free bytes -/

theorem storeBytes_wf (bs : List Byte) : ∀ {m : Memory} (a : Nat), Memory.wf m = true → Memory.wf (storeBytes m a bs) = true := by
  induction bs with
  | nil => intro m a h; exact h
  | cons v bs ih => intro m a h; exact ih _ (Memory.write_wf _ _ h)

/-- Storing bytes: byte `t` of the list at the `t`-th address, every other byte as before. -/
theorem read_storeBytes (bs : List Byte) : ∀ {m : Memory} (a b : Nat), Memory.wf m = true →
    Memory.read (storeBytes m a bs) b = if a ≤ b then (bs[b - a]?).getD (Memory.read m b) else Memory.read m b := by
  induction bs with
  | nil => intro m a b _; simp [storeBytes]
  | cons v bs ih =>
    intro m a b h
    rw [storeBytes, ih _ _ (Memory.write_wf _ _ h), Memory.read_write h]
    by_cases h1 : a + 1 ≤ b
    · obtain ⟨c, rfl⟩ := Nat.exists_eq_add_of_le h1
      have : a + 1 + c - a = c + 1 := by omega
      rw [if_pos h1, if_neg (by omega), if_pos (by omega), this, List.getElem?_cons_succ]
      congr 2
      omega
    · by_cases h2 : b = a
      · subst h2; simp
      · rw [if_neg h1, if_neg h2, if_neg (by omega)]

theorem mem_storeBytes (bs : List Byte) : ∀ {m : Memory} (a : Nat) {c : Host.Cell}, c ∈ storeBytes m a bs →
    (a ≤ c.1 ∧ c.1 < a + bs.length) ∨ c ∈ m := by
  induction bs with
  | nil => intro m a c h; exact .inr h
  | cons v bs ih =>
    intro m a c h
    rw [List.length_cons]
    rcases ih _ h with h | h
    · exact .inl (by omega)
    · exact (Memory.mem_write h).imp (by omega) id

theorem drawBytes_wf (p : Platform) (n : Nat) : ∀ {m : Memory} (a draw : Nat), Memory.wf m = true →
    Memory.wf (drawBytes p m a draw n) = true := by
  induction n with
  | zero => intro m a draw h; exact h
  | succ n ih =>
    intro m a draw h
    unfold drawBytes
    refine ih _ _ ?_
    by_cases hp : memAdmits p a = true <;> simp [hp, h, Memory.write_wf]

/-- Free bytes land only in their range. -/
theorem read_drawBytes_other (p : Platform) (n : Nat) : ∀ {m : Memory} (a draw b : Nat), Memory.wf m = true →
    (b < a ∨ a + n ≤ b) → Memory.read (drawBytes p m a draw n) b = Memory.read m b := by
  induction n with
  | zero => intros; rfl
  | succ n ih =>
    intro m a draw b h hb
    unfold drawBytes
    by_cases hp : memAdmits p a = true
    · simp only [hp, if_true]
      rw [ih _ _ _ (Memory.write_wf _ _ h) (by omega), Memory.read_write h, if_neg (by omega)]
    · simp only [hp]
      exact ih _ _ _ h (by omega)

theorem mem_drawBytes (p : Platform) (n : Nat) : ∀ {m : Memory} (a draw : Nat) {c : Host.Cell},
    c ∈ drawBytes p m a draw n → memAdmits p c.1 = true ∨ c ∈ m := by
  induction n with
  | zero => intro m a draw c h; exact .inr h
  | succ n ih =>
    intro m a draw c h
    unfold drawBytes at h
    rcases ih _ _ h with h | h
    · exact .inl h
    · by_cases hp : memAdmits p a = true
      · simp only [hp, if_true] at h
        exact (Memory.mem_write h).imp (fun e => by rw [e]; exact hp) id
      · simp only [hp] at h
        exact .inr h

end Sys2Proof.Machine
end

