-- ==== Sys2Proof/Laws/Elements.lean ====
section
/-! SUPPORT. Elements, loops of stores, and what each command function does to memory: its elements, and every byte
outside the out range. -/

namespace Sys2Proof.Machine

theorem width_eq (k : Kernel) : width k = 8 * elemBytes k := by cases k <;> rfl

theorem elemBytes_pos (k : Kernel) : 0 < elemBytes k := by cases k <;> decide

/-! ### Elements -/

theorem readElem_congr {k : Kernel} {m m' : Memory} {a : Nat}
    (h : ∀ b, a ≤ b → b < a + elemBytes k → Memory.read m b = Memory.read m' b) : readElem k m a = readElem k m' a := by
  rw [readElem, readElem, memRead_congr h]

theorem writeElem_wf {k : Kernel} {m : Memory} (a : Nat) (v : Elem k) (h : Memory.wf m = true) :
    Memory.wf (writeElem k m a v) = true := memWrite_wf _ _ _ h

theorem read_writeElem_other {k : Kernel} {m : Memory} (a b : Nat) (v : Elem k) (h : Memory.wf m = true)
    (hb : b < a ∨ a + elemBytes k ≤ b) : Memory.read (writeElem k m a v) b = Memory.read m b :=
  read_memWrite_other _ _ _ _ h hb

/-- A stored element reads back. -/
theorem readElem_writeElem {k : Kernel} {m : Memory} (a : Nat) (v : Elem k) (h : Memory.wf m = true) :
    readElem k (writeElem k m a v) a = v := by
  rw [readElem, writeElem, memRead_memWrite _ _ _ h, ← width_eq]
  apply BitVec.eq_of_toNat_eq
  rw [BitVec.toNat_ofNat, Nat.mod_mod, Nat.mod_eq_of_lt v.isLt]

theorem readElem_writeElem_other {k : Kernel} {m : Memory} (a b : Nat) (v : Elem k) (h : Memory.wf m = true)
    (hd : b + elemBytes k ≤ a ∨ a + elemBytes k ≤ b) : readElem k (writeElem k m a v) b = readElem k m b :=
  readElem_congr fun c h1 h2 => read_writeElem_other a c v h (by omega)

theorem mem_writeElem {k : Kernel} {m : Memory} {a : Nat} {v : Elem k} {c : Host.Cell} (h : c ∈ writeElem k m a v) :
    (a ≤ c.1 ∧ c.1 < a + elemBytes k) ∨ c ∈ m := mem_memWrite _ _ _ h

/-! ### Loops -/

@[simp] theorem forUpTo_zero {α : Type} (f : Nat → α → α) (x : α) : forUpTo 0 f x = x := rfl

@[simp] theorem forUpTo_succ {α : Type} (n : Nat) (f : Nat → α → α) (x : α) :
    forUpTo (n + 1) f x = f n (forUpTo n f x) := rfl

/-- A loop over the sum of two counts is one loop after the other. -/
theorem forUpTo_add {α : Type} (f : Nat → α → α) (x : α) (n k : Nat) :
    forUpTo (n + k) f x = forUpTo k (fun i => f (n + i)) (forUpTo n f x) := by
  induction k with
  | zero => rfl
  | succ k ih => rw [← Nat.add_assoc, forUpTo_succ, ih, forUpTo_succ]

theorem forUpTo_congr {α : Type} {f g : Nat → α → α} (x : α) :
    ∀ {n : Nat}, (∀ i < n, ∀ y, f i y = g i y) → forUpTo n f x = forUpTo n g x
  | 0, _ => rfl
  | n + 1, h => by
    rw [forUpTo_succ, forUpTo_succ, forUpTo_congr x (n := n) fun i hi => h i (by omega), h n (by omega)]

/-- Two nested loops visit the cells of a matrix in row-major order (00_scope.md R12). -/
theorem forUpTo_nested {α : Type} (g : Nat → Nat → α → α) (x : α) (rows cols : Nat) :
    forUpTo rows (fun i y => forUpTo cols (fun j => g i j) y) x =
      forUpTo (rows * cols) (fun p => g (p / cols) (p % cols)) x := by
  induction rows with
  | zero => simp
  | succ r ih =>
    rw [forUpTo_succ, ih, Nat.succ_mul, forUpTo_add]
    refine forUpTo_congr _ fun j hj y => ?_
    have hc : 0 < cols := by omega
    rw [show r * cols + j = j + cols * r by ring, Nat.add_mul_div_left _ _ hc, Nat.div_eq_of_lt hj,
      Nat.add_mul_mod_self_left, Nat.mod_eq_of_lt hj, Nat.zero_add]

@[simp] theorem ringSum_zero {w : Nat} (f : Nat → BitVec w) : ringSum 0 f = 0 := rfl

@[simp] theorem ringSum_succ {w : Nat} (n : Nat) (f : Nat → BitVec w) : ringSum (n + 1) f = ringSum n f + f n := rfl

theorem ringSum_congr {w : Nat} {f g : Nat → BitVec w} : ∀ {n : Nat}, (∀ i < n, f i = g i) → ringSum n f = ringSum n g
  | 0, _ => rfl
  | n + 1, h => by rw [ringSum_succ, ringSum_succ, ringSum_congr fun i hi => h i (by omega), h n (by omega)]

/-! ### Stores to the elements of a flat buffer -/

/-- The stores `base[p] <- f p` for `p < n`. -/
def fill (k : Kernel) (base n : Nat) (f : Nat → Elem k) (m : Memory) : Memory :=
  forUpTo n (fun p m => writeElem k m (base + p * elemBytes k) (f p)) m

theorem fill_succ (k : Kernel) (base n : Nat) (f : Nat → Elem k) (m : Memory) :
    fill k base (n + 1) f m = writeElem k (fill k base n f m) (base + n * elemBytes k) (f n) := rfl

theorem fill_wf {k : Kernel} {base : Nat} {f : Nat → Elem k} {m : Memory} (h : Memory.wf m = true) :
    ∀ n, Memory.wf (fill k base n f m) = true
  | 0 => h
  | n + 1 => writeElem_wf _ _ (fill_wf h n)

theorem read_fill_other {k : Kernel} {base : Nat} {f : Nat → Elem k} {m : Memory} (h : Memory.wf m = true) {b : Nat} :
    ∀ n, (b < base ∨ base + n * elemBytes k ≤ b) → Memory.read (fill k base n f m) b = Memory.read m b
  | 0, _ => rfl
  | n + 1, hb => by
    rw [Nat.succ_mul] at hb
    rw [fill_succ, read_writeElem_other _ _ _ (fill_wf h n) (by omega)]
    exact read_fill_other h n (by omega)

/-- Element `p` of a filled buffer. -/
theorem readElem_fill {k : Kernel} {base : Nat} {f : Nat → Elem k} {m : Memory} (h : Memory.wf m = true) {p : Nat} :
    ∀ n, p < n → readElem k (fill k base n f m) (base + p * elemBytes k) = f p
  | n + 1, hp => by
    have hw := fill_wf (base := base) (f := f) h n
    rw [fill_succ]
    by_cases hpn : p = n
    · subst hpn; exact readElem_writeElem _ _ hw
    · have hlt : p < n := by omega
      have : (p + 1) * elemBytes k ≤ n * elemBytes k := Nat.mul_le_mul_right _ hlt
      rw [Nat.succ_mul] at this
      rw [readElem_writeElem_other _ _ _ hw (by omega)]
      exact readElem_fill h n hlt

theorem mem_fill {k : Kernel} {base : Nat} {f : Nat → Elem k} {m : Memory} {c : Host.Cell} :
    ∀ n, c ∈ fill k base n f m → (base ≤ c.1 ∧ c.1 < base + n * elemBytes k) ∨ c ∈ m
  | 0, h => .inr h
  | n + 1, h => by
    rw [Nat.succ_mul]
    rcases mem_writeElem h with h | h
    · exact .inl (by omega)
    · exact (mem_fill n h).imp (by omega) id

/-! ### The command functions as fills of the out buffer -/

theorem denseMultiply_eq_fill (k : Kernel) (d : Descriptor) (m : Memory) :
    denseMultiply k d m = fill k d.outBase.toNat (d.aRows.toNat * d.bCols.toNat) (fun p =>
      readElem k m (elemAt k d.outBase p) + denseSum k d m (p / d.bCols.toNat) (p % d.bCols.toNat)) m := by
  rw [denseMultiply, forUpTo_nested, fill]
  refine forUpTo_congr _ fun p hp y => ?_
  rw [cellAt, Nat.mul_comm (p / _), Nat.div_add_mod, elemAt]

theorem expandMultiply_eq_fill (k : Kernel) (d : Descriptor) (m : Memory) :
    expandMultiply k d m = fill k d.outBase.toNat (d.aRows.toNat * d.bCols.toNat) (fun p =>
      readElem k m (elemAt k d.outBase p) + expandSum k d m (p / d.bCols.toNat) (p % d.bCols.toNat)) m := by
  rw [expandMultiply, forUpTo_nested, fill]
  refine forUpTo_congr _ fun p hp y => ?_
  rw [cellAt, Nat.mul_comm (p / _), Nat.div_add_mod, elemAt]

theorem vectorMultiply_eq_fill (k : Kernel) (d : Descriptor) (m : Memory) :
    vectorMultiply k d m = fill k d.outBase.toNat d.aRows.toNat (vectorSum k d m) m := rfl

theorem unpackMultiply_eq_fill (k : Kernel) (d : Descriptor) (m : Memory) :
    unpackMultiply k d m = fill k d.outBase.toNat d.aRows.toNat (fun i =>
      readElem k m (elemAt k d.outBase i) + unpackSum k d m i) m := rfl

/-- Cell `(i, j)` of a matrix is element `i*cols + j` of its flat sequence, and that index names no other cell. -/
theorem cell_div_mod {cols i j : Nat} (hj : j < cols) : (i * cols + j) / cols = i ∧ (i * cols + j) % cols = j := by
  have hc : 0 < cols := by omega
  rw [show i * cols + j = j + cols * i by ring, Nat.add_mul_div_left _ _ hc, Nat.div_eq_of_lt hj,
    Nat.add_mul_mod_self_left, Nat.mod_eq_of_lt hj]
  exact ⟨Nat.zero_add i, rfl⟩

theorem cell_lt {rows cols i j : Nat} (hi : i < rows) (hj : j < cols) : i * cols + j < rows * cols := by
  calc i * cols + j < i * cols + cols := by omega
    _ = (i + 1) * cols := by ring
    _ ≤ rows * cols := Nat.mul_le_mul_right _ hi

/-- DenseMultiply's elements (41_dense_multiply.md R110). -/
theorem readElem_denseMultiply {k : Kernel} {d : Descriptor} {m : Memory} (h : Memory.wf m = true) {i j : Nat}
    (hi : i < d.aRows.toNat) (hj : j < d.bCols.toNat) :
    readElem k (denseMultiply k d m) (cellAt k d.outBase d.bCols.toNat i j) =
      readElem k m (cellAt k d.outBase d.bCols.toNat i j) + denseSum k d m i j := by
  rw [denseMultiply_eq_fill, cellAt, elemAt, readElem_fill h _ (cell_lt hi hj), (cell_div_mod hj).1, (cell_div_mod hj).2,
    elemAt]

/-- ExpandAndMultiply's elements (43_expand_and_multiply.md R130). -/
theorem readElem_expandMultiply {k : Kernel} {d : Descriptor} {m : Memory} (h : Memory.wf m = true) {i j : Nat}
    (hi : i < d.aRows.toNat) (hj : j < d.bCols.toNat) :
    readElem k (expandMultiply k d m) (cellAt k d.outBase d.bCols.toNat i j) =
      readElem k m (cellAt k d.outBase d.bCols.toNat i j) + expandSum k d m i j := by
  rw [expandMultiply_eq_fill, cellAt, elemAt, readElem_fill h _ (cell_lt hi hj), (cell_div_mod hj).1, (cell_div_mod hj).2,
    elemAt]

/-- VectorMultiply's elements (42_vector_multiply.md R120). -/
theorem readElem_vectorMultiply {k : Kernel} {d : Descriptor} {m : Memory} (h : Memory.wf m = true) {i : Nat}
    (hi : i < d.aRows.toNat) :
    readElem k (vectorMultiply k d m) (elemAt k d.outBase i) = vectorSum k d m i := by
  rw [vectorMultiply_eq_fill, elemAt, readElem_fill h _ hi]

/-- UnpackAndMultiply's elements (44_unpack_and_multiply.md R142). -/
theorem readElem_unpackMultiply {k : Kernel} {d : Descriptor} {m : Memory} (h : Memory.wf m = true) {i : Nat}
    (hi : i < d.aRows.toNat) :
    readElem k (unpackMultiply k d m) (elemAt k d.outBase i) =
      readElem k m (elemAt k d.outBase i) + unpackSum k d m i := by
  rw [unpackMultiply_eq_fill, elemAt, readElem_fill h _ hi, elemAt]

/-- What a command function does outside the elements it stores: it stores `n` elements from OUT_BASE up. -/
structure StoresOut (k : Kernel) (d : Descriptor) (n : Nat) (m m' : Memory) : Prop where
  wf : Memory.wf m = true → Memory.wf m' = true
  other : Memory.wf m = true → ∀ b, b < d.outBase.toNat ∨ d.outBase.toNat + n * elemBytes k ≤ b →
    Memory.read m' b = Memory.read m b
  listed : ∀ c ∈ m', (d.outBase.toNat ≤ c.1 ∧ c.1 < d.outBase.toNat + n * elemBytes k) ∨ c ∈ m

theorem fill_storesOut (k : Kernel) (d : Descriptor) (n : Nat) (f : Nat → Elem k) (m : Memory) :
    StoresOut k d n m (fill k d.outBase.toNat n f m) :=
  ⟨fun h => fill_wf h n, fun h _ hb => read_fill_other h n hb, fun _ hc => mem_fill n hc⟩

theorem denseMultiply_storesOut (k : Kernel) (d : Descriptor) (m : Memory) :
    StoresOut k d (d.aRows.toNat * d.bCols.toNat) m (denseMultiply k d m) := by
  rw [denseMultiply_eq_fill]; exact fill_storesOut ..

theorem expandMultiply_storesOut (k : Kernel) (d : Descriptor) (m : Memory) :
    StoresOut k d (d.aRows.toNat * d.bCols.toNat) m (expandMultiply k d m) := by
  rw [expandMultiply_eq_fill]; exact fill_storesOut ..

theorem vectorMultiply_storesOut (k : Kernel) (d : Descriptor) (m : Memory) :
    StoresOut k d d.aRows.toNat m (vectorMultiply k d m) := by
  rw [vectorMultiply_eq_fill]; exact fill_storesOut ..

theorem unpackMultiply_storesOut (k : Kernel) (d : Descriptor) (m : Memory) :
    StoresOut k d d.aRows.toNat m (unpackMultiply k d m) := by
  rw [unpackMultiply_eq_fill]; exact fill_storesOut ..

end Sys2Proof.Machine
end

