-- ==== Sys2Proof/Laws/State.lean ====
section
/-! SUPPORT. One small lemma per field per update of the state's records, so that no later proof unfolds one. -/

namespace Sys2Proof.Machine

/-! ### updateBlock -/

section updateBlock
variable (s : State) (n : Nat) (f : Block → Block)
@[simp] theorem updateBlock_mem : (s.updateBlock n f).mem = s.mem := rfl
@[simp] theorem updateBlock_platform : (s.updateBlock n f).platform = s.platform := rfl
@[simp] theorem updateBlock_program : (s.updateBlock n f).program = s.program := rfl
@[simp] theorem updateBlock_replies : (s.updateBlock n f).replies = s.replies := rfl
@[simp] theorem updateBlock_turns : (s.updateBlock n f).turns = s.turns := rfl
@[simp] theorem updateBlock_engine : (s.updateBlock n f).engine = s.engine := rfl
@[simp] theorem updateBlock_draws : (s.updateBlock n f).draws = s.draws := rfl
@[simp] theorem updateBlock_length : (s.updateBlock n f).blocks.length = s.blocks.length := List.length_modify ..

/-- The updated block, and every other as before. -/
theorem updateBlock_blocks (m : Nat) :
    (s.updateBlock n f).blocks[m]? = if m = n then s.blocks[m]?.map f else s.blocks[m]? := by
  rw [State.updateBlock, List.getElem?_modify]
  by_cases h : m = n <;> simp [h, eq_comm (a := n)]

@[simp] theorem updateBlock_same : (s.updateBlock n f).blocks[n]? = s.blocks[n]?.map f := by
  rw [updateBlock_blocks, if_pos rfl]

theorem updateBlock_other {m : Nat} (h : m ≠ n) : (s.updateBlock n f).blocks[m]? = s.blocks[m]? := by
  rw [updateBlock_blocks, if_neg h]
end updateBlock

/-! ### complete -/

section complete
variable (s : State) (m : Memory)
@[simp] theorem complete_mem : (s.complete m).mem = m := rfl
@[simp] theorem complete_platform : (s.complete m).platform = s.platform := rfl
@[simp] theorem complete_program : (s.complete m).program = s.program := rfl
@[simp] theorem complete_replies : (s.complete m).replies = s.replies := rfl
@[simp] theorem complete_turns : (s.complete m).turns = s.turns := rfl
@[simp] theorem complete_engine : (s.complete m).engine = s.engine := rfl
@[simp] theorem complete_draws : (s.complete m).draws = s.draws + 8 := rfl
@[simp] theorem complete_blocks : (s.complete m).blocks = s.blocks.modify s.engine (·.finish (freeLanes s.draws)) := rfl
end complete

/-! ### answer -/

section answer
variable (s : State) (r : Reply)
@[simp] theorem answer_mem : (s.answer r).mem = s.mem := rfl
@[simp] theorem answer_blocks : (s.answer r).blocks = s.blocks := rfl
@[simp] theorem answer_platform : (s.answer r).platform = s.platform := rfl
@[simp] theorem answer_program : (s.answer r).program = s.program := rfl
@[simp] theorem answer_replies : (s.answer r).replies = r :: s.replies := rfl
@[simp] theorem answer_turns : (s.answer r).turns = s.turns := rfl
@[simp] theorem answer_engine : (s.answer r).engine = s.engine := rfl
@[simp] theorem answer_draws : (s.answer r).draws = s.draws := rfl
end answer

/-! ### Blocks -/

section block
variable (b : Block) (e : ErrorCode) (acc : Vector Word 8)
@[simp] theorem clearStatus_regs : b.clearStatus.regs = b.regs := rfl
@[simp] theorem clearStatus_busy : b.clearStatus.busy = b.busy := rfl
@[simp] theorem clearStatus_done : b.clearStatus.done = false := rfl
@[simp] theorem clearStatus_err : b.clearStatus.err = false := rfl
@[simp] theorem clearStatus_errCode : b.clearStatus.errCode = 0 := rfl
@[simp] theorem clearStatus_latched : b.clearStatus.latched = b.latched := rfl
@[simp] theorem clearStatus_acc : b.clearStatus.acc = b.acc := rfl
@[simp] theorem errorEntry_regs : (b.errorEntry e).regs = b.regs := rfl
@[simp] theorem errorEntry_busy : (b.errorEntry e).busy = b.busy := rfl
@[simp] theorem errorEntry_done : (b.errorEntry e).done = true := rfl
@[simp] theorem errorEntry_err : (b.errorEntry e).err = true := rfl
@[simp] theorem errorEntry_errCode : (b.errorEntry e).errCode = errorNumber e := rfl
@[simp] theorem errorEntry_latched : (b.errorEntry e).latched = b.latched := rfl
@[simp] theorem errorEntry_acc : (b.errorEntry e).acc = b.acc := rfl
@[simp] theorem latch_regs : b.latch.regs = b.regs := rfl
@[simp] theorem latch_busy : b.latch.busy = true := rfl
@[simp] theorem latch_done : b.latch.done = b.done := rfl
@[simp] theorem latch_err : b.latch.err = b.err := rfl
@[simp] theorem latch_errCode : b.latch.errCode = b.errCode := rfl
@[simp] theorem latch_latched : b.latch.latched = some b.regs := rfl
@[simp] theorem latch_acc : b.latch.acc = b.acc := rfl
@[simp] theorem finish_regs : (b.finish acc).regs = b.regs := rfl
@[simp] theorem finish_busy : (b.finish acc).busy = false := rfl
@[simp] theorem finish_done : (b.finish acc).done = true := rfl
@[simp] theorem finish_err : (b.finish acc).err = b.err := rfl
@[simp] theorem finish_errCode : (b.finish acc).errCode = b.errCode := rfl
@[simp] theorem finish_latched : (b.finish acc).latched = none := rfl
@[simp] theorem finish_acc : (b.finish acc).acc = acc := rfl
@[simp] theorem finish_running : (b.finish acc).running = none := rfl
@[simp] theorem latch_running : b.latch.running = some b.regs := rfl
@[simp] theorem clearStatus_running : b.clearStatus.running = b.running := rfl
@[simp] theorem errorEntry_running : (b.errorEntry e).running = b.running := rfl
@[simp] theorem afterReset_running : (Block.afterReset acc).running = none := rfl
end block

/-- The command a block is running is its latched one, and it is BUSY. -/
theorem running_eq_some {b : Block} {d : Descriptor} : b.running = some d ↔ b.busy = true ∧ b.latched = some d := by
  unfold Block.running
  by_cases h : b.busy = true <;> simp [h]

theorem runningAt_eq_some {s : State} {n : Nat} {d : Descriptor} :
    s.runningAt n = some d ↔ ∃ b, s.blocks[n]? = some b ∧ b.running = some d := by
  rw [State.runningAt, Option.bind_eq_some_iff]

/-! ### Descriptor registers -/

/-- A register reads back what was stored; every other register is as before. -/
theorem getReg_setReg (d : Descriptor) (r q : Reg) (v : Word) :
    getReg (setReg d r v) q = if q = r ∧ r ≠ .ctrl ∧ r ≠ .status then v else getReg d q := by
  cases r <;> cases q <;> rfl

/-- The register map: an offset names at most one register, and each register's own offset names it. -/
theorem regAt_regOffset (r : Reg) : regAt (regOffset r) = some r := by cases r <;> rfl

theorem regOffset_of_regAt {off : Nat} {r : Reg} (h : regAt off = some r) : regOffset r = off := by
  simpa using List.find?_some h

end Sys2Proof.Machine
end

