-- ==== Sys2Proof/Laws/Step.lean ====
section
/-! SUPPORT. What each shared operation can do, said once: perform and exec, START, the host's accesses and
transactions, a move, and the step. -/

namespace Sys2Proof.Machine

/-! ### Performing a command -/

/-- The command function of a command (45_host_interface.md R171). -/
def commandFunction : Instr → Descriptor → Memory → Memory
  | .dmul32 _ => denseMultiply .k32
  | .vmul32 _ => vectorMultiply .k32
  | .emul32 _ => expandMultiply .k32
  | .umul32 _ => unpackMultiply .k32
  | .dmul64 _ => denseMultiply .k64
  | .vmul64 _ => vectorMultiply .k64
  | .emul64 _ => expandMultiply .k64
  | .umul64 _ => unpackMultiply .k64

/-- Every command is the shared perform step with its own function. -/
theorem exec_eq_perform (i : Instr) (s : State) : exec i s = perform (commandFunction i) (encode i) s := by
  cases i <;> rfl

/-- If a perform step answers, the command completed, or a footprint byte does not exist and nothing changed. -/
theorem perform_cases {f : Descriptor → Memory → Memory} {d : Descriptor} {s t : State} (h : perform f d s = .next t) :
    footprintOrdinary s.platform d = true ∧
      ((footprintAdmitted s.platform d = true ∧ t = s.complete (f d s.mem)) ∨
        (footprintAdmitted s.platform d = false ∧ t = s)) := by
  unfold perform at h
  split_ifs at h with h1 h2
  · cases h; exact ⟨h1, .inl ⟨h2, rfl⟩⟩
  · cases h; exact ⟨h1, .inr ⟨by simpa using h2, rfl⟩⟩

theorem perform_enabled {f : Descriptor → Memory → Memory} {d : Descriptor} {s : State}
    (h1 : footprintOrdinary s.platform d = true) (h2 : footprintAdmitted s.platform d = true) :
    perform f d s = .next (s.complete (f d s.mem)) := by
  rw [perform, if_pos h1, if_pos h2]

theorem exec_cases {i : Instr} {s t : State} (h : exec i s = .next t) :
    footprintOrdinary s.platform (encode i) = true ∧
      ((footprintAdmitted s.platform (encode i) = true ∧ t = s.complete (commandFunction i (encode i) s.mem)) ∨
        (footprintAdmitted s.platform (encode i) = false ∧ t = s)) :=
  perform_cases (exec_eq_perform i s ▸ h)

theorem exec_enabled {i : Instr} {s : State} (h1 : footprintOrdinary s.platform (encode i) = true)
    (h2 : footprintAdmitted s.platform (encode i) = true) :
    exec i s = .next (s.complete (commandFunction i (encode i) s.mem)) := by
  rw [exec_eq_perform, perform_enabled h1 h2]

/-- Completing a command leaves everything but memory, free values and draws as 45_host_interface.md R166 says. -/
theorem completed_complete (s : State) (m : Memory) : Completed s (s.complete m) where
  block b hb := ⟨b.finish (freeLanes s.draws), by simp [hb], rfl, rfl, rfl, rfl, rfl, rfl⟩
  others n hn := by simp [Ne.symm hn]
  platform := rfl
  program := rfl
  replies := rfl
  turns := rfl
  engine := rfl

/-- Every command's function stores a number of its elements from OUT_BASE up, and nothing else; after a passing
check that is the out range. -/
theorem commandFunction_storesOut (i : Instr) (m : Memory) :
    ∃ k n, StoresOut k (encode i) n m (commandFunction i (encode i) m) ∧
      (check (encode i) = none → n * elemBytes k = (encode i).outLen.toNat) := by
  have hlen : ∀ op k, decodeCmd (encode i).cmd = some (op, k) → check (encode i) = none →
      requiredOut op k (encode i).aRows.toNat (encode i).aCols.toNat (encode i).bCols.toNat = (encode i).outLen.toNat := by
    intro op k hc h
    obtain ⟨op', k', hc', h, -⟩ := check_none h
    rw [hc] at hc'
    cases hc'
    exact h.symm
  cases i with
  | dmul32 o => exact ⟨_, _, denseMultiply_storesOut .k32 _ m, fun h => hlen .dense .k32 (encode_cmd _).2 h⟩
  | vmul32 o => exact ⟨_, _, vectorMultiply_storesOut .k32 _ m, fun h => hlen .vector .k32 (encode_cmd _).2 h⟩
  | emul32 o => exact ⟨_, _, expandMultiply_storesOut .k32 _ m, fun h => hlen .expand .k32 (encode_cmd _).2 h⟩
  | umul32 o => exact ⟨_, _, unpackMultiply_storesOut .k32 _ m, fun h => hlen .unpack .k32 (encode_cmd _).2 h⟩
  | dmul64 o => exact ⟨_, _, denseMultiply_storesOut .k64 _ m, fun h => hlen .dense .k64 (encode_cmd _).2 h⟩
  | vmul64 o => exact ⟨_, _, vectorMultiply_storesOut .k64 _ m, fun h => hlen .vector .k64 (encode_cmd _).2 h⟩
  | emul64 o => exact ⟨_, _, expandMultiply_storesOut .k64 _ m, fun h => hlen .expand .k64 (encode_cmd _).2 h⟩
  | umul64 o => exact ⟨_, _, unpackMultiply_storesOut .k64 _ m, fun h => hlen .unpack .k64 (encode_cmd _).2 h⟩

/-! ### START -/

/-- If a START answers, it was dropped, or it reported an error, or the command was latched. -/
theorem start_cases {s t : State} {n : Nat} {b : Block} (h : start s n b = .next t) :
    (b.busy = true ∧ t = s) ∨
      (b.busy = false ∧ ∃ e, check b.regs = some e ∧ t = s.updateBlock n fun b => b.clearStatus.errorEntry e) ∨
      (b.busy = false ∧ check b.regs = none ∧ footprintOrdinary s.platform b.regs = true ∧
        conflictsWithRunning s n b.regs = false ∧ t = s.updateBlock n fun b => b.clearStatus.latch) := by
  unfold start at h
  split_ifs at h with hb
  · cases h; exact .inl ⟨hb, rfl⟩
  · have hb : b.busy = false := by simpa using hb
    unfold acceptStart at h
    split at h
    · rename_i e he
      cases h; exact .inr (.inl ⟨hb, e, he, rfl⟩)
    · rename_i he
      split_ifs at h with h1 h2
      · cases h; exact .inr (.inr ⟨hb, he, h1, by simpa using h2, rfl⟩)

/-- No other running command conflicts with the started one (70_reset_and_hazards.md R220). -/
theorem conflictsWithRunning_eq_false {s : State} {n : Nat} {d : Descriptor} (h : conflictsWithRunning s n d = false)
    {m : Nat} {e : Descriptor} (hm : m ≠ n) (he : s.runningAt m = some e) : conflict d e = false := by
  have hlt : m < s.blocks.length := by
    obtain ⟨b, hb, -⟩ := runningAt_eq_some.1 he
    exact (List.getElem?_eq_some_iff.1 hb).1
  rw [conflictsWithRunning, List.any_eq_false] at h
  have := h m (List.mem_range.2 hlt)
  simpa [hm, he] using this

/-! ### The host -/

/-- If a host access answers, it breaches no hazard, every byte of it exists and is ordinary memory, and it went on. -/
theorem hostAccess_cases {s t u : State} {r : Region} {breach : Bool} (h : hostAccess s r breach u = .next t) :
    breach = false ∧ regionAdmitted s.platform r = true ∧ regionOrdinary s.platform r = true ∧ t = u := by
  unfold hostAccess at h
  split_ifs at h with h1 h2 h3
  cases h
  exact ⟨by simpa using h1, h2, h3, rfl⟩

theorem hostWrite_cases {s t : State} {a : Word} {bytes : List Byte} (h : hostWrite s a bytes = .next t) :
    meetsRunningFootprint s { base := a.toNat, size := bytes.length } = false ∧
      regionAdmitted s.platform { base := a.toNat, size := bytes.length } = true ∧
      regionOrdinary s.platform { base := a.toNat, size := bytes.length } = true ∧
      t = { s with mem := storeBytes s.mem a.toNat bytes } := hostAccess_cases h

theorem hostRead_cases {s t : State} {a : Word} {count : Nat} (h : hostRead s a count = .next t) :
    meetsRunningOut s { base := a.toNat, size := count } = false ∧
      regionAdmitted s.platform { base := a.toNat, size := count } = true ∧
      regionOrdinary s.platform { base := a.toNat, size := count } = true ∧
      t = s.answer (.memory (memRead s.mem a.toNat count)) := hostAccess_cases h

/-- A breach is refused, whatever memory it touches (70_reset_and_hazards.md R218). -/
@[simp] theorem hostAccess_breach (s t : State) (r : Region) : hostAccess s r true t = .refused .footprintHazard := rfl

/-- A region meets no running footprint when no byte of it is in one (70_reset_and_hazards.md R218). -/
theorem meetsRunningFootprint_eq_false_iff {s : State} {r : Region} :
    meetsRunningFootprint s r = false ↔
      ∀ n d a, s.runningAt n = some d → inRegion r a = true → inFootprint d a = false := by
  simp only [meetsRunningFootprint, List.any_eq_false, Option.any_eq_true, not_exists, not_and]
  constructor
  · intro h n d a hd ha
    obtain ⟨b, hb, hr⟩ := runningAt_eq_some.1 hd
    rw [inFootprint, List.any_eq_false]
    exact fun q hq hqa =>
      h b (List.mem_of_getElem? hb) d hr (List.any_eq_true.2 ⟨q, hq, regionsMeet_iff.2 ⟨a, ha, hqa⟩⟩)
  · intro h b hb d hr hm
    obtain ⟨n, hn⟩ := List.mem_iff_getElem?.1 hb
    obtain ⟨q, hq, hqm⟩ := List.any_eq_true.1 hm
    obtain ⟨a, ha, hqa⟩ := regionsMeet_iff.1 hqm
    have hf := h n d a (runningAt_eq_some.2 ⟨b, hn, hr⟩) ha
    rw [inFootprint, List.any_eq_false] at hf
    exact hf q hq hqa

theorem meetsRunningFootprint_eq_false {s : State} {r : Region} (h : meetsRunningFootprint s r = false) {n : Nat}
    {d : Descriptor} (hd : s.runningAt n = some d) {a : Nat} (ha : inRegion r a = true) : inFootprint d a = false :=
  meetsRunningFootprint_eq_false_iff.1 h n d a hd ha

/-- A region meets no running out range when no byte of it is in one (70_reset_and_hazards.md R218). -/
theorem meetsRunningOut_eq_false_iff {s : State} {r : Region} :
    meetsRunningOut s r = false ↔
      ∀ n d a, s.runningAt n = some d → inRegion r a = true → inRegion (outRange d) a = false := by
  simp only [meetsRunningOut, List.any_eq_false, Option.any_eq_true, not_exists, not_and]
  constructor
  · intro h n d a hd ha
    obtain ⟨b, hb, hr⟩ := runningAt_eq_some.1 hd
    by_contra hc
    exact h b (List.mem_of_getElem? hb) d hr (regionsMeet_iff.2 ⟨a, ha, by simpa using hc⟩)
  · intro h b hb d hr hm
    obtain ⟨n, hn⟩ := List.mem_iff_getElem?.1 hb
    obtain ⟨a, ha, hqa⟩ := regionsMeet_iff.1 hm
    rw [h n d a (runningAt_eq_some.2 ⟨b, hn, hr⟩) ha] at hqa
    cases hqa

theorem registerAccess_eq_some {s : State} {n off bits : Nat} {b : Block} {r : Reg} :
    registerAccess s n off bits = some (b, r) ↔ bits = 64 ∧ s.blocks[n]? = some b ∧ off = regOffset r := by
  unfold registerAccess
  constructor
  · intro h
    split_ifs at h with h1
    split at h
    · rename_i h2 h3
      cases h
      exact ⟨h1, h2, (regOffset_of_regAt h3).symm⟩
    · cases h
  · rintro ⟨rfl, hb, rfl⟩
    simp [hb, regAt_regOffset]

/-- What the host can change at one transaction: nothing but replies and its program; a descriptor register; STATUS
and LD by a START; or memory outside every running footprint. -/
inductive HostEffect (s t : State) : Prop where
  | replies (h : t = { s with replies := t.replies, program := t.program })
  | register (n : Nat) (r : Reg) (v : Word) (h : t = s.updateBlock n fun b => { b with regs := setReg b.regs r v })
  | error (n : Nat) (b : Block) (e : ErrorCode) (hb : s.blocks[n]? = some b) (hbusy : b.busy = false)
      (he : check b.regs = some e) (h : t = s.updateBlock n fun b => b.clearStatus.errorEntry e)
  | latch (n : Nat) (b : Block) (hb : s.blocks[n]? = some b) (hbusy : b.busy = false) (he : check b.regs = none)
      (ho : footprintOrdinary s.platform b.regs = true) (hc : conflictsWithRunning s n b.regs = false)
      (h : t = s.updateBlock n fun b => b.clearStatus.latch)
  | memory (a : Word) (bytes : List Byte)
      (ha : regionAdmitted s.platform { base := a.toNat, size := bytes.length } = true)
      (hf : meetsRunningFootprint s { base := a.toNat, size := bytes.length } = false)
      (h : t = { s with mem := storeBytes s.mem a.toNat bytes })

theorem writeReg_cases {s t : State} {n : Nat} {b : Block} {r : Reg} {v : Word} (hb : s.blocks[n]? = some b)
    (h : writeReg s n b r v = .next t) : HostEffect s t := by
  unfold writeReg at h
  split at h
  · split_ifs at h with hv
    · rcases start_cases h with ⟨-, rfl⟩ | ⟨hbusy, e, he, rfl⟩ | ⟨hbusy, he, ho, hc, rfl⟩
      · exact .replies rfl
      · exact .error n b e hb hbusy he rfl
      · exact .latch n b hb hbusy he ho hc rfl
    · cases h; exact .replies rfl
  · cases h; exact .replies rfl
  · cases h; exact .register n _ v rfl

/-- If a transaction answers, it had one of the host's effects. -/
theorem transact_cases {op : HostOp} {s t : State} (h : transact op s = .next t) : HostEffect s t := by
  unfold transact at h
  split at h
  · split at h
    · rename_i hr
      exact writeReg_cases (registerAccess_eq_some.1 hr).2.1 h
    · cases h
  · split at h
    · cases h; exact .replies rfl
    · cases h
  · obtain ⟨h1, h2, -, rfl⟩ := hostWrite_cases h
    exact .memory _ _ h2 h1 rfl
  · obtain ⟨-, -, -, rfl⟩ := hostRead_cases h
    exact .replies rfl
  · split at h
    · split_ifs at h <;> cases h <;> exact .replies rfl
    · cases h

/-- If the host's turn answers, no transaction was left, or the next one was taken off the program and had its effect. -/
theorem hostTurn_cases {s t : State} (h : hostTurn s = .next t) :
    t = s ∨ ∃ op rest, s.program = op :: rest ∧ transact op { s with program := rest } = .next t := by
  unfold hostTurn at h
  split at h
  · cases h; exact .inl rfl
  · rename_i op rest hp
    exact .inr ⟨op, rest, hp, h⟩

/-! ### Engines and the step -/

/-- If an engine's turn answers, its block was running nothing, or its latched command was performed. -/
theorem engineTurn_cases {n : Nat} {s t : State} (h : engineTurn n s = .next t) :
    (s.runningAt n = none ∧ t = s) ∨
      ∃ d i, s.runningAt n = some d ∧ decode d = .ok i ∧ exec i { s with engine := n } = .next t := by
  unfold engineTurn fetch at h
  cases hr : s.runningAt n with
  | none => rw [hr] at h; cases h; exact .inl ⟨rfl, rfl⟩
  | some d =>
    rw [hr] at h
    cases hd : decode d with
    | error e => simp [hd] at h
    | ok i => simp only [Option.map_some, hd] at h; exact .inr ⟨d, i, rfl, hd, h⟩

/-- A step is one move: of the first listed turn, or of the default one. -/
theorem step_eq_move (s : State) :
    step s = move (s.turns.head?.getD (defaultTurn s)) { s with turns := s.turns.tail } := by
  unfold step nextMove
  cases h : s.turns with
  | nil =>
    have : ({ s with turns := s.turns.tail } : State) = s := by rw [h]; cases s; simp_all
    rw [h] at this
    exact congrArg (move (defaultTurn s)) this.symm
  | cons t rest => rfl

/-- If a step answers, it was the host's turn, an engine's or a reset. -/
theorem step_cases {s t : State} (h : step s = .next t) :
    ∃ u : State, u = { s with turns := s.turns.tail } ∧
      (hostTurn u = .next t ∨ (∃ n, engineTurn n u = .next t) ∨ ∃ n, t = u.resetBlock n) := by
  rw [step_eq_move] at h
  refine ⟨_, rfl, ?_⟩
  unfold move at h
  split at h
  · exact .inl h
  · exact .inr (.inl ⟨_, h⟩)
  · cases h; exact .inr (.inr ⟨_, rfl⟩)

end Sys2Proof.Machine
end

