-- ==== Sys2Proof/Tests/Slice0.lean ====
section
/-! SUPPORT. Tests: one step of each command, decoding, well-formedness, the host's transactions, and a witness for the
hypotheses of each statement. Expected results are the spec's own: 95_test_vectors.md (ids in the comments) and the
command map of 30_encoding.md R74. -/

namespace Sys2Proof.Tests

open Sys2Proof.Machine Sys2Proof.Claims

/-! ### Helpers -/

/-- Elements stored from an address up. -/
def put (k : Kernel) (a : Nat) : List Nat → Memory → Memory
  | [], m => m
  | v :: vs, m => put k (a + elemBytes k) vs (writeElem k m a (BitVec.ofNat _ v))

/-- Elements read from an address up. -/
def get (k : Kernel) (m : Memory) (a : Nat) : Nat → List Nat
  | 0 => []
  | n + 1 => (readElem k m a).toNat :: get k m (a + elemBytes k) n

/-- The default machine with this memory, its block running this command, its engine next to move. -/
def running (i : Instr) (m : Memory) : State := ({ State.reset with mem := m }).withLatched (encode i)

/-- The state a step answers with. -/
def next (s : State) : Option State :=
  match step s with
  | .next t => some t
  | _ => none

/-- The elements at `a` after one step. -/
def outAfter (k : Kernel) (a n : Nat) (s : State) : Option (List Nat) := (next s).map fun t => get k t.mem a n

/-- STATUS of block 0. -/
def status (s : State) : Option Nat := s.blocks[0]?.map fun b => (statusWord b).toNat

def mat (out a b r k n ol al bl : Word) : MatOperands :=
  { out, a, b, aRows := r, aCols := k, bCols := n, outLen := ol, aLen := al, bLen := bl }

def vec (out a b r k ol al bl : Word) : VecOperands :=
  { out, a, b, aRows := r, aCols := k, outLen := ol, aLen := al, bLen := bl }

/-! ### One step of each command -/

/-- L2-2a: accumulates. -/
theorem test_dmul32_accumulates :
    outAfter .k32 0x1020 4 (running (.dmul32 (mat 0x1020 0x1000 0x1010 2 2 2 16 16 16))
      (put .k32 0x1020 [1, 1, 1, 1] (put .k32 0x1010 [5, 6, 7, 8] (put .k32 0x1000 [1, 2, 3, 4] [])))) =
      some [20, 23, 44, 51] := by decide +kernel

/-- L2-2b: a rectangular product. -/
theorem test_dmul32_rectangular :
    outAfter .k32 0x1030 2 (running (.dmul32 (mat 0x1030 0x1000 0x1020 2 3 1 8 24 12))
      (put .k32 0x1030 [1, 1] (put .k32 0x1020 [1, 0, 2] (put .k32 0x1000 [1, 2, 3, 4, 5, 6] [])))) =
      some [8, 17] := by decide +kernel

/-- L2-2e: products of `2^64` vanish. -/
theorem test_dmul64_wraps :
    outAfter .k64 0x1020 1 (running (.dmul64 (mat 0x1020 0x1000 0x1010 1 2 1 8 16 16))
      (put .k64 0x1020 [9] (put .k64 0x1010 [2 ^ 32, 2 ^ 32] (put .k64 0x1000 [2 ^ 32, 2 ^ 32] [])))) =
      some [9] := by decide +kernel

/-- L2-3a: overwrites and wraps. -/
theorem test_vmul32_overwrites :
    outAfter .k32 0x2010 1 (running (.vmul32 (vec 0x2010 0x2000 0x2008 1 2 4 8 8))
      (put .k32 0x2010 [0xDEADBEEF] (put .k32 0x2008 [1, 1] (put .k32 0x2000 [0xFFFFFFFF, 2] [])))) =
      some [1] := by decide +kernel

/-- L2-3c: with no terms, zeros are written. -/
theorem test_vmul32_no_terms :
    outAfter .k32 0x2010 2 (running (.vmul32 (vec 0x2010 0x2000 0x2008 2 0 8 0 0)) (put .k32 0x2010 [5, 6] [])) =
      some [0, 0] := by decide +kernel

/-- L2-3d. -/
theorem test_vmul64_wraps :
    outAfter .k64 0x2010 1 (running (.vmul64 (vec 0x2010 0x2000 0x2008 1 1 8 8 8))
      (put .k64 0x2010 [123] (put .k64 0x2008 [2 ^ 64 - 1] (put .k64 0x2000 [2 ^ 64 - 1] [])))) =
      some [1] := by decide +kernel

/-- L2-4b. -/
theorem test_emul32_wraps :
    outAfter .k32 0x3028 1 (running (.emul32 (mat 0x3028 0x3001 0x3018 1 1 1 4 4 4))
      (put .k32 0x3018 [3] (storeBytes [] 0x3001 [0xFF, 0xFF, 0xFF, 0xFF]))) = some [0xFFFFFFFD] := by decide +kernel

/-- L2-4d and L3-3: a seed at an odd address, little-endian, not sign-extended. -/
theorem test_emul64_unaligned_seed :
    outAfter .k64 0x3028 1 (running (.emul64 (mat 0x3028 0x3001 0x3018 1 2 1 8 16 16))
      (put .k64 0x3028 [10] (put .k64 0x3018 [2, 3] (storeBytes [] 0x3001
        ([0x01, 0, 0, 0, 0, 0, 0, 0x80] ++ List.replicate 8 0xFF))))) = some [9] := by decide +kernel

/-- L2-5c: slots 5, 7 and 2 of `0x00201C05`. -/
theorem test_umul32_accumulates :
    outAfter .k32 0x4060 8 (running (.umul32 (vec 0x4060 0x4000 0x4040 8 1 32 32 12))
      (put .k32 0x4060 (List.replicate 8 1000) (put .k32 0x4040 [1, 10, 100]
        (put .k32 0x4000 (List.replicate 8 0x00201C05) [])))) = some (List.replicate 8 1275) := by decide +kernel

/-- L3-5: the 9 at offset 40 has no effect. -/
theorem test_umul64_two_slots :
    outAfter .k64 0x6080 8 (running (.umul64 (vec 0x6080 0x6000 0x6040 8 1 64 64 16))
      (put .k64 0x6080 (List.replicate 8 1) (put .k64 0x6040 [10, 2 ^ 64 - 1]
        (put .k64 0x6000 ((List.range 8).map (0x0000090000400003 + ·)) [])))) =
      some [27, 37, 47, 57, 67, 77, 87, 97] := by decide +kernel

/-- L3-4: 8 rows of 2 words, wrapping, ignored bits. -/
theorem test_umul32_rows :
    outAfter .k32 0x4060 8 (running (.umul32 (vec 0x4060 0x4000 0x4040 8 2 32 64 24))
      (put .k32 0x4060 [0, 100, 200, 300, 400, 500, 600, 700] (put .k32 0x4040 [1, 2, 3, 4, 5, 0xFFFFFFFF]
        (put .k32 0x4000 [0x3FF00400, 0x00700000, 0x3FF00801, 0x00700002, 0x3FF00C02, 0x00700004, 0x3FF01003, 0x00700006,
          0x3FF01404, 0x00700008, 0x3FF01805, 0x0070000A, 0x3FF01C06, 0x0070000C, 0xFFF02007, 0x0070000E] [])))) =
      some [3064, 3175, 3286, 3397, 3508, 3619, 3730, 3841] := by decide +kernel

/-- Completion: STATUS is `0x2`, and LD is invalid (R166). -/
theorem test_completion_status :
    (next (running (.dmul32 (mat 0 0 0 0 0 0 0 0 0)) [])).map (fun t => (status t, t.runningAt 0)) =
      some (some 2, none) := by decide +kernel

/-! ### Decoding: the words of 30_encoding.md R74, bit by bit -/

theorem test_decode_dmul32 : (decodeTableWord 64 0b000).map (fun i => (i.op, i.kernel)) = some (.dense, .k32) := by decide
theorem test_decode_vmul32 : (decodeTableWord 64 0b001).map (fun i => (i.op, i.kernel)) = some (.vector, .k32) := by decide
theorem test_decode_emul32 : (decodeTableWord 64 0b010).map (fun i => (i.op, i.kernel)) = some (.expand, .k32) := by decide
theorem test_decode_umul32 : (decodeTableWord 64 0b011).map (fun i => (i.op, i.kernel)) = some (.unpack, .k32) := by decide
theorem test_decode_dmul64 : (decodeTableWord 64 0b100).map (fun i => (i.op, i.kernel)) = some (.dense, .k64) := by decide
theorem test_decode_vmul64 : (decodeTableWord 64 0b101).map (fun i => (i.op, i.kernel)) = some (.vector, .k64) := by decide
theorem test_decode_emul64 : (decodeTableWord 64 0b110).map (fun i => (i.op, i.kernel)) = some (.expand, .k64) := by decide
theorem test_decode_umul64 : (decodeTableWord 64 0b111).map (fun i => (i.op, i.kernel)) = some (.unpack, .k64) := by decide
theorem test_decode_reserved : decodeTableWord 64 0b1000 = none ∧ decodeTableWord 64 (2 ^ 63) = none := by decide

/-- The ten words of L3-4's command, in the order of the register offsets. -/
theorem test_decode_words :
    decodeWords [0x3, 0x4060, 0x4000, 0x4040, 8, 2, 0, 32, 64, 24] =
      .ok (.umul32 (vec 0x4060 0x4000 0x4040 8 2 32 64 24)) := by rfl

theorem test_decode_word_count : decodeWords [0x3] = .error .wordCount := by rfl

/-! ### Well-formedness: L2-6's base descriptor passes, and each change is refused -/

/-- L2-6's base descriptor: VMUL32 with A_ROWS 2 and A_COLS 2. -/
def base : VecOperands := vec 0x1000 0x2000 0x3000 2 2 8 16 8

theorem test_wf_base : (Instr.vmul32 base).wellFormed = true ∧ check (encode (.vmul32 base)) = none := by decide +kernel

/-- L2-6c: a required length of `2^65`. -/
theorem test_wf_dim : (Instr.dmul64 (mat 0 0 0 (2 ^ 62) 1 1 0 0 8)).wellFormed = false ∧
    check (encode (.dmul64 (mat 0 0 0 (2 ^ 62) 1 1 0 0 8))) = some .dim := by decide +kernel

/-- L2-6o: E_ROWS8 before the lengths. -/
theorem test_wf_rows8 : (Instr.umul32 { base with aRows := 7 }).wellFormed = false ∧
    check (encode (.umul32 { base with aRows := 7 })) = some .rows8 := by decide +kernel

/-- L2-6d. -/
theorem test_wf_lenOut : (Instr.vmul32 { base with outLen := 12 }).wellFormed = false ∧
    check (encode (.vmul32 { base with outLen := 12 })) = some .lenOut := by decide +kernel

/-- L2-6e. -/
theorem test_wf_lenA : (Instr.vmul32 { base with aLen := 8 }).wellFormed = false ∧
    check (encode (.vmul32 { base with aLen := 8 })) = some .lenA := by decide +kernel

/-- L2-6f, and L2-5h: UMUL64 needs 16, not 24. -/
theorem test_wf_lenB : (Instr.vmul32 { base with bLen := 16 }).wellFormed = false ∧
    check (encode (.vmul32 { base with bLen := 16 })) = some .lenB ∧
    check (encode (.umul64 (vec 0x6080 0x6000 0x6040 8 1 64 64 24))) = some .lenB := by decide +kernel

/-- L2-6g; and L2-6h: a seed needs no alignment. -/
theorem test_wf_align : (Instr.vmul32 { base with out := 0x1002 }).wellFormed = false ∧
    check (encode (.vmul32 { base with out := 0x1002 })) = some .align ∧
    check (encode (.emul32 (mat 0x1000 0x2001 0x3000 2 2 1 8 16 8))) = none := by decide +kernel

/-- L2-6i; and L2-6j: a buffer may end exactly at the top. -/
theorem test_wf_range : (Instr.vmul32 { base with out := 0xFFFFFFFFFFFFFFFC }).wellFormed = false ∧
    check (encode (.vmul32 { base with out := 0xFFFFFFFFFFFFFFFC })) = some .range ∧
    check (encode (.vmul32 { base with out := 0xFFFFFFFFFFFFFFF8 })) = none := by decide +kernel

/-- L2-6k; L2-6l: touching is no overlap; L2-6m: A and B may overlap. -/
theorem test_wf_aliased : (Instr.vmul32 { base with out := 0x200C }).wellFormed = false ∧
    check (encode (.vmul32 { base with out := 0x200C })) = some .aliased ∧
    check (encode (.vmul32 { base with out := 0x2010 })) = none ∧
    check (encode (.vmul32 { base with b := 0x2000 })) = none := by decide +kernel

/-! ### The host -/

/-- L3-6's first START: UMUL32 with 7 rows gives STATUS `0x306`. -/
theorem test_error_status :
    (next { State.reset with
      blocks := [{ Block.afterReset (Vector.replicate 8 0) with
        regs := encode (.umul32 (vec 0x5000 0x5100 0x5200 7 1 28 28 12)) }]
      program := [WR 0 .ctrl 1], turns := [.host] }).bind status = some 0x306 := by decide +kernel

/-- A memory write and read, little-endian (00_scope.md R11). -/
theorem test_host_memory :
    (next { State.reset with program := [MW 4 0x1000 0x12345678], turns := [.host] }).map (·.mem) =
      some [(0x1000, 0x78), (0x1001, 0x56), (0x1002, 0x34), (0x1003, 0x12)] := by decide +kernel

/-- 40_datapath.md R95's worked example. -/
theorem test_slots : (List.range 3).map (fun s => (slot .k32 0x00201C05 s).toNat) = [5, 7, 2] := by decide

/-! ### Witnesses: concrete states and operands that meet a statement's hypotheses -/

/-- A 2 by 2 product over L2-2a's memory. -/
def denseOps : MatOperands := mat 0x1020 0x1000 0x1010 2 2 2 16 16 16
def denseOps64 : MatOperands := mat 0x1040 0x1000 0x1020 2 2 2 32 32 32
def vectorOps64 : VecOperands := vec 0x1000 0x2000 0x3000 2 2 16 32 16
def unpackOps : VecOperands := vec 0x4060 0x4000 0x4040 8 1 32 32 12
def unpackOps64 : VecOperands := vec 0x6080 0x6000 0x6040 8 1 64 64 16

/-- A machine whose memory is not empty. -/
def filled : State := { State.reset with mem := put .k32 0x1000 [1, 2, 3, 4, 5, 6, 7, 8, 9] [] }

theorem witness_matrix_results :
    (∀ i ∈ [Instr.dmul32 denseOps, .emul32 denseOps, .dmul64 denseOps64, .emul64 denseOps64],
      i.wellFormed = true ∧ Memory.wf filled.mem = true ∧ footprintOrdinary filled.platform (encode i) = true ∧
        footprintAdmitted filled.platform (encode i) = true) ∧
    filled.blocks[filled.engine]?.isSome = true ∧ 1 < denseOps.aRows.toNat ∧ 1 < denseOps.bCols.toNat := by decide +kernel

theorem witness_vector_results :
    ∀ i ∈ [Instr.vmul32 base, .umul32 unpackOps, .vmul64 vectorOps64, .umul64 unpackOps64],
      i.wellFormed = true ∧ Memory.wf filled.mem = true ∧ footprintOrdinary filled.platform (encode i) = true ∧
        footprintAdmitted filled.platform (encode i) = true := by decide +kernel

theorem performable_of {i : Instr} {s : State}
    (h : i.wellFormed = true ∧ Memory.wf s.mem = true ∧ footprintOrdinary s.platform (encode i) = true ∧
      footprintAdmitted s.platform (encode i) = true) : performable i s := h

theorem witness_accumulates : performable (.dmul32 denseOps) filled ∧ performable (.dmul64 denseOps64) filled :=
  ⟨performable_of (by decide +kernel), performable_of (by decide +kernel)⟩

/-- A second pair of operands with one column in A. -/
theorem witness_chains :
    performable (.dmul32 { denseOps with a := 0x2000, b := 0x3000, aCols := 1, aLen := 8, bLen := 8 }) filled ∧
    performable (.dmul64 { denseOps64 with a := 0x2000, b := 0x3000, aCols := 1, aLen := 16, bLen := 16 }) filled :=
  ⟨performable_of (by decide +kernel), performable_of (by decide +kernel)⟩

/-- Two states that differ in the out range of `base` alone. -/
theorem witness_overwrites :
    let s' : State := { filled with mem := put .k32 0x1004 [77] filled.mem }
    performable (.vmul32 base) filled ∧ performable (.vmul32 base) s' ∧
      (∀ x, inRegion (outRange (encode (.vmul32 base))) x = false → Memory.read s'.mem x = Memory.read filled.mem x) ∧
      Memory.read s'.mem 0x1004 ≠ Memory.read filled.mem 0x1004 := by
  refine ⟨performable_of (by decide +kernel), performable_of (by decide +kernel), ?_, by decide +kernel⟩
  intro x hx
  have hx : ¬ (0x1000 ≤ x ∧ x < 0x1000 + 8) := by
    intro h
    have : inRegion (outRange (encode (.vmul32 base))) x = true := by
      have hb : outRange (encode (.vmul32 base)) = { base := 0x1000, size := 8 } := by decide +kernel
      rw [hb]; simp [inRegion, h.1, h.2]
    rw [hx] at this; cases this
  have hm : put .k32 0x1004 [77] filled.mem =
      [(0x1000, 1), (0x1004, 77), (0x1008, 3), (0x100C, 4), (0x1010, 5), (0x1014, 6), (0x1018, 7), (0x101C, 8),
        (0x1020, 9)] := by decide +kernel
  have hm' : filled.mem =
      [(0x1000, 1), (0x1004, 2), (0x1008, 3), (0x100C, 4), (0x1010, 5), (0x1014, 6), (0x1018, 7), (0x101C, 8),
        (0x1020, 9)] := by decide +kernel
  show Memory.read (put .k32 0x1004 [77] filled.mem) x = Memory.read filled.mem x
  have hne : ¬ 0x1004 = x := by omega
  rw [hm, hm']
  simp [Memory.read, hne]

/-- The overwrite law's 64-bit command, over one state. -/
theorem witness_overwrites64 : performable (.vmul64 vectorOps64) filled := performable_of (by decide +kernel)

/-- The seed already lies, aligned, where the decoded matrix is asked for: the second state is the first. -/
theorem witness_expands_as_dense :
    (performable (.emul32 denseOps) filled ∧ performable (.dmul32 { denseOps with a := denseOps.a }) filled ∧
      denseOps.a.toNat % 4 = 0) ∧
    (performable (.emul64 denseOps64) filled ∧ performable (.dmul64 { denseOps64 with a := denseOps64.a }) filled ∧
      denseOps64.a.toNat % 8 = 0) :=
  ⟨⟨performable_of (by decide +kernel), performable_of (by decide +kernel), by decide⟩,
    ⟨performable_of (by decide +kernel), performable_of (by decide +kernel), by decide⟩⟩

/-- Eight packed words `0x00201C05` at `0x4000`, their unpacked matrix `[5, 7, 2]` in each row at `0x8000`. -/
def packedState : State :=
  { State.reset with
    mem := put .k32 0x8000 ((List.replicate 8 [5, 7, 2]).flatten)
      (put .k32 0x4040 [1, 10, 100] (put .k32 0x4000 (List.replicate 8 0x00201C05) [])) }

theorem witness_unpacks_as_vector :
    performable (.umul32 unpackOps) packedState ∧
    performable (.vmul32 { unpackOps with a := 0x8000, aCols := 3, aLen := 96 }) packedState ∧
    (3 : Word).toNat = 3 * unpackOps.aCols.toNat ∧
    (∀ i < 8, ∀ j < 1, ∀ c < 3,
      BitVec.ofNat 32 (memRead packedState.mem (0x8000 + (i * 3 + (j * 3 + c)) * 4) 4) =
        BitVec.ofNat 32 (memRead packedState.mem (0x4000 + (i * 1 + j) * 4) 4 / 2 ^ (c * 10) % 2 ^ 10)) :=
  ⟨performable_of (by decide +kernel), performable_of (by decide +kernel), by decide, by decide +kernel⟩

/-- The same with zeros, for 64 bits. -/
theorem witness_unpacks_as_vector64 :
    performable (.umul64 unpackOps64) State.reset ∧
    performable (.vmul64 { unpackOps64 with a := 0x8000, aCols := 2, aLen := 128 }) State.reset ∧
    (2 : Word).toNat = 2 * unpackOps64.aCols.toNat ∧
    (∀ i < 8, ∀ j < 1, ∀ c < 2,
      BitVec.ofNat 64 (memRead State.reset.mem (0x8000 + (i * 2 + (j * 2 + c)) * 8) 8) =
        BitVec.ofNat 64 (memRead State.reset.mem (0x6000 + (i * 1 + j) * 8) 8 / 2 ^ (c * 20) % 2 ^ 20)) :=
  ⟨performable_of (by decide +kernel), performable_of (by decide +kernel), by decide, by decide +kernel⟩

/-- Packed words that differ in an ignored bit alone. -/
theorem witness_ignores_high_bits :
    let s : State := { State.reset with mem := put .k32 0x4000 [0x00201C05] [] }
    let s' : State := { State.reset with mem := put .k32 0x4000 [0xC0201C05] [] }
    performable (.umul32 unpackOps) s ∧ performable (.umul32 unpackOps) s' ∧
      (∀ p < 8, memRead s'.mem (0x4000 + p * 4) 4 % 2 ^ 30 = memRead s.mem (0x4000 + p * 4) 4 % 2 ^ 30) ∧
      memRead s'.mem 0x4000 4 ≠ memRead s.mem 0x4000 4 ∧
      (∀ x, x < 0x4000 ∨ 0x4004 ≤ x → Memory.read s'.mem x = Memory.read s.mem x) := by
  refine ⟨performable_of (by decide +kernel), performable_of (by decide +kernel), by decide +kernel, by decide +kernel, ?_⟩
  intro x hx
  have h1 : put .k32 0x4000 [0xC0201C05] [] = [(0x4000, 5), (0x4001, 28), (0x4002, 32), (0x4003, 192)] := by decide +kernel
  have h2 : put .k32 0x4000 [0x00201C05] [] = [(0x4000, 5), (0x4001, 28), (0x4002, 32)] := by decide +kernel
  show Memory.read (put .k32 0x4000 [0xC0201C05] []) x = Memory.read (put .k32 0x4000 [0x00201C05] []) x
  rw [h1, h2]
  have hne : ¬ 0x4003 = x := by omega
  simp [Memory.read, hne]

/-- Every operation has a command with an empty dimension whose footprint exists and is ordinary. -/
theorem witness_zero_dimensions :
    ∀ i ∈ [Instr.dmul32 (mat 0x1000 0x2000 0x3000 2 0 2 16 0 0), .emul64 (mat 0x1000 0x2001 0x3000 0 2 2 0 0 32),
        .vmul32 (vec 0x1000 0x2000 0x3000 2 0 8 0 0), .umul64 (vec 0x1000 0x2000 0x3000 8 0 64 0 0)],
      i.wellFormed = true ∧ footprintOrdinary State.reset.platform (encode i) = true ∧
        footprintAdmitted State.reset.platform (encode i) = true := by decide +kernel

theorem witness_commands_write_only_out :
    Memory.wf filled.mem = true ∧ check (encode (.dmul32 denseOps)) = none ∧
      (∃ t, exec (.dmul32 denseOps) filled = .next t) ∧ inRegion (outRange (encode (.dmul32 denseOps))) 0x101F = false ∧
      inRegion (outRange (encode (.dmul32 denseOps))) 0x1030 = false := by
  refine ⟨by decide +kernel, by decide +kernel, ⟨_, rfl⟩, by decide +kernel, by decide +kernel⟩

/-- CMD values 7 and 8, on both sides of the legal ones. -/
theorem witness_decode_boundary :
    (7 : Word).toNat < 8 ∧ 8 ≤ (8 : Word).toNat ∧ decode { zeroDescriptor with cmd := 7 } = .ok (.umul64 (vec 0 0 0 0 0 0 0 0)) := by
  refine ⟨by decide, by decide, by rfl⟩

/-- A descriptor that decodes, one that fails each check (in the tests above), one that passes. -/
theorem witness_check : check (encode (.vmul32 base)) = none ∧ check { zeroDescriptor with cmd := 8 } = some .opcode := by
  decide +kernel

/-- Two blocks, each running a command over its own buffers; the host and an engine still to move. -/
def twoRunning : State :=
  { State.resetOn { defaultPlatform with regBase := [0xFFFFFFFFFFFF0000, 0xFFFFFFFFFFFF1000] } with
    blocks := [{ Block.afterReset (Vector.replicate 8 0) with busy := true, latched := some (encode (.dmul32 denseOps)) },
      { Block.afterReset (Vector.replicate 8 0) with busy := true, latched := some (encode (.vmul64 vectorOps64)) }] }

/-- The second command laid elsewhere, so that the two do not conflict. -/
def apart : State :=
  { twoRunning with
    blocks := [{ Block.afterReset (Vector.replicate 8 0) with busy := true, latched := some (encode (.dmul32 denseOps)) },
      { Block.afterReset (Vector.replicate 8 0) with
        busy := true, latched := some (encode (.vmul64 { vectorOps64 with out := 0x5000 })) }] }

theorem good_running_block (p : Platform) (d : Descriptor) (h1 : check d = none) (h2 : footprintOrdinary p d = true)
    (acc : Vector Word 8) : Block.Good p { Block.afterReset acc with busy := true, latched := some d } :=
  { errCode := by simp [Block.afterReset]
    busy := fun _ => ⟨rfl, rfl⟩
    errDone := fun h => by cases h
    reported := Nat.zero_le _
    latched := rfl
    checked := fun e he => by cases he; exact h1
    ordinary := fun e he => by cases he; exact h2 }

/-- A block after reset is good. -/
theorem good_idle_block (p : Platform) (acc : Vector Word 8) : Block.Good p (Block.afterReset acc) :=
  { errCode := by simp [Block.afterReset]
    busy := fun h => by cases h
    errDone := fun h => by cases h
    reported := Nat.zero_le _
    latched := rfl
    checked := fun e he => by cases he
    ordinary := fun e he => by cases he }

/-- A state of two good blocks whose commands do not conflict, with nothing listed in memory, is good. -/
theorem good_pair {s : State} {b c : Block} (hm : s.mem = []) (hs : s.blocks = [b, c])
    (hl : s.platform.regBase.length = 2) (hb : Block.Good s.platform b) (hc : Block.Good s.platform c)
    (ha : ∀ d e, b.running = some d → c.running = some e → conflict d e = false) : State.Good s := by
  have h0 : s.runningAt 0 = b.running := by simp [State.runningAt, hs]
  have h1 : s.runningAt 1 = c.running := by simp [State.runningAt, hs]
  have h2 : ∀ n, s.runningAt (n + 2) = none := fun n => by simp [State.runningAt, hs]
  refine ⟨by rw [hm]; rfl, by simp [hm], by rw [hs, hl]; rfl, ?_, ?_⟩
  · intro x hx
    rw [hs] at hx
    rcases List.mem_cons.1 hx with rfl | hx
    · exact hb
    · rw [List.mem_singleton.1 hx]; exact hc
  · intro n m d e hnm hd he
    match n, m with
    | 0, 0 => exact absurd rfl hnm
    | 1, 1 => exact absurd rfl hnm
    | 0, 1 => exact ha d e (h0 ▸ hd) (h1 ▸ he)
    | 1, 0 => rw [conflict_comm]; exact ha e d (h0 ▸ he) (h1 ▸ hd)
    | n + 2, _ => rw [h2] at hd; cases hd
    | _, m + 2 => rw [h2] at he; cases he

theorem witness_good : State.Good apart ∧ apart.runningAt 0 = some (encode (.dmul32 denseOps)) ∧
    apart.runningAt 1 = some (encode (.vmul64 { vectorOps64 with out := 0x5000 })) ∧
    footprintAdmitted apart.platform (encode (.dmul32 denseOps)) = true ∧
    footprintAdmitted apart.platform (encode (.vmul64 { vectorOps64 with out := 0x5000 })) = true := by
  refine ⟨good_pair rfl rfl rfl (good_running_block _ _ (by decide +kernel) (by decide +kernel) _)
    (good_running_block _ _ (by decide +kernel) (by decide +kernel) _) ?_, rfl, rfl, by decide +kernel, by decide +kernel⟩
  intro d e hd he
  cases hd
  cases he
  decide +kernel

/-- From the good state above, a host's turn, an engine's turn and a reset each answer. -/
theorem witness_good_steps :
    (∃ t, step { apart with turns := [.host], program := [WR 0 .aRows 99] } = .next t) ∧
    (∃ t, step { apart with turns := [.engine 0] } = .next t) ∧
    (∃ t, step { apart with turns := [.reset 0] } = .next t) ∧ ∃ t, step apart = .next t :=
  ⟨⟨_, rfl⟩, ⟨_, rfl⟩, ⟨_, rfl⟩, ⟨_, rfl⟩⟩

/-- An engine's turn of a running block whose descriptor decodes; a table word for block 0. -/
theorem witness_step :
    apart.runningAt 0 = some (encode (.dmul32 denseOps)) ∧
      decode (encode (.dmul32 denseOps)) = .ok (.dmul32 denseOps) ∧
      State.reset.blocks[0]?.isSome = true ∧ (decodeTableWord 64 7).isSome = true := by
  refine ⟨rfl, rfl, rfl, by decide⟩

/-- An idle block with this descriptor, and a START to make. -/
def idle (d : Descriptor) : State :=
  { State.reset with
    blocks := [{ Block.afterReset (Vector.replicate 8 0) with regs := d }]
    program := [WR 0 .ctrl 1], turns := [.host] }

/-- The hypotheses of the START statements, for a failing and a passing check, with no other running block. -/
theorem witness_start :
    (idle (encode (.vmul32 { base with outLen := 12 }))).blocks[0]?.map
        (fun b => (b.busy, check b.regs)) = some (false, some .lenOut) ∧
      (idle (encode (.vmul32 base))).blocks[0]?.map (fun b => (b.busy, check b.regs)) = some (false, none) ∧
      footprintOrdinary State.reset.platform (encode (.vmul32 base)) = true ∧ (1 : Word).getLsbD 0 = true := by
  decide +kernel

/-- A BUSY block that is sent START, a descriptor write, a read, a POLL; a CTRL value with bit 0 clear (L2-7e). -/
theorem witness_register_steps :
    (apart.blocks[0]?).map Block.busy = some true ∧ (idle zeroDescriptor).blocks[0]?.map Block.busy = some false ∧
      (0xFFFFFFFFFFFFFFFE : Word).getLsbD 0 = false := by decide +kernel

/-- Offsets and widths on the boundary of a legal access. -/
theorem witness_unmapped :
    regAt 0x58 = some .status ∧ regAt 0x60 = none ∧ regAt 0x59 = none ∧
      step { State.reset with program := [.regRead 0 0x60 64], turns := [.host] } = .refused .noSuchRegister ∧
      step { State.reset with program := [.regRead 0 0x59 64], turns := [.host] } = .refused .noSuchRegister ∧
      step { State.reset with program := [.regWrite 0 0x58 32 0], turns := [.host] } = .refused .noSuchRegister :=
  ⟨rfl, rfl, rfl, rfl, rfl, rfl⟩

/-- The first and last bytes of a running footprint and out range, and bytes of A, which the host may read. -/
theorem witness_footprint_hazard :
    regionAdmitted apart.platform { base := 0x1000, size := 16 } = true ∧
      regionOrdinary apart.platform { base := 0x1000, size := 16 } = true ∧
      inFootprint (encode (.dmul32 denseOps)) 0x1000 = true ∧ inFootprint (encode (.dmul32 denseOps)) 0x102F = true ∧
      inRegion (outRange (encode (.dmul32 denseOps))) 0x102F = true ∧
      meetsRunningOut apart { base := 0x1000, size := 16 } = false ∧
      meetsRunningFootprint apart { base := 0x9000, size := 8 } = false := by decide +kernel

/-- Block 1 idle with a passing command whose out range holds a byte of the footprint that block 0 runs. -/
theorem witness_cross_block :
    check (encode (.vmul32 { base with out := 0x1018, a := 0x2000 })) = none ∧
      footprintOrdinary twoRunning.platform (encode (.vmul32 { base with out := 0x1018, a := 0x2000 })) = true ∧
      inRegion (outRange (encode (.vmul32 { base with out := 0x1018, a := 0x2000 }))) 0x1018 = true ∧
      inFootprint (encode (.dmul32 denseOps)) 0x1018 = true := by decide +kernel

/-- A passing command over the register window: its first and last bytes. -/
theorem witness_device :
    check (encode (.vmul32 { base with b := 0xFFFFFFFFFFFF0058 })) = none ∧
      inFootprint (encode (.vmul32 { base with b := 0xFFFFFFFFFFFF0058 })) 0xFFFFFFFFFFFF005F = true ∧
      inRegion { base := 0xFFFFFFFFFFFF0000, size := 0x60 } 0xFFFFFFFFFFFF005F = true ∧
      inRegion { base := 0xFFFFFFFFFFFF0000, size := 0x60 } 0xFFFFFFFFFFFF0060 = false := by decide +kernel

/-- Two running commands, and a platform on which the last byte of the first one's out range does not exist. -/
def stuck : State :=
  { apart with platform := { apart.platform with absent := [{ base := 0x102F, size := 1 }, { base := 0x9000, size := 1 }] } }

/-- The stuck command's state is good, a host's turn, an engine's and the default turn each answer from it, and its
descriptor meets the hypotheses of the engine's own turn. -/
theorem witness_missing_memory :
    State.Good stuck ∧ stuck.runningAt 0 = some (encode (.dmul32 denseOps)) ∧
      inFootprint (encode (.dmul32 denseOps)) 0x102F = true ∧ memAdmits stuck.platform 0x102F = false ∧
      memAdmits stuck.platform 0x102E = true ∧ memAdmits stuck.platform (2 ^ 64) = false ∧
      footprintOrdinary stuck.platform (encode (.dmul32 denseOps)) = true ∧
      decode (encode (.dmul32 denseOps)) = .ok (.dmul32 denseOps) ∧
      (∃ t, step { stuck with turns := [.engine 0] } = .next t) ∧ (∃ t, step { stuck with turns := [.host] } = .next t) ∧
      ∃ t, step stuck = .next t := by
  refine ⟨good_pair rfl rfl rfl (good_running_block _ _ (by decide +kernel) (by decide +kernel) _)
    (good_running_block _ _ (by decide +kernel) (by decide +kernel) _) ?_, rfl, by decide +kernel, by decide +kernel,
    by decide +kernel, by decide +kernel, by decide +kernel, rfl, ⟨_, rfl⟩, ⟨_, rfl⟩, ⟨_, rfl⟩⟩
  intro d e hd he
  cases hd
  cases he
  decide +kernel

/-- Why the host stops at its next turn, if it does. -/
def refusal (s : State) : Option Refusal :=
  match step s with
  | .refused r => some r
  | _ => none

/-- R218: a breach is refused as one, though it touches a byte that does not exist; R189: without one, such an access is
refused and is no fault. -/
theorem test_host_refusals :
    refusal { stuck with program := [MW 4 0x102C 7], turns := [.host] } = some .footprintHazard ∧
      refusal { stuck with program := [MR 1 0x102F], turns := [.host] } = some .footprintHazard ∧
      refusal { stuck with program := [MW 1 0x9000 7], turns := [.host] } = some .noSuchMemory ∧
      refusal { stuck with program := [MR 8 0xFFFFFFFFFFFFFFF9], turns := [.host] } = some .noSuchMemory := by
  decide +kernel

/-- A write and a read of bytes that no running command's footprint holds: the next missing byte is one below. -/
theorem witness_host_write :
    let s : State := { stuck with program := [MW 4 0x9001 0x11223344, MR 4 0x9001], turns := [.host, .host] }
    Memory.wf s.mem = true ∧ regionAdmitted s.platform { base := 0x9001, size := 4 } = true ∧
      regionOrdinary s.platform { base := 0x9001, size := 4 } = true ∧
      (∀ m d x, s.runningAt m = some d → 0x9001 ≤ x → x < 0x9001 + 4 → inFootprint d x = false) ∧
      ∃ t, step s = .next t ∧ Memory.read t.mem 0x9001 = 0x44 ∧ Memory.read t.mem 0x9004 = 0x11 := by
  refine ⟨by decide +kernel, by decide +kernel, by decide +kernel, ?_, ⟨_, rfl, by decide +kernel, by decide +kernel⟩⟩
  intro m d x hd h1 h2
  exact meetsRunningFootprint_eq_false (r := { base := 0x9001, size := 4 }) (by decide +kernel) hd (inRegion_iff.2 ⟨h1, h2⟩)

/-- A host access that breaks no hazard and whose first or last byte does not exist. -/
theorem witness_host_missing :
    memAdmits stuck.platform 0x9000 = false ∧
      (∀ m d y, stuck.runningAt m = some d → 0x8FFF ≤ y → y < 0x8FFF + 2 → inFootprint d y = false) ∧
      (∀ m d y, stuck.runningAt m = some d → 0x9000 ≤ y → y < 0x9000 + 1 → inRegion (outRange d) y = false) := by
  have key : ∀ m d y, stuck.runningAt m = some d → 0x8FFF ≤ y → y < 0x8FFF + 2 → inFootprint d y = false :=
    fun m d y hd h1 h2 =>
      meetsRunningFootprint_eq_false (r := { base := 0x8FFF, size := 2 }) (by decide +kernel) hd (inRegion_iff.2 ⟨h1, h2⟩)
  refine ⟨by decide +kernel, key, fun m d y hd h1 h2 => ?_⟩
  have h := key m d y hd (by omega) (by omega)
  rw [inFootprint, List.any_eq_false] at h
  exact Bool.eq_false_iff.2 (h (outRange d) (by simp [footprint]))

/-- The schedule statement's hypotheses, one descriptor for each operation. -/
theorem witness_schedules :
    ∀ i ∈ [Instr.dmul32 denseOps, .vmul32 base, .emul64 denseOps64, .umul64 unpackOps64],
      check (encode i) = none ∧ decodeCmd (encode i).cmd = some (i.op, i.kernel) := by decide +kernel

/-- A permutation that is not the identity. -/
theorem witness_ring_sum : [2, 0, 1].Perm (List.range 3) := by decide

/-- A block that keeps the STATUS invariants with an error reported. -/
theorem witness_status_word :
    Block.Good defaultPlatform ((Block.afterReset (Vector.replicate 8 0)).errorEntry .lenOut) ∧
      statusWord ((Block.afterReset (Vector.replicate 8 0)).errorEntry .lenOut) = 0x406 := by
  refine ⟨⟨?_, ?_, ?_, ?_, ?_, ?_, ?_⟩, by decide⟩
  · simp [Block.errorEntry, errorNumber]
  · intro h; cases h
  · intro _; rfl
  · decide
  · rfl
  · intro d hd; cases hd
  · intro d hd; cases hd

/-- A running block that a reset aborts, with an out range of 16 bytes. -/
theorem witness_reset : apart.blocks[0]?.isSome = true ∧ Memory.wf apart.mem = true ∧
    (encode (.dmul32 denseOps)).outLen.toNat = 16 ∧ memAdmits apart.platform 0x1020 = true := by decide +kernel

/-- A platform with a block. -/
theorem witness_platform : defaultPlatform.regBase ≠ [] := by decide

/-- No turn listed and an enabled Perform: the second block is enabled too. -/
theorem witness_default_turn : apart.turns = [] ∧ performEnabled apart 1 = true ∧ performEnabled apart 0 = true := by
  decide +kernel

/-- Block 0 running, block 1 idle, and a pseudo-instruction to be run on block 1. -/
def beside : State :=
  { apart with
    blocks := [{ Block.afterReset (Vector.replicate 8 0) with busy := true, latched := some (encode (.dmul32 denseOps)) },
      Block.afterReset (Vector.replicate 8 0)]
    program := expand 1 (.vmul32 { base with out := 0x5000 }) ++ [RD 1 .status]
    turns := List.replicate 11 .host ++ .engine 1 :: .host :: [.host] }

theorem witness_pseudo_instruction :
    State.Good beside ∧ beside.blocks[1]?.map Block.busy = some false ∧
      (Instr.vmul32 { base with out := 0x5000 }).wellFormed = true ∧
      footprintOrdinary beside.platform (encode (.vmul32 { base with out := 0x5000 })) = true ∧
      footprintAdmitted beside.platform (encode (.vmul32 { base with out := 0x5000 })) = true ∧
      ∀ m d, m ≠ 1 → beside.runningAt m = some d → conflict (encode (.vmul32 { base with out := 0x5000 })) d = false := by
  refine ⟨good_pair rfl rfl rfl (good_running_block _ _ (by decide +kernel) (by decide +kernel) _) (good_idle_block _ _)
    (fun d e hd he => by cases he), rfl, by decide +kernel, by decide +kernel, by decide +kernel, ?_⟩
  intro m d hm hd
  match m with
  | 0 => cases hd; decide +kernel
  | 1 => exact absurd rfl hm
  | m + 2 => cases hd

/-- Two states that agree on a footprint and not outside it, for DMUL; and on A and B alone, for VMUL. -/
theorem witness_result_depends_on_footprint :
    let s' : State := { filled with mem := put .k32 0x9000 [5] filled.mem }
    performable (.dmul32 denseOps) filled ∧ performable (.dmul32 denseOps) s' ∧
      (∀ x, inFootprint (encode (.dmul32 denseOps)) x = true → Memory.read s'.mem x = Memory.read filled.mem x) ∧
      Memory.read s'.mem 0x9000 ≠ Memory.read filled.mem 0x9000 ∧ performable (.vmul32 base) filled := by
  refine ⟨performable_of (by decide +kernel), performable_of (by decide +kernel), ?_, by decide +kernel,
    performable_of (by decide +kernel)⟩
  intro x hx
  have hlt : x ≠ 0x9000 := by
    rintro rfl
    revert hx
    decide +kernel
  have hm : put .k32 0x9000 [5] filled.mem = Memory.write filled.mem 0x9000 5 := by decide +kernel
  show Memory.read (put .k32 0x9000 [5] filled.mem) x = Memory.read filled.mem x
  rw [hm, Memory.read_write (by decide +kernel), if_neg hlt]

/-- Each kind of turn that draws, and one that does not. -/
theorem witness_draws :
    (∃ t, step { apart with turns := [.engine 0] } = .next t ∧ t.draws = apart.draws + 8) ∧
      performEnabled apart 0 = true ∧ defaultTurn apart = .engine 0 ∧
      (∃ t, step { apart with turns := [.reset 0] } = .next t ∧ t.draws = apart.draws + 16 + 8) ∧
      (∃ t, step { apart with turns := [.reset 2] } = .next t ∧ t.draws = apart.draws) ∧ apart.blocks[2]? = none :=
  ⟨⟨_, rfl, rfl⟩, by decide +kernel, by decide +kernel, ⟨_, rfl, rfl⟩, ⟨_, rfl, rfl⟩, rfl⟩

end Sys2Proof.Tests
end

section
/-! The host's register transactions (10_state.md R20 to R29): what a step on a register access is, what a descriptor
write stores, and what refuses an access. -/

namespace Sys2Proof.Machine

/-! ### The host's step -/

/-- A step whose listed turn is the host's is the host's next transaction, with turn and transaction taken. -/
theorem step_host {s : State} {op : HostOp} {prog : List HostOp} {rest : List Turn} (ht : s.turns = .host :: rest)
    (hp : s.program = op :: prog) : step s = transact op { s with turns := rest, program := prog } := by
  simp [step, nextMove, ht, move, hostTurn, hp]

/-- Changing block `n` at the host's turn is all that `OnlyBlock` allows. -/
theorem onlyBlock_updateBlock {s : State} {op : HostOp} {prog : List HostOp} {rest : List Turn}
    (ht : s.turns = .host :: rest) (hp : s.program = op :: prog) (n : Nat) (f : Block → Block) :
    OnlyBlock n s (({ s with turns := rest, program := prog } : State).updateBlock n f) where
  others _ hm := updateBlock_other _ _ _ hm
  mem := rfl
  platform := rfl
  program := by simp [hp]
  replies := rfl
  turns := by simp [ht]
  engine := rfl
  draws := rfl

/-- An update that keeps what its block is running changes no block's running command. -/
theorem updateBlock_runningAt {f : Block → Block} (hf : ∀ b, (f b).running = b.running) (s : State) (n m : Nat) :
    (s.updateBlock n f).runningAt m = s.runningAt m := by
  rw [State.runningAt, State.runningAt, updateBlock_blocks]
  split
  · rw [Option.bind_map]
    exact congrArg (Option.bind _) (funext hf)
  · rfl

/-! ### Mapped registers -/

/-- Every register is at a multiple of 8 below `0x60` (10_state.md R20). -/
theorem regOffset_mapped (r : Reg) : regOffset r < 0x60 ∧ regOffset r % 8 = 0 := by cases r <;> decide

/-- A `WR` to a block that is there reaches the register it names. -/
theorem transact_WR (s : State) {n : Nat} {b : Block} (hb : s.blocks[n]? = some b) (r : Reg) (v : Word) :
    transact (WR n r v) s = writeReg s n b r v := by
  have hacc : registerAccess s n (regOffset r) 64 = some (b, r) := registerAccess_eq_some.2 ⟨rfl, hb, rfl⟩
  simp [WR, transact, hacc]

/-- The block after a store to its descriptor register `r` (10_state.md R26; `writeReg_descriptor` ties it to the
model). -/
def Block.store (r : Reg) (v : Word) (b : Block) : Block := { b with regs := setReg b.regs r v }

section store
variable (r : Reg) (v : Word) (b : Block)
@[simp] theorem store_regs : (b.store r v).regs = setReg b.regs r v := rfl
@[simp] theorem store_busy : (b.store r v).busy = b.busy := rfl
@[simp] theorem store_latched : (b.store r v).latched = b.latched := rfl
@[simp] theorem store_acc : (b.store r v).acc = b.acc := rfl
@[simp] theorem store_running : (b.store r v).running = b.running := rfl
@[simp] theorem store_statusWord : statusWord (b.store r v) = statusWord b := rfl
end store

/-- A write to any register but CTRL and STATUS is stored, whatever the block's state (10_state.md R26). -/
theorem writeReg_descriptor {r : Reg} (hc : r ≠ .ctrl) (hs : r ≠ .status) (s : State) (n : Nat) (b : Block) (v : Word) :
    writeReg s n b r v = .next (s.updateBlock n (Block.store r v)) := by
  cases r with
  | ctrl => exact absurd rfl hc
  | status => exact absurd rfl hs
  | _ => rfl

theorem readReg_status (b : Block) : b.readReg .status = statusWord b := rfl

theorem readReg_of_ne_status {q : Reg} (hq : q ≠ .status) (b : Block) : b.readReg q = getReg b.regs q := by
  cases q with
  | status => exact absurd rfl hq
  | _ => rfl

/-- After a store to a descriptor register it reads back the value. -/
theorem readReg_store_same {r : Reg} (hc : r ≠ .ctrl) (hs : r ≠ .status) (b : Block) (v : Word) :
    (b.store r v).readReg r = v := by
  rw [readReg_of_ne_status hs, store_regs, getReg_setReg, if_pos ⟨rfl, hc, hs⟩]

/-- After a store to one register every other one, STATUS among them, reads as before. -/
theorem readReg_store_other {r q : Reg} (hq : q ≠ r) (b : Block) (v : Word) :
    (b.store r v).readReg q = b.readReg q := by
  by_cases hs : q = .status
  · rw [hs, readReg_status, readReg_status, store_statusWord]
  · rw [readReg_of_ne_status hs, readReg_of_ne_status hs, store_regs, getReg_setReg, if_neg fun h => hq h.1]

/-- The step of a `WR` to a block that is there. -/
theorem step_WR {s : State} {n : Nat} {b : Block} {r : Reg} {v : Word} {prog : List HostOp} {rest : List Turn}
    (ht : s.turns = .host :: rest) (hp : s.program = WR n r v :: prog) (hb : s.blocks[n]? = some b) :
    step s = writeReg { s with turns := rest, program := prog } n b r v :=
  (step_host ht hp).trans (transact_WR { s with turns := rest, program := prog } hb r v)

/-- The step of a `WR` to a descriptor register. -/
theorem step_WR_descriptor {s : State} {n : Nat} {b : Block} {r : Reg} {v : Word} {prog : List HostOp}
    {rest : List Turn} (ht : s.turns = .host :: rest) (hp : s.program = WR n r v :: prog)
    (hb : s.blocks[n]? = some b) (hc : r ≠ .ctrl) (hs : r ≠ .status) :
    step s = .next (({ s with turns := rest, program := prog } : State).updateBlock n (Block.store r v)) :=
  (step_WR ht hp hb).trans (writeReg_descriptor hc hs _ n b v)

/-! ### Unmapped accesses -/

/-- An unmapped offset or another width than 64 bits names no register of any block (10_state.md R29). -/
theorem registerAccess_unmapped {off bits : Nat} (h : 0x60 ≤ off ∨ off % 8 ≠ 0 ∨ bits ≠ 64) (s : State) (n : Nat) :
    registerAccess s n off bits = none := by
  rw [Option.eq_none_iff_forall_ne_some]
  rintro ⟨b, r⟩ hacc
  obtain ⟨hbits, -, hoff⟩ := registerAccess_eq_some.1 hacc
  obtain ⟨hlt, hmod⟩ := regOffset_mapped r
  omega

theorem transact_regWrite_unmapped {off bits : Nat} (h : 0x60 ≤ off ∨ off % 8 ≠ 0 ∨ bits ≠ 64) (s : State) (n : Nat)
    (v : Word) : transact (.regWrite n off bits v) s = .refused .noSuchRegister := by
  simp [transact, registerAccess_unmapped h]

theorem transact_regRead_unmapped {off bits : Nat} (h : 0x60 ≤ off ∨ off % 8 ≠ 0 ∨ bits ≠ 64) (s : State) (n : Nat) :
    transact (.regRead n off bits) s = .refused .noSuchRegister := by
  simp [transact, registerAccess_unmapped h]

/-! ### The statements -/

/-- Settles O13: the step is `Block.store` on the one block, and that leaves STATUS and LD alone. -/
theorem descriptorWriteIsStored : Obligations.DescriptorWriteIsStored := by
  intro s n b r v prog rest ht hp hb hctrl hstatus
  exact ⟨_, b.store r v, step_WR_descriptor ht hp hb hctrl hstatus, onlyBlock_updateBlock ht hp n _, by simp [hb],
    readReg_store_same hctrl hstatus b v, fun q hq => readReg_store_other hq b v, store_latched r v b,
    store_busy r v b, store_acc r v b, updateBlock_runningAt (store_running r v) _ n n⟩

/-- Settles O16: read and write both look the register up first, and there is none. -/
theorem unmappedRegisterAccessIsRefused : Obligations.UnmappedRegisterAccessIsRefused := by
  intro s n off bits v op prog rest ht hp hop hbad
  rw [step_host ht hp]
  obtain rfl | rfl := hop
  · exact transact_regWrite_unmapped hbad _ n v
  · exact transact_regRead_unmapped hbad _ n

end Sys2Proof.Machine
end

section
/-! Memory reads (20_memory.md R54): how a read of many bytes is composed of reads of fewer. -/

namespace Sys2Proof.Machine

/-- Splitting a read after its first `n` bytes: the upper part is weighted by the `n` bytes below it. -/
theorem memRead_add (m : Memory) (n k : Nat) : ∀ a : Nat,
    memRead m a (n + k) = memRead m a n + 2 ^ (8 * n) * memRead m (a + n) k := by
  induction n with
  | zero => intro a; simp [memRead]
  | succ n ih =>
    intro a
    have hweight : 2 ^ (8 * (n + 1)) = 2 ^ 8 * 2 ^ (8 * n) := by rw [Nat.mul_succ, Nat.add_comm, Nat.pow_add]
    have haddr : a + 1 + n = a + (n + 1) := Nat.add_right_comm a 1 n
    calc memRead m a (n + 1 + k)
      _ = (Memory.read m a).toNat + 2 ^ 8 * memRead m (a + 1) (n + k) := by rw [Nat.add_right_comm, memRead]
      _ = memRead m a (n + 1) + 2 ^ (8 * (n + 1)) * memRead m (a + (n + 1)) k := by
        rw [ih, haddr, memRead, hweight, Nat.mul_add, Nat.mul_assoc, Nat.add_assoc]

/-- Settles O21: the 8-byte clause is the general split after 4 bytes. -/
theorem mixedWidthReadsCompose : Obligations.MixedWidthReadsCompose := by
  intro m a
  refine ⟨?_, fun n k => memRead_add m n k a⟩
  rw [Nat.mul_comm]
  exact memRead_add m 4 4 a

end Sys2Proof.Machine
end

section
/-! Decoding of a CMD value (30_encoding.md R71 to R75): its three fields as numbers, and the command they name. -/

namespace Sys2Proof

/-! ### The fields of CMD -/

/-- RESERVED, CMD bits 63:3 (30_encoding.md R73). -/
theorem reserved_toNat (v : Word) : (v.extractLsb' 3 61).toNat = v.toNat / 8 := by
  rw [BitVec.extractLsb'_toNat, Nat.shiftRight_eq_div_pow]
  have := v.isLt
  omega

/-- OP, CMD bits 1:0 (30_encoding.md R72). -/
theorem op_toNat (v : Word) : (v.extractLsb' 0 2).toNat = v.toNat % 4 := by
  rw [BitVec.extractLsb'_toNat, Nat.shiftRight_zero]

/-- WSEL, CMD bit 2 (30_encoding.md R71), where no higher bit is set. -/
theorem wsel_eq_false_iff {v : Word} (h : v.toNat < 8) : v.getLsbD 2 = false ↔ v.toNat / 4 = 0 := by
  rw [BitVec.getLsbD, Nat.testBit_eq_decide_div_mod_eq, decide_eq_false_iff_not]
  omega

/-- The reserved bits are 0 just where CMD is below 8. -/
theorem reserved_eq_zero_iff (v : Word) : v.extractLsb' 3 61 = 0 ↔ v.toNat < 8 := by
  rw [← BitVec.toNat_inj, reserved_toNat]
  exact Nat.div_eq_zero_iff_lt (by decide)

theorem kernelOfBit_eq {v : Word} (h : v.toNat < 8) :
    kernelOfBit v = if v.toNat / 4 = 0 then .k32 else .k64 := by
  unfold kernelOfBit
  cases hw : v.getLsbD 2 with
  | false => simp [(wsel_eq_false_iff h).1 hw]
  | true => rw [if_pos rfl, if_neg (mt (wsel_eq_false_iff h).2 (by simp [hw]))]

/-- The operation that the value of OP names (30_encoding.md R72; `opOfBits_eq` ties it to the model). -/
def opOfNat : Nat → Op
  | 0 => .dense
  | 1 => .vector
  | 2 => .expand
  | _ => .unpack

theorem opOfBits_eq (v : Word) : opOfBits v = opOfNat (v.toNat % 4) := congrArg opOfNat (op_toNat v)

/-! ### The command -/

theorem decodeCmd_of_lt {v : Word} (h : v.toNat < 8) : decodeCmd v = some (opOfBits v, kernelOfBit v) :=
  if_neg (not_not.2 ((reserved_eq_zero_iff v).2 h))

theorem decodeCmd_of_le {v : Word} (h : 8 ≤ v.toNat) : decodeCmd v = none :=
  if_pos (mt (reserved_eq_zero_iff v).1 (Nat.not_lt.2 h))

@[simp] theorem commandOf_op (op : Op) (k : Kernel) (d : Descriptor) : (commandOf op k d).op = op := by
  cases op <;> cases k <;> rfl

@[simp] theorem commandOf_kernel (op : Op) (k : Kernel) (d : Descriptor) : (commandOf op k d).kernel = k := by
  cases op <;> cases k <;> rfl

theorem decode_of_decodeCmd {d : Descriptor} {op : Op} {k : Kernel} (h : decodeCmd d.cmd = some (op, k)) :
    decode d = .ok (commandOf op k d) := by
  rw [decode, h]

theorem decode_of_decodeCmd_none {d : Descriptor} (h : decodeCmd d.cmd = none) : decode d = .error .reservedBits := by
  rw [decode, h]

/-- Settles O2: the reserved bits separate the two ranges, and OP and WSEL are the remainder and the quotient of CMD
by 4. -/
theorem decodeIsTotalOnCmd : Obligations.DecodeIsTotalOnCmd := by
  intro d
  refine ⟨fun h => decode_of_decodeCmd_none (decodeCmd_of_le h), fun h =>
    ⟨_, decode_of_decodeCmd (decodeCmd_of_lt h), ?op, ?kernel⟩⟩
  case op => exact (commandOf_op _ _ d).trans (opOfBits_eq d.cmd)
  case kernel => exact (commandOf_kernel _ _ d).trans (kernelOfBit_eq h)

end Sys2Proof
end

section
/-! The bit_sliced_extractor (40_datapath.md R94, R95): a slot as a number, the bits of the packed word that it reads. -/

namespace Sys2Proof.Machine

/-! ### The constants of the extractor (00_scope.md R7) -/

theorem mask_eq (k : Kernel) : mask k = 2 ^ basis k - 1 := by cases k <;> rfl

theorem basis_le_width (k : Kernel) : basis k ≤ width k := by cases k <;> decide

/-- The slots of a packed word lie inside it; the bits above them are the ignored ones. -/
theorem slots_le_width (k : Kernel) : basis k * slotsPerWord k ≤ width k := by cases k <;> decide

/-- Each slot ends where the next begins, at the latest at the end of the last. -/
theorem slot_end_le {k : Kernel} {s : Nat} (hs : s < slotsPerWord k) :
    basis k * s + basis k ≤ basis k * slotsPerWord k :=
  Nat.mul_le_mul_left (basis k) hs

theorem mask_toNat (k : Kernel) : (BitVec.ofNat (width k) (mask k)).toNat = 2 ^ basis k - 1 := by
  have hle : 2 ^ basis k ≤ 2 ^ width k := Nat.pow_le_pow_right (by decide) (basis_le_width k)
  have hpos : 0 < 2 ^ basis k := Nat.two_pow_pos _
  rw [BitVec.toNat_ofNat, mask_eq, Nat.mod_eq_of_lt (by omega)]

/-! ### A slot as a number -/

/-- R94's shift and mask are a quotient and a remainder. -/
theorem slot_toNat (k : Kernel) (w : Elem k) (s : Nat) :
    (slot k w s).toNat = w.toNat / 2 ^ (basis k * s) % 2 ^ basis k := by
  rw [slot, BitVec.toNat_and, mask_toNat, Nat.and_two_pow_sub_one_eq_mod, BitVec.toNat_ushiftRight,
    Nat.shiftRight_eq_div_pow, Nat.mul_comm]

theorem slot_toNat_lt (k : Kernel) (w : Elem k) (s : Nat) : (slot k w s).toNat < 2 ^ basis k := by
  rw [slot_toNat]
  exact Nat.mod_lt _ (Nat.two_pow_pos _)

/-- A slot reads no bit at or above `basis k * slotsPerWord k`. -/
theorem slot_toNat_eq_low {k : Kernel} {s : Nat} (hs : s < slotsPerWord k) (w : Elem k) :
    (slot k w s).toNat =
      w.toNat % 2 ^ (basis k * slotsPerWord k) % 2 ^ (basis k * s + basis k) / 2 ^ (basis k * s) := by
  rw [slot_toNat, Nat.mod_mod_of_dvd _ (Nat.pow_dvd_pow 2 (slot_end_le hs)), Nat.pow_add, Nat.mod_mul_right_div_self]

/-- Words that agree below the ignored bits have the same slots. -/
theorem slot_congr {k : Kernel} {w w' : Elem k} {s : Nat} (hs : s < slotsPerWord k)
    (h : w.toNat % 2 ^ (basis k * slotsPerWord k) = w'.toNat % 2 ^ (basis k * slotsPerWord k)) :
    slot k w s = slot k w' s := by
  rw [← BitVec.toNat_inj, slot_toNat_eq_low hs, slot_toNat_eq_low hs, h]

@[simp] theorem slot_zero (k : Kernel) (s : Nat) : slot k 0 s = 0 := by
  simp [slot]

/-- Every bit that a slot of the all-ones word reads lies inside the word. -/
theorem slot_allOnes {k : Kernel} {s : Nat} (hs : s < slotsPerWord k) :
    slot k (BitVec.allOnes (width k)) s = BitVec.ofNat (width k) (mask k) := by
  have hend : basis k * s + basis k ≤ width k := (slot_end_le hs).trans (slots_le_width k)
  rw [← BitVec.toNat_inj, slot_toNat, mask_toNat, BitVec.toNat_allOnes]
  refine Nat.eq_of_testBit_eq fun i => ?_
  rw [Nat.testBit_mod_two_pow, Nat.testBit_div_two_pow, Nat.testBit_two_pow_sub_one, Nat.testBit_two_pow_sub_one,
    Bool.and_eq_left_iff_imp, decide_eq_true_iff, decide_eq_true_iff]
  omega

/-! ### The statements -/

/-- Settles O29: `slot_toNat` at each kernel's constants. -/
theorem slotIsBitField : Obligations.SlotIsBitField :=
  ⟨fun w s _ => slot_toNat .k32 w s, fun w s _ => slot_toNat .k64 w s⟩

/-- Settles O30: each corner case is the general fact at the kernel's constants; only the worked example is computed. -/
theorem slotCornerCases : Obligations.SlotCornerCases := by
  refine ⟨?bound, ?ignored32, ?ignored64, ?zero, ?ones32, ?ones64, ?worked⟩
  case bound => exact fun k w s _ => slot_toNat_lt k w s
  case ignored32 => exact fun w w' s hs h => slot_congr (k := .k32) hs h
  case ignored64 => exact fun w w' s hs h => slot_congr (k := .k64) hs h
  case zero => exact fun k s _ => slot_zero k s
  case ones32 => exact fun s hs => slot_allOnes (k := .k32) hs
  case ones64 => exact fun s hs => slot_allOnes (k := .k64) hs
  case worked => decide

end Sys2Proof.Machine
end

section
/-! DenseMultiply performed again (41_dense_multiply.md R113): a performance leaves A and B alone, so every one of `n`
performances adds the same product. -/

namespace Sys2Proof.Machine

/-! ### The buffers of a DenseMultiply -/

/-- Buffers that share no byte do not meet (60_exceptions.md R184). -/
theorem regionsMeet_of_sharesNoByte {a m b n : Word} (h : sharesNoByte a m b n = true) :
    regionsMeet { base := a.toNat, size := m.toNat } { base := b.toNat, size := n.toNat } = false := by
  simp only [sharesNoByte, Bool.or_eq_true, beq_iff_eq, decide_eq_true_eq, ← BitVec.toNat_inj] at h
  rw [Bool.eq_false_iff, Ne, regionsMeet_iff]
  rintro ⟨x, hx, hy⟩
  simp only [inRegion_iff] at hx hy
  simp only [BitVec.ofNat_eq_ofNat, BitVec.toNat_ofNat, Nat.zero_mod] at h
  omega

/-- What DenseMultiply needs of its descriptor: the lengths that its dimensions require, and `out` apart from A and B. -/
structure DenseBuffers (k : Kernel) (d : Descriptor) : Prop where
  outLen : d.outLen.toNat = d.aRows.toNat * d.bCols.toNat * elemBytes k
  aLen : d.aLen.toNat = d.aRows.toNat * d.aCols.toNat * elemBytes k
  bLen : d.bLen.toNat = d.aCols.toNat * d.bCols.toNat * elemBytes k
  outApartA : regionsMeet (outRange d) (aRange d) = false
  outApartB : regionsMeet (outRange d) (bRange d) = false

theorem denseBuffers_descriptor {k : Kernel} {o : MatOperands} (cmd : Word)
    (hout : hasLength o.outLen (elemBytes k * o.aRows.toNat * o.bCols.toNat) = true)
    (ha : hasLength o.aLen (elemBytes k * o.aRows.toNat * o.aCols.toNat) = true)
    (hb : hasLength o.bLen (elemBytes k * o.aCols.toNat * o.bCols.toNat) = true)
    (hplaced : placed o.out o.a o.b o.outLen o.aLen o.bLen = true) : DenseBuffers k (o.descriptor cmd) := by
  simp only [hasLength, beq_iff_eq, Nat.mul_assoc, Nat.mul_comm (elemBytes k)] at hout ha hb
  simp only [placed, Bool.and_eq_true] at hplaced
  obtain ⟨⟨-, hapartA⟩, hapartB⟩ := hplaced
  refine ⟨?_, ?_, ?_, regionsMeet_of_sharesNoByte hapartA, regionsMeet_of_sharesNoByte hapartB⟩
  · exact hout.trans (Nat.mul_assoc ..).symm
  · exact ha.trans (Nat.mul_assoc ..).symm
  · exact hb.trans (Nat.mul_assoc ..).symm

theorem denseBuffers_dmul32 {o : MatOperands} (h : (Instr.dmul32 o).wellFormed = true) :
    DenseBuffers .k32 (encode (.dmul32 o)) := by
  simp only [Instr.wellFormed, Instr.sized, Instr.buffersPlaced, Bool.and_eq_true] at h
  obtain ⟨⟨⟨⟨⟨⟨hout, ha⟩, hb⟩, -⟩, -⟩, -⟩, hplaced⟩ := h
  exact denseBuffers_descriptor _ hout ha hb hplaced

theorem denseBuffers_dmul64 {o : MatOperands} (h : (Instr.dmul64 o).wellFormed = true) :
    DenseBuffers .k64 (encode (.dmul64 o)) := by
  simp only [Instr.wellFormed, Instr.sized, Instr.buffersPlaced, Bool.and_eq_true] at h
  obtain ⟨⟨⟨⟨⟨⟨hout, ha⟩, hb⟩, -⟩, -⟩, -⟩, hplaced⟩ := h
  exact denseBuffers_descriptor _ hout ha hb hplaced

/-! ### What one performance leaves alone -/

/-- A command that stores its out range keeps every element of a region apart from it. -/
theorem readElem_of_apart {k : Kernel} {d : Descriptor} {n count idx : Nat} {m m' : Memory} {r : Region}
    (hs : StoresOut k d n m m') (hm : Memory.wf m = true) (hlen : d.outLen.toNat = n * elemBytes k)
    (hr : regionsMeet (outRange d) r = false) (hsize : r.size = count * elemBytes k) (hidx : idx < count) :
    readElem k m' (r.base + idx * elemBytes k) = readElem k m (r.base + idx * elemBytes k) := by
  have hend : (idx + 1) * elemBytes k ≤ count * elemBytes k := Nat.mul_le_mul_right _ hidx
  rw [Nat.succ_mul] at hend
  refine readElem_congr fun b hlo hhi => hs.other hm b ?_
  by_contra hin
  have hout : inRegion (outRange d) b = true := inRegion_iff.2 (by simp only [outRange]; omega)
  have hmeet : regionsMeet (outRange d) r = true := regionsMeet_iff.2 ⟨b, hout, inRegion_iff.2 (by omega)⟩
  simp [hr] at hmeet

/-- The product is the same after a performance: it reads A and B only. -/
theorem denseSum_denseMultiply {k : Kernel} {d : Descriptor} {m : Memory} (hd : DenseBuffers k d)
    (hm : Memory.wf m = true) {i j : Nat} (hi : i < d.aRows.toNat) (hj : j < d.bCols.toNat) :
    denseSum k d (denseMultiply k d m) i j = denseSum k d m i j := by
  have hs := denseMultiply_storesOut k d m
  refine ringSum_congr fun t ht => congrArg₂ (· * ·) ?a ?b
  case a => exact readElem_of_apart hs hm hd.outLen hd.outApartA hd.aLen (cell_lt hi ht)
  case b => exact readElem_of_apart hs hm hd.outLen hd.outApartB hd.bLen (cell_lt ht hj)

/-! ### `n` performances -/

theorem denseMultiply_iterate_wf {k : Kernel} {d : Descriptor} {m : Memory} (hm : Memory.wf m = true) (n : Nat) :
    Memory.wf ((denseMultiply k d)^[n] m) = true := by
  induction n with
  | zero => exact hm
  | succ n ih =>
    rw [Function.iterate_succ_apply']
    exact (denseMultiply_storesOut k d _).wf ih

theorem denseSum_iterate {k : Kernel} {d : Descriptor} {m : Memory} (hd : DenseBuffers k d)
    (hm : Memory.wf m = true) {i j : Nat} (hi : i < d.aRows.toNat) (hj : j < d.bCols.toNat) (n : Nat) :
    denseSum k d ((denseMultiply k d)^[n] m) i j = denseSum k d m i j := by
  induction n with
  | zero => rfl
  | succ n ih =>
    rw [Function.iterate_succ_apply', denseSum_denseMultiply hd (denseMultiply_iterate_wf hm n) hi hj, ih]

/-- The elements after `n` applications of DenseMultiply: `O + n·(A·B)` (41_dense_multiply.md R113). -/
theorem readElem_denseMultiply_iterate {k : Kernel} {d : Descriptor} {m : Memory} (hd : DenseBuffers k d)
    (hm : Memory.wf m = true) {i j : Nat} (hi : i < d.aRows.toNat) (hj : j < d.bCols.toNat) (n : Nat) :
    readElem k ((denseMultiply k d)^[n] m) (cellAt k d.outBase d.bCols.toNat i j) =
      readElem k m (cellAt k d.outBase d.bCols.toNat i j) + BitVec.ofNat (width k) n * denseSum k d m i j := by
  induction n with
  | zero => simp
  | succ n ih =>
    rw [Function.iterate_succ_apply', readElem_denseMultiply (denseMultiply_iterate_wf hm n) hi hj, ih,
      denseSum_iterate hd hm hi hj, BitVec.ofNat_add, BitVec.add_mul, BitVec.one_mul, BitVec.add_assoc]

/-- Performing a command whose footprint exists and is ordinary `n` times answers, and applies its function `n` times. -/
theorem performed_enabled {i : Instr} {s : State} (hord : footprintOrdinary s.platform (encode i) = true)
    (hadm : footprintAdmitted s.platform (encode i) = true) (n : Nat) :
    ∃ t, performed i n s = .next t ∧ t.platform = s.platform ∧
      t.mem = (commandFunction i (encode i))^[n] s.mem := by
  induction n with
  | zero => exact ⟨s, rfl, rfl, rfl⟩
  | succ n ih =>
    obtain ⟨t, ht, hplatform, hmem⟩ := ih
    refine ⟨t.complete (commandFunction i (encode i) t.mem), ?_, hplatform, ?_⟩
    · rw [performed, ht]
      exact exec_enabled (hplatform ▸ hord) (hplatform ▸ hadm)
    · rw [complete_mem, hmem, Function.iterate_succ_apply']

/-! ### The statement -/

/-- The accumulation law of a command that runs DenseMultiply, for either kernel. -/
theorem performed_dense {k : Kernel} {c : Instr} {s : State} (hf : commandFunction c = denseMultiply k)
    (hd : DenseBuffers k (encode c)) (hp : Claims.performable c s) (n : Nat) :
    ∃ t, performed c n s = .next t ∧
      ∀ i < (encode c).aRows.toNat, ∀ j < (encode c).bCols.toNat,
        readElem k t.mem (cellAt k (encode c).outBase (encode c).bCols.toNat i j) =
          readElem k s.mem (cellAt k (encode c).outBase (encode c).bCols.toNat i j) +
            BitVec.ofNat (width k) n * denseSum k (encode c) s.mem i j := by
  obtain ⟨-, hwf, hord, hadm⟩ := hp
  obtain ⟨t, ht, -, hmem⟩ := performed_enabled hord hadm n
  refine ⟨t, ht, fun i hi j hj => ?_⟩
  rw [hmem, hf, readElem_denseMultiply_iterate hd hwf hi hj]

/-- Settles O36: `performed_dense` at each kernel's command. -/
theorem denseAccumulationLaw : Obligations.DenseAccumulationLaw :=
  ⟨fun _ _ n hp => performed_dense (k := .k32) rfl (denseBuffers_dmul32 hp.1) hp n,
    fun _ _ n hp => performed_dense (k := .k64) rfl (denseBuffers_dmul64 hp.1) hp n⟩

end Sys2Proof.Machine
end

section
/-! VectorMultiply overwrites (42_vector_multiply.md R123): it reads A and B only and stores every byte of its out range,
so memories that agree outside that range have the same result. -/

namespace Sys2Proof.Machine

/-! ### The same stores into two memories -/

/-- The same multi-byte write into two memories leaves the same byte where it stores, or where they agreed. -/
theorem read_memWrite_congr {b : Nat} (n : Nat) : ∀ {m m' : Memory} (a v : Nat), Memory.wf m = true →
    Memory.wf m' = true → (b < a ∨ a + n ≤ b → Memory.read m' b = Memory.read m b) →
    Memory.read (memWrite m' a n v) b = Memory.read (memWrite m a n v) b := by
  induction n with
  | zero => intro m m' a v _ _ h; exact h (by omega)
  | succ n ih =>
    intro m m' a v hm hm' h
    refine ih _ _ (Memory.write_wf _ _ hm) (Memory.write_wf _ _ hm') fun hb => ?_
    rw [Memory.read_write hm, Memory.read_write hm']
    by_cases hba : b = a
    · rw [if_pos hba, if_pos hba]
    · rw [if_neg hba, if_neg hba, h (by omega)]

/-- The same fill of two memories leaves the same byte in the buffer, and wherever they agreed. -/
theorem read_fill_congr {k : Kernel} {base b : Nat} {f : Nat → Elem k} {m m' : Memory} (hm : Memory.wf m = true)
    (hm' : Memory.wf m' = true) (n : Nat)
    (h : b < base ∨ base + n * elemBytes k ≤ b → Memory.read m' b = Memory.read m b) :
    Memory.read (fill k base n f m') b = Memory.read (fill k base n f m) b := by
  induction n with
  | zero => exact h (by omega)
  | succ n ih =>
    rw [Nat.succ_mul] at h
    exact read_memWrite_congr _ _ _ (fill_wf hm n) (fill_wf hm' n) fun hb => ih fun hn => h (by omega)

/-! ### Memories that agree outside a region -/

/-- The two memories differ in the region alone. -/
def AgreeOutside (r : Region) (m m' : Memory) : Prop :=
  ∀ x, inRegion r x = false → Memory.read m' x = Memory.read m x

/-- A fill of a whole region forgets what the region held. -/
theorem fill_eq_of_agreeOutside {k : Kernel} {r : Region} {n : Nat} {m m' : Memory} (f : Nat → Elem k)
    (hm : Memory.wf m = true) (hm' : Memory.wf m' = true) (hsize : r.size = n * elemBytes k)
    (h : AgreeOutside r m m') : fill k r.base n f m' = fill k r.base n f m := by
  refine Memory.ext (fill_wf hm' n) (fill_wf hm n) fun b => read_fill_congr hm hm' n fun hb => h b ?_
  rw [Bool.eq_false_iff, Ne, inRegion_iff]
  omega

/-- The elements of a buffer apart from the region are the same in both memories. -/
theorem AgreeOutside.readElem_eq {k : Kernel} {r q : Region} {count idx : Nat} {m m' : Memory}
    (h : AgreeOutside r m m') (hapart : regionsMeet r q = false) (hsize : q.size = count * elemBytes k)
    (hidx : idx < count) :
    readElem k m' (q.base + idx * elemBytes k) = readElem k m (q.base + idx * elemBytes k) := by
  have hend : (idx + 1) * elemBytes k ≤ count * elemBytes k := Nat.mul_le_mul_right _ hidx
  rw [Nat.succ_mul] at hend
  refine readElem_congr fun b hlo hhi => h b ?_
  rw [Bool.eq_false_iff]
  intro hr
  have hmeet : regionsMeet r q = true := regionsMeet_iff.2 ⟨b, hr, inRegion_iff.2 (by omega)⟩
  simp [hapart] at hmeet

/-- A command that stores its out range leaves a memory that agrees with the first outside it. -/
theorem StoresOut.agreeOutside {k : Kernel} {d : Descriptor} {n : Nat} {m m' : Memory} (hs : StoresOut k d n m m')
    (hm : Memory.wf m = true) (hlen : d.outLen.toNat = n * elemBytes k) : AgreeOutside (outRange d) m m' := by
  intro x hx
  rw [Bool.eq_false_iff, Ne, inRegion_iff] at hx
  simp only [outRange] at hx
  exact hs.other hm x (by omega)

/-! ### The buffers of a VectorMultiply -/

/-- What VectorMultiply needs of its descriptor: the lengths that its dimensions require, and `out` apart from A and B. -/
structure VectorBuffers (k : Kernel) (d : Descriptor) : Prop where
  outLen : d.outLen.toNat = d.aRows.toNat * elemBytes k
  aLen : d.aLen.toNat = d.aRows.toNat * d.aCols.toNat * elemBytes k
  bLen : d.bLen.toNat = d.aCols.toNat * elemBytes k
  outApartA : regionsMeet (outRange d) (aRange d) = false
  outApartB : regionsMeet (outRange d) (bRange d) = false

theorem vectorBuffers_descriptor {k : Kernel} {o : VecOperands} (cmd : Word)
    (hout : hasLength o.outLen (elemBytes k * o.aRows.toNat) = true)
    (ha : hasLength o.aLen (elemBytes k * o.aRows.toNat * o.aCols.toNat) = true)
    (hb : hasLength o.bLen (elemBytes k * o.aCols.toNat) = true)
    (hplaced : placed o.out o.a o.b o.outLen o.aLen o.bLen = true) : VectorBuffers k (o.descriptor cmd) := by
  simp only [hasLength, beq_iff_eq] at hout ha hb
  simp only [placed, Bool.and_eq_true] at hplaced
  obtain ⟨⟨-, hapartA⟩, hapartB⟩ := hplaced
  refine ⟨?_, ?_, ?_, regionsMeet_of_sharesNoByte hapartA, regionsMeet_of_sharesNoByte hapartB⟩
  · exact hout.trans (Nat.mul_comm ..)
  · exact ha.trans ((Nat.mul_assoc ..).trans (Nat.mul_comm ..))
  · exact hb.trans (Nat.mul_comm ..)

theorem vectorBuffers_vmul32 {o : VecOperands} (h : (Instr.vmul32 o).wellFormed = true) :
    VectorBuffers .k32 (encode (.vmul32 o)) := by
  simp only [Instr.wellFormed, Instr.sized, Instr.buffersPlaced, Bool.and_eq_true] at h
  obtain ⟨⟨⟨⟨⟨⟨hout, ha⟩, hb⟩, -⟩, -⟩, -⟩, hplaced⟩ := h
  exact vectorBuffers_descriptor _ hout ha hb hplaced

theorem vectorBuffers_vmul64 {o : VecOperands} (h : (Instr.vmul64 o).wellFormed = true) :
    VectorBuffers .k64 (encode (.vmul64 o)) := by
  simp only [Instr.wellFormed, Instr.sized, Instr.buffersPlaced, Bool.and_eq_true] at h
  obtain ⟨⟨⟨⟨⟨⟨hout, ha⟩, hb⟩, -⟩, -⟩, -⟩, hplaced⟩ := h
  exact vectorBuffers_descriptor _ hout ha hb hplaced

/-! ### The result does not depend on what `out` held -/

theorem vectorSum_eq_of_agreeOutside {k : Kernel} {d : Descriptor} {m m' : Memory} (hd : VectorBuffers k d)
    (h : AgreeOutside (outRange d) m m') {i : Nat} (hi : i < d.aRows.toNat) :
    vectorSum k d m' i = vectorSum k d m i := by
  refine ringSum_congr fun t ht => congrArg₂ (· * ·) ?a ?b
  case a => exact h.readElem_eq hd.outApartA hd.aLen (cell_lt hi ht)
  case b => exact h.readElem_eq hd.outApartB hd.bLen ht

/-- One VectorMultiply of memories that differ in `out` alone leaves one memory (42_vector_multiply.md R123). -/
theorem vectorMultiply_eq_of_agreeOutside {k : Kernel} {d : Descriptor} {m m' : Memory} (hd : VectorBuffers k d)
    (hm : Memory.wf m = true) (hm' : Memory.wf m' = true) (h : AgreeOutside (outRange d) m m') :
    vectorMultiply k d m' = vectorMultiply k d m := by
  calc vectorMultiply k d m'
      = fill k d.outBase.toNat d.aRows.toNat (vectorSum k d m') m' := vectorMultiply_eq_fill k d m'
    _ = fill k d.outBase.toNat d.aRows.toNat (vectorSum k d m) m' :=
        forUpTo_congr _ fun i hi y => by rw [vectorSum_eq_of_agreeOutside hd h hi]
    _ = fill k d.outBase.toNat d.aRows.toNat (vectorSum k d m) m :=
        fill_eq_of_agreeOutside (r := outRange d) _ hm hm' hd.outLen h
    _ = vectorMultiply k d m := (vectorMultiply_eq_fill k d m).symm

/-- A second VectorMultiply changes nothing: the first one changed `out` alone. -/
theorem vectorMultiply_idem {k : Kernel} {d : Descriptor} {m : Memory} (hd : VectorBuffers k d)
    (hm : Memory.wf m = true) : vectorMultiply k d (vectorMultiply k d m) = vectorMultiply k d m :=
  have hs := vectorMultiply_storesOut k d m
  vectorMultiply_eq_of_agreeOutside hd hm (hs.wf hm) (hs.agreeOutside hm hd.outLen)

/-! ### The statement -/

/-- The overwrite law of a command that runs VectorMultiply, for either kernel. -/
theorem exec_vector_overwrites {k : Kernel} {c : Instr} {s s' : State} (hf : commandFunction c = vectorMultiply k)
    (hd : VectorBuffers k (encode c)) (hp : Claims.performable c s) (hp' : Claims.performable c s')
    (h : AgreeOutside (outRange (encode c)) s.mem s'.mem) :
    ∃ t u t', exec c s = .next t ∧ exec c t = .next u ∧ exec c s' = .next t' ∧ u.mem = t.mem ∧ t'.mem = t.mem := by
  obtain ⟨-, hwf, hord, hadm⟩ := hp
  obtain ⟨-, hwf', hord', hadm'⟩ := hp'
  refine ⟨_, _, _, exec_enabled hord hadm, exec_enabled hord hadm, exec_enabled hord' hadm', ?second, ?other⟩
  case second => simp only [complete_mem, hf, vectorMultiply_idem hd hwf]
  case other => simp only [complete_mem, hf, vectorMultiply_eq_of_agreeOutside hd hwf hwf' h]

/-- Settles O38: `exec_vector_overwrites` at each kernel's command. -/
theorem vectorOverwriteLaw : Obligations.VectorOverwriteLaw :=
  ⟨fun _ _ _ hp hp' h => exec_vector_overwrites (k := .k32) rfl (vectorBuffers_vmul32 hp.1) hp hp' h,
    fun _ _ _ hp hp' h => exec_vector_overwrites (k := .k64) rfl (vectorBuffers_vmul64 hp.1) hp hp' h⟩

end Sys2Proof.Machine
end

section
/-! ExpandAndMultiply is DenseMultiply of the decoded seed (43_expand_and_multiply.md R133): a seed element is read as a
matrix element is, only without asking for alignment, so the two commands share one function of the descriptor; and what
that function leaves in `out` depends on A by its elements alone, wherever they lie. -/

namespace Sys2Proof.Machine

/-! ### The two commands' function -/

/-- A seed element (40_datapath.md R93) is the matrix element at the same address. -/
theorem seedElem_eq_readElem (k : Kernel) (m : Memory) (seed : Word) (cols i t : Nat) :
    seedElem k m seed (i * cols + t) = readElem k m (cellAt k seed cols i t) := rfl

theorem expandSum_eq_denseSum (k : Kernel) (d : Descriptor) (m : Memory) (i j : Nat) :
    expandSum k d m i j = denseSum k d m i j :=
  ringSum_congr fun t _ => by rw [seedElem_eq_readElem]

theorem expandMultiply_eq_denseMultiply (k : Kernel) : expandMultiply k = denseMultiply k := by
  funext d m
  simp only [expandMultiply_eq_fill, denseMultiply_eq_fill, expandSum_eq_denseSum]

/-- The descriptor with another CMD and another A_BASE. -/
def rebased (d : Descriptor) (cmd a : Word) : Descriptor := { d with cmd := cmd, aBase := a }

/-- A perform step reads CMD only through its command function. -/
theorem perform_rebased_cmd {f : Descriptor → Memory → Memory} {d : Descriptor} {cmd : Word}
    (hf : f (rebased d cmd d.aBase) = f d) (s : State) : perform f (rebased d cmd d.aBase) s = perform f d s := by
  calc perform f (rebased d cmd d.aBase) s
      = perform (fun _ => f (rebased d cmd d.aBase)) d s := rfl
    _ = perform f d s := by rw [hf]; rfl

/-- Over the same operands DMUL and EMUL are the same command. -/
theorem exec_dense_eq_exec_expand {k : Kernel} {c c' : Instr} (hf : commandFunction c = expandMultiply k)
    (hf' : commandFunction c' = denseMultiply k) (hc : encode c' = rebased (encode c) c'.code (encode c).aBase)
    (s : State) : exec c' s = exec c s := by
  rw [exec_eq_perform, exec_eq_perform, hf, hf', hc, expandMultiply_eq_denseMultiply]
  exact perform_rebased_cmd rfl s

/-! ### Memories that agree on a region -/

/-- The two memories hold the same bytes in the region. -/
def AgreeOn (r : Region) (m m' : Memory) : Prop :=
  ∀ x, inRegion r x = true → Memory.read m' x = Memory.read m x

theorem AgreeOn.readElem_eq {k : Kernel} {r : Region} {count idx : Nat} {m m' : Memory} (h : AgreeOn r m m')
    (hsize : r.size = count * elemBytes k) (hidx : idx < count) :
    readElem k m' (r.base + idx * elemBytes k) = readElem k m (r.base + idx * elemBytes k) := by
  have hend : (idx + 1) * elemBytes k ≤ count * elemBytes k := Nat.mul_le_mul_right _ hidx
  rw [Nat.succ_mul] at hend
  exact readElem_congr fun b hlo hhi => h b (inRegion_iff.2 (by omega))

/-- Matrix A at `a'` of memory `m'` has the elements that it has at A_BASE of `m`. -/
def SameLeftMatrix (k : Kernel) (d : Descriptor) (a' : Word) (m m' : Memory) : Prop :=
  ∀ i < d.aRows.toNat, ∀ t < d.aCols.toNat,
    readElem k m' (cellAt k a' d.aCols.toNat i t) = readElem k m (cellAt k d.aBase d.aCols.toNat i t)

/-! ### The result depends on A by its elements -/

section
variable {k : Kernel} {d : Descriptor} {cmd' a' : Word} {m m' : Memory}

theorem denseSum_rebased (hd : DenseBuffers k (rebased d cmd' a')) (hA : SameLeftMatrix k d a' m m')
    (hB : AgreeOn (bRange d) m m') {i j : Nat} (hi : i < d.aRows.toNat) (hj : j < d.bCols.toNat) :
    denseSum k (rebased d cmd' a') m' i j = denseSum k d m i j := by
  refine ringSum_congr fun t ht => congrArg₂ (· * ·) ?a ?b
  case a => exact hA i hi t ht
  case b => exact hB.readElem_eq hd.bLen (cell_lt ht hj)

/-- The same stores: element `p` of `out` gets one value in both memories. -/
theorem denseMultiply_rebased_eq_fill (hd : DenseBuffers k (rebased d cmd' a')) (hA : SameLeftMatrix k d a' m m')
    (hB : AgreeOn (bRange d) m m') (hO : AgreeOn (outRange d) m m') :
    denseMultiply k (rebased d cmd' a') m' = fill k d.outBase.toNat (d.aRows.toNat * d.bCols.toNat) (fun p =>
      readElem k m (elemAt k d.outBase p) + denseSum k d m (p / d.bCols.toNat) (p % d.bCols.toNat)) m' := by
  rw [denseMultiply_eq_fill]
  refine forUpTo_congr _ fun p hp y => congrArg _ (congrArg₂ (· + ·) ?held ?product)
  case held => exact hO.readElem_eq hd.outLen hp
  case product =>
    have hcols : 0 < d.bCols.toNat := Nat.pos_of_mul_pos_left (Nat.zero_lt_of_lt hp)
    exact denseSum_rebased hd hA hB (Nat.div_lt_of_lt_mul (Nat.mul_comm _ _ ▸ hp)) (Nat.mod_lt _ hcols)

theorem denseMultiply_rebased_agreeOn (hd : DenseBuffers k (rebased d cmd' a')) (hm : Memory.wf m = true)
    (hm' : Memory.wf m' = true) (hA : SameLeftMatrix k d a' m m') (hB : AgreeOn (bRange d) m m')
    (hO : AgreeOn (outRange d) m m') :
    AgreeOn (outRange d) (denseMultiply k d m) (denseMultiply k (rebased d cmd' a') m') := by
  intro x hx
  have hlen : (outRange d).size = d.aRows.toNat * d.bCols.toNat * elemBytes k := hd.outLen
  rw [denseMultiply_rebased_eq_fill hd hA hB hO, denseMultiply_eq_fill]
  exact read_fill_congr hm hm' _ fun _ => hO x hx

end

/-! ### The statement -/

/-- EMUL of a seed and DMUL of its decoded matrix, for either kernel (43_expand_and_multiply.md R133). -/
theorem exec_expand_as_dense {k : Kernel} {c c' : Instr} {a' : Word} {s s' : State}
    (hf : commandFunction c = expandMultiply k) (hf' : commandFunction c' = denseMultiply k)
    (hc : encode c' = rebased (encode c) c'.code a') (hd : DenseBuffers k (encode c'))
    (hp : Claims.performable c s) (hp' : Claims.performable c' s')
    (h : ∀ x, inRegion (outRange (encode c)) x = true ∨ inRegion (bRange (encode c)) x = true →
      Memory.read s'.mem x = Memory.read s.mem x)
    (hA : SameLeftMatrix k (encode c) a' s.mem s'.mem) :
    ∃ t t', exec c s = .next t ∧ exec c' s' = .next t' ∧ AgreeOn (outRange (encode c)) t.mem t'.mem := by
  obtain ⟨-, hwf, hord, hadm⟩ := hp
  obtain ⟨-, hwf', hord', hadm'⟩ := hp'
  refine ⟨_, _, exec_enabled hord hadm, exec_enabled hord' hadm', ?_⟩
  rw [complete_mem, complete_mem, hf, hf', hc, expandMultiply_eq_denseMultiply]
  exact denseMultiply_rebased_agreeOn (hc ▸ hd) hwf hwf' hA (fun x hx => h x (.inr hx)) fun x hx => h x (.inl hx)

/-- An EMUL32 that is accepted is accepted as a DMUL32 when its seed is aligned: only the seed's alignment is not
asked of it (20_memory.md R55). -/
theorem wellFormed_dmul32_of_emul32 {o : MatOperands} (h : (Instr.emul32 o).wellFormed = true)
    (ha : o.a.toNat % 4 = 0) : (Instr.dmul32 o).wellFormed = true := by
  simp only [Instr.wellFormed, Instr.sized, Bool.and_eq_true] at h ⊢
  obtain ⟨⟨⟨hlen, hout⟩, hb⟩, hplaced⟩ := h
  exact ⟨⟨⟨⟨hlen, hout⟩, beq_iff_eq.2 ha⟩, hb⟩, hplaced⟩

theorem wellFormed_dmul64_of_emul64 {o : MatOperands} (h : (Instr.emul64 o).wellFormed = true)
    (ha : o.a.toNat % 8 = 0) : (Instr.dmul64 o).wellFormed = true := by
  simp only [Instr.wellFormed, Instr.sized, Bool.and_eq_true] at h ⊢
  obtain ⟨⟨⟨hlen, hout⟩, hb⟩, hplaced⟩ := h
  exact ⟨⟨⟨⟨hlen, hout⟩, beq_iff_eq.2 ha⟩, hb⟩, hplaced⟩

/-- Settles O39: for each kernel `exec_expand_as_dense` for the second memory, and `exec_dense_eq_exec_expand` over an
aligned seed. -/
theorem expandEqualsDenseOfDecodedSeed : Obligations.ExpandEqualsDenseOfDecodedSeed := by
  refine ⟨⟨?decoded32, ?aligned32⟩, ?decoded64, ?aligned64⟩
  case decoded32 =>
    intro o a' s s' hp hp' h hA
    exact exec_expand_as_dense (k := .k32) rfl rfl rfl (denseBuffers_dmul32 hp'.1) hp hp' h hA
  case aligned32 =>
    intro o s hwf ha
    exact ⟨wellFormed_dmul32_of_emul32 hwf ha, exec_dense_eq_exec_expand (k := .k32) rfl rfl rfl s⟩
  case decoded64 =>
    intro o a' s s' hp hp' h hA
    exact exec_expand_as_dense (k := .k64) rfl rfl rfl (denseBuffers_dmul64 hp'.1) hp hp' h hA
  case aligned64 =>
    intro o s hwf ha
    exact ⟨wellFormed_dmul64_of_emul64 hwf ha, exec_dense_eq_exec_expand (k := .k64) rfl rfl rfl s⟩

end Sys2Proof.Machine
end

section
/-! CTRL writes to a BUSY block (45_host_interface.md R163): a START is dropped, and any other value stores nothing. -/

namespace Sys2Proof.Machine

/-- A START of a BUSY block is dropped (45_host_interface.md R163). -/
theorem start_busy {b : Block} (hb : b.busy = true) (s : State) (n : Nat) : start s n b = .next s :=
  if_pos hb

/-- With bit 0 set the CTRL write is a START, else it asks for nothing (10_state.md R27). -/
theorem writeReg_ctrl (s : State) (n : Nat) (b : Block) (v : Word) :
    writeReg s n b .ctrl v = if v.getLsbD 0 then start s n b else .next s := rfl

/-- A CTRL write to a BUSY block changes nothing, whatever its bit 0. -/
theorem writeReg_ctrl_busy {b : Block} (hb : b.busy = true) (s : State) (n : Nat) (v : Word) :
    writeReg s n b .ctrl v = .next s := by
  rw [writeReg_ctrl, start_busy hb, ite_self]

/-- Settles O12: the step is the CTRL write, and to a BUSY block that changes nothing. -/
theorem startWhileBusyIsDropped : Obligations.StartWhileBusyIsDropped := by
  intro s n b v prog rest ht hp hb hbusy
  rw [step_WR ht hp hb, writeReg_ctrl_busy hbusy]

end Sys2Proof.Machine
end

section
/-! The START check (60_exceptions.md R182): it searches the error codes in their order for the first whose condition
holds, and the model's conditions are those of the spec in plain numbers. -/

namespace Sys2Proof.Machine

/-! ### The check as a search -/

/-- The error codes in the order of their numbers (60_exceptions.md R181). -/
def errorCodes : List ErrorCode := [.opcode, .dim, .rows8, .lenOut, .lenA, .lenB, .align, .range, .aliased]

theorem mem_errorCodes (e : ErrorCode) : e ∈ errorCodes := by cases e <;> decide

theorem errorCodes_rising : errorCodes.Pairwise fun e e' => (errorNumber e).toNat < (errorNumber e').toNat := by decide

/-- The condition of each code for a CMD that encodes a command (`checkOperands_eq_find?` ties it to the model). -/
def failing (op : Op) (k : Kernel) (d : Descriptor) : ErrorCode → Bool
  | .opcode => false
  | .dim =>
    tooLong (requiredOut op k d.aRows.toNat d.aCols.toNat d.bCols.toNat) ||
      tooLong (requiredA k d.aRows.toNat d.aCols.toNat) || tooLong (requiredB op k d.aCols.toNat d.bCols.toNat)
  | .rows8 => op = .unpack ∧ d.aRows.toNat % rowBlock ≠ 0
  | .lenOut => d.outLen.toNat ≠ requiredOut op k d.aRows.toNat d.aCols.toNat d.bCols.toNat
  | .lenA => d.aLen.toNat ≠ requiredA k d.aRows.toNat d.aCols.toNat
  | .lenB => d.bLen.toNat ≠ requiredB op k d.aCols.toNat d.bCols.toNat
  | .align => misaligned op k d
  | .range => pastTop d.outBase d.outLen || pastTop d.aBase d.aLen || pastTop d.bBase d.bLen
  | .aliased => regionsMeet (outRange d) (aRange d) || regionsMeet (outRange d) (bRange d)

theorem find?_cons_eq_ite {α : Type} (p : α → Bool) (x : α) (xs : List α) :
    (x :: xs).find? p = if p x = true then some x else xs.find? p := by
  cases h : p x <;> simp [h]

theorem checkOperands_eq_find? (op : Op) (k : Kernel) (d : Descriptor) :
    checkOperands op k d = errorCodes.find? (failing op k d) := by
  simp only [checkOperands, errorCodes, find?_cons_eq_ite, failing, decide_eq_true_eq, List.find?_nil,
    Bool.false_eq_true, if_false]
  rfl

theorem check_of_decodeCmd {d : Descriptor} {op : Op} {k : Kernel} (h : decodeCmd d.cmd = some (op, k)) :
    check d = errorCodes.find? (failing op k d) := by
  rw [check, h]
  exact checkOperands_eq_find? op k d

theorem check_of_decodeCmd_none {d : Descriptor} (h : decodeCmd d.cmd = none) : check d = some .opcode := by
  rw [check, h]

/-- A search that finds a code finds the lowest. -/
theorem not_of_lt_find? {p : ErrorCode → Bool} {e e' : ErrorCode} (h : errorCodes.find? p = some e)
    (hlt : (errorNumber e').toNat < (errorNumber e).toNat) : p e' = false := by
  obtain ⟨-, before, after, hsplit, hbefore⟩ := List.find?_eq_some_iff_append.1 h
  have hrising := errorCodes_rising
  have hmem := mem_errorCodes e'
  rw [hsplit] at hrising hmem
  rcases List.mem_append.1 hmem with hmem | hmem
  · simpa using hbefore e' hmem
  · have hle : (errorNumber e).toNat ≤ (errorNumber e').toNat := by
      rcases List.mem_cons.1 hmem with rfl | hmem
      · exact le_rfl
      · exact ((List.pairwise_cons.1 (List.pairwise_append.1 hrising).2.1).1 e' hmem).le
    omega

/-! ### The conditions in plain numbers -/

section
variable {d : Descriptor} {op : Op} {k : Kernel}

/-- The kernel and the operation as CMD's quotient and remainder by 4 (30_encoding.md R71, R72). -/
theorem fields_of_decodeCmd (h : decodeCmd d.cmd = some (op, k)) :
    elemBytes k = (if d.cmd.toNat / 4 % 2 = 0 then 4 else 8) ∧ (op = .unpack ↔ d.cmd.toNat % 4 = 3) ∧
      (op = .expand ↔ d.cmd.toNat % 4 = 2) := by
  rw [eq_codeOf_of_decodeCmd h]
  cases op <;> cases k <;> decide

/-- The required lengths by CMD's quotient and remainder by 4 (30_encoding.md R77). -/
theorem lengths_of_decodeCmd (h : decodeCmd d.cmd = some (op, k)) (rows cols bCols : Nat) :
    let e := if d.cmd.toNat / 4 % 2 = 0 then 4 else 8
    let cx := if d.cmd.toNat / 4 % 2 = 0 then 3 else 2
    requiredOut op k rows cols bCols =
        (if d.cmd.toNat % 4 = 0 ∨ d.cmd.toNat % 4 = 2 then rows * bCols * e else rows * e) ∧
      requiredA k rows cols = rows * cols * e ∧
      requiredB op k cols bCols =
        (if d.cmd.toNat % 4 = 0 ∨ d.cmd.toNat % 4 = 2 then cols * bCols * e
          else if d.cmd.toNat % 4 = 1 then cols * e else cx * cols * e) := by
  rw [eq_codeOf_of_decodeCmd h]
  cases op <;> cases k <;> exact ⟨rfl, rfl, rfl⟩

/-- The model's condition of each code is the spec's in plain numbers (60_exceptions.md R182). -/
theorem failing_iff (h : decodeCmd d.cmd = some (op, k)) (e : ErrorCode) :
    failing op k d e = true ↔ failsCheck d (errorNumber e).toNat := by
  obtain ⟨helem, hunpack, hexpand⟩ := fields_of_decodeCmd h
  obtain ⟨hout, ha, hb⟩ := lengths_of_decodeCmd h d.aRows.toNat d.aCols.toNat d.bCols.toNat
  cases e with
  | opcode => simpa [failing, failsCheck, errorNumber] using cmd_lt_of_decodeCmd h
  | dim => simp [failing, failsCheck, errorNumber, tooLong, addressTop, or_assoc, hout, hb, ha]
  | rows8 => simp [failing, failsCheck, errorNumber, hunpack, rowBlock]
  | lenOut => simp [failing, failsCheck, errorNumber, hout]
  | lenA => simp [failing, failsCheck, errorNumber, ha]
  | lenB => simp [failing, failsCheck, errorNumber, hb]
  | align => simp [failing, failsCheck, errorNumber, misaligned, hexpand, helem, or_assoc]
  | range => simp [failing, failsCheck, errorNumber, pastTop, addressTop, or_assoc]
  | aliased =>
    simp [failing, failsCheck, errorNumber, regionsMeet_iff, outRange, aRange, bRange, and_or_left, exists_or]

end

/-! ### The statement -/

/-- Only codes 1 to 9 have a condition (60_exceptions.md R181). -/
theorem eq_errorNumber_of_failsCheck {d : Descriptor} {c : Nat} (h : failsCheck d c) :
    ∃ e, c = (errorNumber e).toNat := by
  match c, h with
  | 1, _ => exact ⟨.opcode, rfl⟩
  | 2, _ => exact ⟨.dim, rfl⟩
  | 3, _ => exact ⟨.rows8, rfl⟩
  | 4, _ => exact ⟨.lenOut, rfl⟩
  | 5, _ => exact ⟨.lenA, rfl⟩
  | 6, _ => exact ⟨.lenB, rfl⟩
  | 7, _ => exact ⟨.align, rfl⟩
  | 8, _ => exact ⟨.range, rfl⟩
  | 9, _ => exact ⟨.aliased, rfl⟩

theorem not_failsCheck_zero (d : Descriptor) : ¬ failsCheck d 0 := by simp [failsCheck]

theorem eight_le_of_decodeCmd_none {v : Word} (h : decodeCmd v = none) : 8 ≤ v.toNat := by
  by_contra hlt
  rw [decodeCmd_of_lt (Nat.not_le.1 hlt)] at h
  cases h

/-- Settles O6: the check searches the codes in rising order, and each code's condition is the spec's. -/
theorem checkReportsLowestFailingCode : Obligations.CheckReportsLowestFailingCode := by
  intro d
  cases hcmd : decodeCmd d.cmd with
  | none =>
    rw [check_of_decodeCmd_none hcmd]
    refine ⟨?_, nofun⟩
    rintro _ ⟨⟩
    refine ⟨eight_le_of_decodeCmd_none hcmd, fun c hlt => ?_⟩
    obtain rfl : c = 0 := Nat.lt_one_iff.1 hlt
    exact not_failsCheck_zero d
  | some command =>
    obtain ⟨op, k⟩ := command
    rw [check_of_decodeCmd hcmd]
    refine ⟨fun e he => ⟨(failing_iff hcmd e).1 (List.find?_some he), fun c hlt hfails => ?lower⟩,
      fun hpass c hfails => ?passing⟩
    all_goals
      obtain ⟨e', rfl⟩ := eq_errorNumber_of_failsCheck hfails
      rw [← failing_iff hcmd] at hfails
    case lower => simp [not_of_lt_find? he hlt] at hfails
    case passing => exact List.find?_eq_none.1 hpass e' (mem_errorCodes e') hfails

end Sys2Proof.Machine
end

section
/-! Which commands can report which error codes (60_exceptions.md R187). -/

namespace Sys2Proof.Machine

/-! ### What a reported code says of the command -/

section
variable {d : Descriptor} {op : Op} {k : Kernel}

/-- The condition of a reported code holds. -/
theorem failing_of_check {e : ErrorCode} (hcmd : decodeCmd d.cmd = some (op, k)) (h : check d = some e) :
    failing op k d e = true :=
  List.find?_some (check_of_decodeCmd hcmd ▸ h)

theorem check_eq_opcode_iff : check d = some .opcode ↔ decodeCmd d.cmd = none := by
  refine ⟨fun h => ?_, check_of_decodeCmd_none⟩
  cases hcmd : decodeCmd d.cmd with
  | none => rfl
  | some command => exact absurd (failing_of_check hcmd h) Bool.false_ne_true

theorem unpack_of_check_rows8 (h : check d = some .rows8) : ∃ k, decodeCmd d.cmd = some (.unpack, k) := by
  cases hcmd : decodeCmd d.cmd with
  | none => simp [check_of_decodeCmd_none hcmd] at h
  | some command =>
    obtain ⟨op, k⟩ := command
    obtain ⟨rfl, -⟩ := of_decide_eq_true (failing_of_check hcmd h)
    exact ⟨k, rfl⟩

theorem misaligned_iff : misaligned op k d = true ↔ d.outBase.toNat % elemBytes k ≠ 0 ∨
    d.bBase.toNat % elemBytes k ≠ 0 ∨ (op ≠ .expand ∧ d.aBase.toNat % elemBytes k ≠ 0) := by
  simp only [misaligned, Bool.or_eq_true, Bool.and_eq_true, decide_eq_true_eq, or_assoc, or_comm]

end

/-! ### One command for each operation, kernel and code -/

theorem decodeCmd_codeOf (op : Op) (k : Kernel) : decodeCmd (codeOf op k) = some (op, k) := by
  cases op <;> cases k <;> decide

/-- A command over an 8 by 1 matrix at `a` and one column at `b`, with the lengths that these require. -/
def sample (op : Op) (k : Kernel) (out a b : Word) : Descriptor :=
  { cmd := codeOf op k, outBase := out, aBase := a, bBase := b, aRows := 8, aCols := 1, bCols := 1
    outLen := BitVec.ofNat 64 (requiredOut op k 8 1 1)
    aLen := BitVec.ofNat 64 (requiredA k 8 1)
    bLen := BitVec.ofNat 64 (requiredB op k 1 1) }

theorem decodeCmd_sample (op : Op) (k : Kernel) (out a b : Word) :
    decodeCmd (sample op k out a b).cmd = some (op, k) := decodeCmd_codeOf op k

/-- The sample with the one thing wrong that code `e` reports; a wrong row count is one for UMUL alone. -/
def faulty (op : Op) (k : Kernel) (e : ErrorCode) : Descriptor :=
  let d := sample op k 0x1000 0x2000 0x3000
  match e with
  | .opcode => { d with cmd := 8 }
  | .dim => { d with aRows := 2 ^ 63 }
  | .rows8 => { d with aRows := 7 }
  | .lenOut => { d with outLen := 0 }
  | .lenA => { d with aLen := 0 }
  | .lenB => { d with bLen := 0 }
  | .align => sample op k 0x1001 0x2000 0x3000
  | .range => sample op k 0xFFFFFFFFFFFFFFF8 0x2000 0x3000
  | .aliased => sample op k 0x2000 0x2000 0x3000

theorem check_faulty (op : Op) (k : Kernel) {e : ErrorCode} (h : e = .rows8 → op = .unpack) :
    check (faulty op k e) = some e := by
  cases e with
  | rows8 =>
    obtain rfl := h rfl
    cases k <;> decide +kernel
  | _ => cases op <;> cases k <;> decide +kernel

theorem decodeCmd_faulty (op : Op) (k : Kernel) {e : ErrorCode} (h : e ≠ .opcode) :
    decodeCmd (faulty op k e).cmd = some (op, k) := by
  cases e with
  | opcode => exact absurd rfl h
  | _ => exact decodeCmd_codeOf op k

/-- The sample with B alone misaligned. -/
theorem check_sample_bBase (op : Op) (k : Kernel) : check (sample op k 0x1000 0x2000 0x3001) = some .align := by
  cases op <;> cases k <;> decide +kernel

/-- The sample with A alone misaligned, which is no fault of a seed (20_memory.md R55). -/
theorem check_sample_aBase (op : Op) (k : Kernel) :
    check (sample op k 0x1000 0x2001 0x3000) = if op = .expand then none else some .align := by
  cases op <;> cases k <;> decide +kernel

/-- Settles O8: the universal clauses are read off the code's condition, the others are met by `faulty` and `sample`. -/
theorem codesEachCommandCanReport : Obligations.CodesEachCommandCanReport := by
  refine ⟨fun d => unpack_of_check_rows8, fun d => check_eq_opcode_iff, ?anyCode, ?outAlone, ?bAlone, ?aAlone,
    ?noOther, ?seed⟩
  case anyCode => exact fun op k e hop hrows => ⟨faulty op k e, decodeCmd_faulty op k hop, check_faulty op k hrows⟩
  case outAlone =>
    intro op k
    refine ⟨faulty op k .align, decodeCmd_faulty op k nofun, check_faulty op k nofun, ?_⟩
    cases k <;> simp [faulty, sample, elemBytes]
  case bAlone =>
    intro op k
    refine ⟨sample op k 0x1000 0x2000 0x3001, decodeCmd_sample .., check_sample_bBase op k, ?_⟩
    cases k <;> simp [sample, elemBytes]
  case aAlone =>
    intro op k hop
    refine ⟨sample op k 0x1000 0x2001 0x3000, decodeCmd_sample .., ?_, ?_⟩
    · rw [check_sample_aBase, if_neg hop]
    · cases k <;> simp [sample, elemBytes]
  case noOther => exact fun d op k hcmd h => misaligned_iff.1 (failing_of_check hcmd h)
  case seed =>
    intro k
    refine ⟨sample .expand k 0x1000 0x2001 0x3000, decodeCmd_sample .., ?_, ?_⟩
    · rw [check_sample_aBase, if_pos rfl]
    · cases k <;> simp [sample, elemBytes]

end Sys2Proof.Machine
end

section
/-! A START of an idle block (45_host_interface.md R164; 60_exceptions.md R183): error entry where a check fails, and
the STATUS word that then reads back. -/

namespace Sys2Proof.Machine

/-! ### The STATUS word as a number -/

/-- The three flags of STATUS lie below its ERRCODE field. -/
theorem flags_toNat (busy done err : Bool) :
    (bit busy ||| bit done <<< 1 ||| bit err <<< 2).toNat = busy.toNat + 2 * done.toNat + 4 * err.toNat := by
  cases busy <;> cases done <;> cases err <;> decide

theorem statusWord_toNat (b : Block) :
    (statusWord b).toNat = b.busy.toNat + 2 * b.done.toNat + 4 * b.err.toNat + 256 * b.errCode.toNat := by
  have hflags := flags_toNat b.busy b.done b.err
  have hcode : (b.errCode.setWidth 64 <<< 8).toNat = b.errCode.toNat <<< 8 := by
    rw [BitVec.toNat_shiftLeft, BitVec.toNat_setWidth, Nat.shiftLeft_eq]
    have := b.errCode.isLt
    omega
  have hlow : b.busy.toNat + 2 * b.done.toNat + 4 * b.err.toNat < 2 ^ 8 := by
    have := b.busy.toNat_lt
    have := b.done.toNat_lt
    have := b.err.toNat_lt
    omega
  rw [statusWord, BitVec.toNat_or, hflags, hcode, Nat.lor_comm, ← Nat.shiftLeft_add_eq_or_of_lt hlow,
    Nat.shiftLeft_eq]
  omega

/-! ### Error entry -/

theorem acceptStart_error {s : State} {n : Nat} {b : Block} {e : ErrorCode} (h : check b.regs = some e) :
    acceptStart s n b = .next (s.updateBlock n fun b => b.clearStatus.errorEntry e) := by
  rw [acceptStart, h]

theorem start_idle {b : Block} (hb : b.busy = false) (s : State) (n : Nat) : start s n b = acceptStart s n b := by
  rw [start, hb, if_neg Bool.false_ne_true]

/-- The step of a START that reports an error. -/
theorem step_start_error {s : State} {n : Nat} {b : Block} {v : Word} {e : ErrorCode} {prog : List HostOp}
    {rest : List Turn} (ht : s.turns = .host :: rest) (hp : s.program = WR n .ctrl v :: prog)
    (hb : s.blocks[n]? = some b) (hidle : b.busy = false) (hv : v.getLsbD 0 = true) (he : check b.regs = some e) :
    step s = .next (({ s with turns := rest, program := prog } : State).updateBlock n
      fun b => b.clearStatus.errorEntry e) := by
  rw [step_WR ht hp hb, writeReg_ctrl, if_pos hv, start_idle hidle, acceptStart_error he]

/-- Settles O10: error entry keeps what the statement says is kept, and STATUS has DONE, ERR and the code. -/
theorem failingStartReportsError : Obligations.FailingStartReportsError := by
  intro s n b v e prog rest ht hp hb hidle hv he
  refine ⟨_, b.clearStatus.errorEntry e, step_start_error ht hp hb hidle hv he, onlyBlock_updateBlock ht hp n _,
    by simp [hb], errorEntry_errCode .., errorEntry_err .., errorEntry_done .., hidle, rfl, rfl, rfl, ?status⟩
  case status => simp [statusWord_toNat, hidle]

end Sys2Proof.Machine
end

section
/-! Reset of a block (70_reset_and_hazards.md R210, R211): what a reset turn does to each field of the state. -/

namespace Sys2Proof.Machine

/-! ### The block after reset -/

/-- Every register of a reset block reads 0, STATUS among them. -/
theorem readReg_afterReset (acc : Vector Word 8) (r : Reg) : (Block.afterReset acc).readReg r = 0 := by
  cases r with
  | status => rw [readReg_status, ← BitVec.toNat_inj, statusWord_toNat]; rfl
  | _ => rfl

/-! ### The state after a reset -/

theorem runningAt_of_block {s : State} {n : Nat} {b : Block} (hb : s.blocks[n]? = some b) :
    s.runningAt n = b.running := by
  rw [State.runningAt, hb, Option.bind_some]

theorem resetBlock_of_none {s : State} {n : Nat} (hb : s.blocks[n]? = none) : s.resetBlock n = s := by
  rw [State.resetBlock, hb]

theorem resetBlock_of_block {s : State} {n : Nat} {b : Block} (hb : s.blocks[n]? = some b) :
    s.resetBlock n =
      { s.updateBlock n (fun _ => Block.afterReset (freeLanes (s.draws + abortDraws b.running))) with
        mem := abortMemory s.platform s.mem s.draws b.running
        draws := s.draws + abortDraws b.running + 8 } := by
  rw [State.resetBlock, hb]

theorem resetBlock_same {s : State} {n : Nat} {b : Block} (hb : s.blocks[n]? = some b) :
    (s.resetBlock n).blocks[n]? = some (Block.afterReset (freeLanes (s.draws + abortDraws b.running))) := by
  rw [resetBlock_of_block hb]
  exact (updateBlock_same ..).trans (by rw [hb, Option.map_some])

section resetBlock
variable (s : State) (n : Nat)

@[simp] theorem resetBlock_platform : (s.resetBlock n).platform = s.platform := by
  unfold State.resetBlock; split <;> rfl

@[simp] theorem resetBlock_program : (s.resetBlock n).program = s.program := by
  unfold State.resetBlock; split <;> rfl

@[simp] theorem resetBlock_replies : (s.resetBlock n).replies = s.replies := by
  unfold State.resetBlock; split <;> rfl

@[simp] theorem resetBlock_turns : (s.resetBlock n).turns = s.turns := by
  unfold State.resetBlock; split <;> rfl

/-- A block that is not there runs nothing, so memory has one form whether the block exists or not. -/
theorem resetBlock_mem : (s.resetBlock n).mem = abortMemory s.platform s.mem s.draws (s.runningAt n) := by
  cases hb : s.blocks[n]? with
  | none => rw [resetBlock_of_none hb, State.runningAt, hb, Option.bind_none, abortMemory]
  | some b => rw [resetBlock_of_block hb, runningAt_of_block hb]

/-- Reset of one block does not affect another (70_reset_and_hazards.md R210). -/
theorem resetBlock_other {m : Nat} (hm : m ≠ n) : (s.resetBlock n).blocks[m]? = s.blocks[m]? := by
  cases hb : s.blocks[n]? with
  | none => rw [resetBlock_of_none hb]
  | some b =>
    rw [resetBlock_of_block hb]
    exact updateBlock_other _ _ _ hm

end resetBlock

/-! ### Memory after a reset -/

/-- Nothing is aborted where nothing runs. -/
theorem resetBlock_mem_of_idle {s : State} {n : Nat} (h : s.runningAt n = none) : (s.resetBlock n).mem = s.mem := by
  rw [resetBlock_mem, h, abortMemory]

theorem not_inRegion_iff {r : Region} {a : Nat} : inRegion r a = false ↔ a < r.base ∨ r.base + r.size ≤ a := by
  rw [← Bool.not_eq_true, inRegion_iff]
  omega

/-- An aborted command's free values lie in its out range (70_reset_and_hazards.md R211). -/
theorem read_resetBlock_of_not_out {s : State} {n : Nat} {d : Descriptor} (h : s.runningAt n = some d)
    (hm : Memory.wf s.mem = true) {x : Nat} (hx : inRegion (outRange d) x = false) :
    Memory.read (s.resetBlock n).mem x = Memory.read s.mem x := by
  rw [resetBlock_mem, h, abortMemory]
  exact read_drawBytes_other _ _ _ _ x hm (not_inRegion_iff.1 hx)

/-! ### The statement -/

theorem step_reset {s : State} {n : Nat} {rest : List Turn} (ht : s.turns = .reset n :: rest) :
    step s = .next (({ s with turns := rest } : State).resetBlock n) := by
  simp [step, nextMove, ht, move]

/-- Settles O45: the step is `resetBlock`, and each clause is what that does to one field. -/
theorem resetClearsBlock : Obligations.ResetClearsBlock := by
  intro s n b rest ht hb hm
  refine ⟨_, _, step_reset ht, resetBlock_same hb, readReg_afterReset _, rfl, rfl, rfl, rfl, rfl,
    fun m hne => resetBlock_other _ n hne, ?idle, ?aborted, resetBlock_platform _ n, resetBlock_program _ n,
    resetBlock_replies _ n, resetBlock_turns _ n⟩
  case idle => exact resetBlock_mem_of_idle (s := { s with turns := rest })
  case aborted => exact fun d hd x => read_resetBlock_of_not_out (s := { s with turns := rest }) hd hm

end Sys2Proof.Machine
end

section
/-! Encoding and decoding (30_encoding.md R70 to R76): a command's descriptor, its ten words and its 640 bits each
decode to the command, and what a decoded command takes from a descriptor. -/

namespace Sys2Proof

/-! ### Words as bits (log 17) -/

theorem bitsOfWords_lt : ∀ l : List Word, bitsOfWords l < 2 ^ (64 * l.length)
  | [] => Nat.one_pos
  | v :: vs => by
    have hv := v.isLt
    have hvs := bitsOfWords_lt vs
    have hpow : 2 ^ (64 * (v :: vs).length) = 2 ^ 64 * 2 ^ (64 * vs.length) := by
      rw [List.length_cons, Nat.mul_succ, Nat.add_comm, Nat.pow_add]
    rw [hpow, bitsOfWords]
    omega

/-- Word `j` of a list begins at bit `64*j`. -/
theorem bitsOfWords_div : ∀ (l : List Word) (j : Nat), bitsOfWords l / 2 ^ (64 * j) = bitsOfWords (l.drop j)
  | l, 0 => by simp
  | [], j + 1 => Nat.zero_div _
  | v :: vs, j + 1 => by
    have hpow : 2 ^ (64 * (j + 1)) = 2 ^ 64 * 2 ^ (64 * j) := by rw [Nat.mul_succ, Nat.add_comm, Nat.pow_add]
    have hrest : bitsOfWords (v :: vs) / 2 ^ 64 = bitsOfWords vs := by
      have := v.isLt
      rw [bitsOfWords]
      omega
    rw [hpow, ← Nat.div_div_eq_div_mul, hrest, bitsOfWords_div vs j, List.drop_succ_cons]

/-- The lowest word of a list is its first. -/
theorem ofNat_bitsOfWords_cons (v : Word) (vs : List Word) : BitVec.ofNat 64 (bitsOfWords (v :: vs)) = v := by
  rw [← BitVec.toNat_inj, BitVec.toNat_ofNat, bitsOfWords, Nat.add_mul_mod_self_left, Nat.mod_eq_of_lt v.isLt]

theorem ofNat_bitsOfWords_div {l vs : List Word} {v : Word} {n : Nat} (j : Nat) (hn : n = 64 * j)
    (h : l.drop j = v :: vs) : BitVec.ofNat 64 (bitsOfWords l / 2 ^ n) = v := by
  rw [hn, bitsOfWords_div, h, ofNat_bitsOfWords_cons]

/-- A list's bits are all of its number. -/
theorem bitsOfWords_mod {l : List Word} {n : Nat} (hn : n = 64 * l.length) :
    bitsOfWords l % 2 ^ n = bitsOfWords l :=
  Nat.mod_eq_of_lt (hn ▸ bitsOfWords_lt l)

/-- A descriptor's bits are numbered so that `descriptorOfBits` gives it back. -/
theorem descriptorOfBits_bitsOfWords (d : Descriptor) : descriptorOfBits (bitsOfWords d.words) = d := by
  rw [descriptorOfBits, Descriptor.mk.injEq]
  exact ⟨ofNat_bitsOfWords_cons .., ofNat_bitsOfWords_div 1 rfl rfl, ofNat_bitsOfWords_div 2 rfl rfl,
    ofNat_bitsOfWords_div 3 rfl rfl, ofNat_bitsOfWords_div 4 rfl rfl, ofNat_bitsOfWords_div 5 rfl rfl,
    ofNat_bitsOfWords_div 6 rfl rfl, ofNat_bitsOfWords_div 7 rfl rfl, ofNat_bitsOfWords_div 8 rfl rfl,
    ofNat_bitsOfWords_div 9 rfl rfl⟩

/-! ### Decoding what was encoded -/

/-- A command has no operand but those its descriptor holds. -/
theorem commandOf_encode (i : Instr) : commandOf i.op i.kernel (encode i) = i := by cases i <;> rfl

theorem decode_encode (i : Instr) : decode (encode i) = .ok i := by
  obtain ⟨hcmd, hcode⟩ := encode_cmd i
  rw [decode_of_decodeCmd (hcmd ▸ hcode), commandOf_encode]

theorem decodeWords_words (d : Descriptor) : decodeWords d.words = decode d := rfl

/-- As many bits as ten words have are all of a descriptor's bits. -/
theorem decodeTableWord_words {d : Descriptor} {i : Instr} (h : decode d = .ok i) :
    decodeTableWord 640 (bitsOfWords d.words) = some i := by
  have hbits := bitsOfWords_mod (l := d.words) (n := 640) rfl
  rw [decodeTableWord, hbits, descriptorOfBits_bitsOfWords, decodeWords_words, h]

/-- Settles O1: words and bits hold the whole descriptor, and the descriptor decodes to its command. -/
theorem decodeInvertsEncode : Obligations.DecodeInvertsEncode :=
  fun i => ⟨decode_encode i, decode_encode i, decodeTableWord_words (decode_encode i)⟩

/-! ### Encoding what was decoded -/

/-- What a command of a descriptor encodes to: VMUL and UMUL lose B_COLS (30_encoding.md R76; log 4). -/
theorem encode_commandOf (op : Op) (k : Kernel) (d : Descriptor) :
    encode (commandOf op k d) =
      { d with cmd := codeOf op k, bCols := if op = .vector ∨ op = .unpack then 0 else d.bCols } := by
  cases op <;> cases k <;> rfl

/-- Settles O3: a decoded command is `commandOf` of the CMD's fields, and the CMD is the only one with these. -/
theorem decodeTakesEveryOperand : Obligations.DecodeTakesEveryOperand := by
  intro d i h
  cases hcmd : decodeCmd d.cmd with
  | none => rw [decode_of_decodeCmd_none hcmd] at h; cases h
  | some command =>
    obtain ⟨op, k⟩ := command
    rw [decode_of_decodeCmd hcmd] at h
    cases h
    rw [encode_commandOf, commandOf_op, ← eq_codeOf_of_decodeCmd hcmd]
    split <;> rfl

/-- Settles O4: the words are computed. -/
theorem commandMapWordsDecode : Obligations.CommandMapWordsDecode := by
  unfold Obligations.CommandMapWordsDecode
  decide +kernel

end Sys2Proof
end

section
/-! What a step does, as one case for each agent (45_host_interface.md R160): the host's effect, a performed command, a
reset. And how each of these changes what the blocks are running. -/

namespace Sys2Proof.Machine

/-! ### Whose turn it is -/

/-- Who moves at the next step: the first listed turn, or the default one (log 1, log 2; `step_eq_move`). -/
def nextTurn (s : State) : Turn := s.turns.head?.getD (defaultTurn s)

/-- The state in which the move is made: the turn is taken. -/
def State.taken (s : State) : State := { s with turns := s.turns.tail }

@[simp] theorem taken_runningAt (s : State) (n : Nat) : s.taken.runningAt n = s.runningAt n := rfl

theorem step_eq_move_nextTurn (s : State) : step s = move (nextTurn s) s.taken := step_eq_move s

theorem nextTurn_of_turns {s : State} {turn : Turn} {rest : List Turn} (h : s.turns = turn :: rest) :
    nextTurn s = turn := by
  rw [nextTurn, h, List.head?_cons, Option.getD_some]

theorem nextTurn_of_nil {s : State} (h : s.turns = []) : nextTurn s = defaultTurn s := by
  rw [nextTurn, h, List.head?_nil, Option.getD_none]

/-- No reset is asserted that is not listed. -/
theorem head?_of_nextTurn_reset {s : State} {n : Nat} (h : nextTurn s = .reset n) :
    s.turns.head? = some (.reset n) := by
  cases ht : s.turns with
  | nil =>
    rw [nextTurn_of_nil ht, defaultTurn] at h
    split at h <;> cases h
  | cons turn rest => rw [← h, nextTurn_of_turns ht, List.head?_cons]

/-! ### The moves -/

/-- If a step answers, the agent whose turn it is has made its move. -/
theorem step_turn_cases {s t : State} (h : step s = .next t) :
    (nextTurn s = .host ∧ hostTurn s.taken = .next t) ∨
      (∃ n, nextTurn s = .engine n ∧ engineTurn n s.taken = .next t) ∨
      ∃ n, nextTurn s = .reset n ∧ t = s.taken.resetBlock n := by
  rw [step_eq_move_nextTurn] at h
  cases hturn : nextTurn s with
  | host => exact .inl ⟨rfl, by rwa [hturn] at h⟩
  | engine n => exact .inr (.inl ⟨n, rfl, by rwa [hturn] at h⟩)
  | reset n =>
    rw [hturn] at h
    cases h
    exact .inr (.inr ⟨n, rfl, rfl⟩)

/-- If the host's turn answers, what it did beside its program is one of the host's effects. -/
theorem hostTurn_effect {s t : State} (h : hostTurn s = .next t) : ∃ prog, HostEffect { s with program := prog } t := by
  obtain rfl | ⟨op, rest, -, h⟩ := hostTurn_cases h
  · exact ⟨t.program, .replies rfl⟩
  · exact ⟨rest, transact_cases h⟩

/-- If an engine's turn answers, it passed with its block idle, or it performed the latched command, or that command
has a footprint byte that does not exist. -/
theorem engineTurn_effect {n : Nat} {s t : State} (h : engineTurn n s = .next t) :
    (s.runningAt n = none ∧ t = s) ∨
      ∃ d i, s.runningAt n = some d ∧ decode d = .ok i ∧ footprintOrdinary s.platform d = true ∧
        ((footprintAdmitted s.platform d = true ∧
            t = ({ s with engine := n } : State).complete (commandFunction i (encode i) s.mem)) ∨
          (footprintAdmitted s.platform d = false ∧ t = { s with engine := n })) := by
  obtain hidle | ⟨d, i, hd, hi, h⟩ := engineTurn_cases h
  · exact .inl hidle
  · have hfoot := footprint_of_decode hi
    obtain ⟨hord, h⟩ := exec_cases h
    rw [footprintOrdinary, hfoot] at hord
    rw [footprintAdmitted, hfoot] at h
    exact .inr ⟨d, i, hd, hi, hord, h⟩

/-! ### What the blocks are running -/

theorem updateBlock_runningAt_same (s : State) (n : Nat) (f : Block → Block) :
    (s.updateBlock n f).runningAt n = s.blocks[n]?.bind fun b => (f b).running := by
  rw [State.runningAt, updateBlock_same, Option.bind_map]
  rfl

theorem updateBlock_runningAt_other (s : State) {n m : Nat} (f : Block → Block) (h : m ≠ n) :
    (s.updateBlock n f).runningAt m = s.runningAt m := by
  rw [State.runningAt, updateBlock_other _ _ _ h, State.runningAt]

/-- An idle block runs nothing. -/
theorem runningAt_of_idle {s : State} {n : Nat} {b : Block} (hb : s.blocks[n]? = some b) (hidle : b.busy = false) :
    s.runningAt n = none := by
  rw [runningAt_of_block hb, Block.running, hidle, if_neg Bool.false_ne_true]

theorem complete_runningAt_same (s : State) (m : Memory) : (s.complete m).runningAt s.engine = none := by
  refine (updateBlock_runningAt_same s s.engine _).trans ?_
  cases s.blocks[s.engine]? <;> rfl

theorem complete_runningAt_other (s : State) (m : Memory) {n : Nat} (h : n ≠ s.engine) :
    (s.complete m).runningAt n = s.runningAt n :=
  updateBlock_runningAt_other s _ h

theorem resetBlock_runningAt_same (s : State) (n : Nat) : (s.resetBlock n).runningAt n = none := by
  cases hb : s.blocks[n]? with
  | none => rw [resetBlock_of_none hb, State.runningAt, hb, Option.bind_none]
  | some b => exact runningAt_of_idle (resetBlock_same hb) rfl

theorem resetBlock_runningAt_other (s : State) {n m : Nat} (h : m ≠ n) :
    (s.resetBlock n).runningAt m = s.runningAt m := by
  rw [State.runningAt, resetBlock_other _ _ h, State.runningAt]

/-! ### What a change of memory is confined to -/

/-- The change from `m` to `m'` keeps the canonical form, and changes and lists no byte outside the region. -/
structure ConfinedTo (r : Region) (m m' : Memory) : Prop where
  wf : Memory.wf m = true → Memory.wf m' = true
  other : Memory.wf m = true → ∀ x, inRegion r x = false → Memory.read m' x = Memory.read m x
  listed : ∀ c ∈ m', inRegion r c.1 = true ∨ c ∈ m

theorem StoresOut.confinedTo {k : Kernel} {d : Descriptor} {n : Nat} {m m' : Memory} (h : StoresOut k d n m m')
    (hlen : n * elemBytes k = d.outLen.toNat) : ConfinedTo (outRange d) m m' where
  wf := h.wf
  other hm x hx := h.other hm x (hlen ▸ not_inRegion_iff.1 hx)
  listed c hc := by
    have hlisted := h.listed c hc
    rw [hlen] at hlisted
    exact hlisted.imp inRegion_iff.2 id

/-- A command that passed its check changes its out range only (20_memory.md R58). -/
theorem commandFunction_confinedTo {i : Instr} (h : check (encode i) = none) (m : Memory) :
    ConfinedTo (outRange (encode i)) m (commandFunction i (encode i) m) := by
  obtain ⟨k, n, hs, hlen⟩ := commandFunction_storesOut i m
  exact hs.confinedTo (hlen h)

/-- The decoded command has the descriptor's out range. -/
theorem outRange_of_decode {d : Descriptor} {i : Instr} (h : decode d = .ok i) : outRange (encode i) = outRange d := by
  have := footprint_of_decode h
  simp only [footprint, List.cons.injEq] at this
  exact this.1

theorem commandFunction_confinedTo_of_decode {d : Descriptor} {i : Instr} (hi : decode d = .ok i)
    (h : check d = none) (m : Memory) : ConfinedTo (outRange d) m (commandFunction i (encode i) m) :=
  outRange_of_decode hi ▸ commandFunction_confinedTo ((check_of_decode hi).trans h) m

theorem inFootprint_of_inRegion_outRange {d : Descriptor} {x : Nat} (h : inRegion (outRange d) x = true) :
    inFootprint d x = true :=
  List.any_eq_true.2 ⟨_, List.mem_cons_self, h⟩

theorem storeBytes_confinedTo (m : Memory) (a : Nat) (bytes : List Byte) :
    ConfinedTo { base := a, size := bytes.length } m (storeBytes m a bytes) where
  wf := storeBytes_wf bytes a
  other hm x hx := by
    rw [read_storeBytes bytes a x hm]
    split
    · rw [List.getElem?_eq_none (by have := not_inRegion_iff.1 hx; dsimp only at this; omega), Option.getD_none]
    · rfl
  listed c hc := (mem_storeBytes bytes a hc).imp inRegion_iff.2 id

end Sys2Proof.Machine
end

section
/-! Good states (10_state.md R28, R31; 70_reset_and_hazards.md R220): each change that a step can make keeps the
invariants. -/

namespace Sys2Proof.Machine

/-! ### Good blocks -/

section
variable {p : Platform} {b : Block}

/-- A descriptor write touches no invariant (10_state.md R26). -/
theorem good_store (h : Block.Good p b) (r : Reg) (v : Word) : Block.Good p (b.store r v) :=
  ⟨h.errCode, h.busy, h.errDone, h.reported, h.latched, h.checked, h.ordinary⟩

theorem errorNumber_ne_zero (e : ErrorCode) : errorNumber e ≠ 0 := by cases e <;> decide

theorem errorNumber_le (e : ErrorCode) : (errorNumber e).toNat ≤ 9 := by cases e <;> decide

/-- Error entry of an idle block (60_exceptions.md R183). -/
theorem good_errorEntry (h : Block.Good p b) (hidle : b.busy = false) (e : ErrorCode) :
    Block.Good p (b.clearStatus.errorEntry e) where
  errCode := ⟨fun _ => errorNumber_ne_zero e, fun _ => rfl⟩
  busy hbusy := absurd (hidle.symm.trans hbusy) Bool.false_ne_true
  errDone _ := rfl
  reported := errorNumber_le e
  latched := h.latched
  checked := h.checked
  ordinary := h.ordinary

/-- Latching registers that passed the check over ordinary memory (45_host_interface.md R164). -/
theorem good_latch (hcheck : check b.regs = none) (hord : footprintOrdinary p b.regs = true) :
    Block.Good p b.clearStatus.latch where
  errCode := by simp
  busy _ := ⟨rfl, rfl⟩
  errDone h := by simp at h
  reported := by simp
  latched := rfl
  checked := by simpa using hcheck
  ordinary := by simpa using hord

/-- Completion keeps ERR and ERRCODE (45_host_interface.md R166). -/
theorem good_finish (h : Block.Good p b) (acc : Vector Word 8) : Block.Good p (b.finish acc) where
  errCode := h.errCode
  busy hbusy := absurd hbusy Bool.false_ne_true
  errDone _ := rfl
  reported := h.reported
  latched := rfl
  checked := nofun
  ordinary := nofun

/-- A reset block has no error and nothing latched (70_reset_and_hazards.md R210). -/
theorem good_afterReset (p : Platform) (acc : Vector Word 8) : Block.Good p (Block.afterReset acc) where
  errCode := by simp [Block.afterReset]
  busy hbusy := absurd hbusy Bool.false_ne_true
  errDone herr := absurd herr Bool.false_ne_true
  reported := Nat.zero_le 9
  latched := rfl
  checked := nofun
  ordinary := nofun

end

/-! ### Good states -/

/-- The invariants speak of memory, blocks and platform alone. -/
theorem good_congr {s t : State} (h : State.Good s) (hmem : t.mem = s.mem) (hblocks : t.blocks = s.blocks)
    (hplatform : t.platform = s.platform) : State.Good t := by
  obtain ⟨mem, blocks, platform, program, replies, turns, engine, draws⟩ := t
  obtain rfl : mem = s.mem := hmem
  obtain rfl : blocks = s.blocks := hblocks
  obtain rfl : platform = s.platform := hplatform
  exact ⟨h.memWf, h.memAdmitted, h.blockCount, h.blocks, h.apart⟩

/-- What is running in a good state is latched, checked and over ordinary memory. -/
theorem good_running {s : State} (h : State.Good s) {n : Nat} {d : Descriptor} (hd : s.runningAt n = some d) :
    check d = none ∧ footprintOrdinary s.platform d = true := by
  obtain ⟨b, hb, hrun⟩ := runningAt_eq_some.1 hd
  have hgood := h.blocks b (List.mem_of_getElem? hb)
  obtain ⟨-, hlatched⟩ := running_eq_some.1 hrun
  exact ⟨hgood.checked d hlatched, hgood.ordinary d hlatched⟩

section
variable {s : State} {n : Nat} {f : Block → Block}

/-- An update keeps a state good when it leaves its block good, and running only what no other one conflicts with. -/
theorem good_updateBlock (h : State.Good s)
    (hgood : ∀ b, s.blocks[n]? = some b → Block.Good s.platform (f b))
    (hapart : ∀ b d, s.blocks[n]? = some b → (f b).running = some d →
      ∀ m e, m ≠ n → s.runningAt m = some e → conflict d e = false) :
    State.Good (s.updateBlock n f) where
  memWf := h.memWf
  memAdmitted := h.memAdmitted
  blockCount := (updateBlock_length ..).trans h.blockCount
  blocks := by
    intro c hc
    obtain ⟨m, hm⟩ := List.mem_iff_getElem?.1 hc
    rw [updateBlock_blocks] at hm
    split at hm
    · subst m
      obtain ⟨b, hb, rfl⟩ := Option.map_eq_some_iff.1 hm
      exact hgood b hb
    · exact h.blocks c (List.mem_of_getElem? hm)
  apart := by
    have hnew : ∀ d m e, (s.updateBlock n f).runningAt n = some d → m ≠ n → s.runningAt m = some e →
        conflict d e = false := by
      intro d m e hd hm he
      rw [updateBlock_runningAt_same, Option.bind_eq_some_iff] at hd
      obtain ⟨b, hb, hd⟩ := hd
      exact hapart b d hb hd m e hm he
    intro m m' d e hne hd he
    by_cases hm : m = n
    · subst hm
      rw [updateBlock_runningAt_other _ _ hne.symm] at he
      exact hnew d m' e hd hne.symm he
    · rw [updateBlock_runningAt_other _ _ hm] at hd
      by_cases hm' : m' = n
      · subst hm'
        rw [conflict_comm]
        exact hnew e m d he hm hd
      · rw [updateBlock_runningAt_other _ _ hm'] at he
        exact h.apart m m' d e hne hd he

/-- An update that never starts a command needs no look at the other blocks. -/
theorem good_updateBlock_of_running (h : State.Good s)
    (hgood : ∀ b, s.blocks[n]? = some b → Block.Good s.platform (f b))
    (hrun : ∀ b, (f b).running = b.running ∨ (f b).running = none) : State.Good (s.updateBlock n f) := by
  refine good_updateBlock h hgood fun b d hb hd m e hm he => ?_
  obtain hsame | hnone := hrun b
  · have hn : s.runningAt n = some d := by rw [runningAt_of_block hb, ← hsame, hd]
    exact h.apart n m d e hm.symm hn he
  · rw [hnone] at hd
    cases hd

end

/-- A change of memory confined to a region of existing bytes. -/
theorem good_mem {s : State} {r : Region} {m : Memory} (h : State.Good s) (hconf : ConfinedTo r s.mem m)
    (hadm : ∀ x, inRegion r x = true → memAdmits s.platform x = true) : State.Good { s with mem := m } where
  memWf := hconf.wf h.memWf
  memAdmitted c hc := (hconf.listed c hc).elim (hadm c.1) (h.memAdmitted c)
  blockCount := h.blockCount
  blocks := h.blocks
  apart := h.apart

/-! ### Moves -/

theorem good_hostEffect {s t : State} (h : State.Good s) (heff : HostEffect s t) : State.Good t := by
  have hblock : ∀ {n b}, s.blocks[n]? = some b → Block.Good s.platform b := fun hb =>
    h.blocks _ (List.mem_of_getElem? hb)
  cases heff with
  | replies ht =>
    rw [ht]
    exact good_congr h rfl rfl rfl
  | register n r v ht =>
    rw [ht]
    exact good_updateBlock_of_running h (fun b hb => good_store (hblock hb) r v) fun b => .inl rfl
  | error n b e hb hidle he ht =>
    rw [ht]
    refine good_updateBlock_of_running h (fun c hc => ?_) fun c => .inl rfl
    obtain rfl : b = c := Option.some_inj.1 (hb.symm.trans hc)
    exact good_errorEntry (hblock hb) hidle e
  | latch n b hb hidle he hord hconf ht =>
    rw [ht]
    refine good_updateBlock h (fun c hc => ?_) fun c d hc hd m e hm he => ?_
    all_goals obtain rfl : b = c := Option.some_inj.1 (hb.symm.trans hc)
    · exact good_latch he hord
    · obtain rfl : b.regs = d := Option.some_inj.1 hd
      exact conflictsWithRunning_eq_false hconf hm he
  | memory a bytes hadm hfree ht =>
    rw [ht]
    exact good_mem h (storeBytes_confinedTo _ _ _) (regionAdmitted_iff.1 hadm)

theorem good_complete {s : State} {r : Region} {m : Memory} (h : State.Good s) (hconf : ConfinedTo r s.mem m)
    (hadm : ∀ x, inRegion r x = true → memAdmits s.platform x = true) : State.Good (s.complete m) := by
  have hmem := good_mem h hconf hadm
  have hblock : State.Good (({ s with mem := m } : State).updateBlock s.engine (·.finish (freeLanes s.draws))) :=
    good_updateBlock_of_running hmem (fun b hb => good_finish (h.blocks b (List.mem_of_getElem? hb)) _)
      fun b => .inr rfl
  exact good_congr hblock rfl rfl rfl

theorem good_engineTurn {n : Nat} {s t : State} (h : State.Good s) (ht : engineTurn n s = .next t) :
    State.Good t := by
  obtain ⟨-, rfl⟩ | ⟨d, i, hd, hi, -, hdone | hstuck⟩ := engineTurn_effect ht
  · exact h
  · obtain ⟨hadm, rfl⟩ := hdone
    have hconf := commandFunction_confinedTo_of_decode hi (good_running h hd).1 s.mem
    exact good_complete (s := { s with engine := n }) (good_congr h rfl rfl rfl) hconf fun x hx =>
      footprintAdmitted_iff.1 hadm x (inFootprint_of_inRegion_outRange hx)
  · obtain ⟨-, rfl⟩ := hstuck
    exact good_congr h rfl rfl rfl

theorem abortMemory_wf {m : Memory} (h : Memory.wf m = true) (p : Platform) (draw : Nat)
    (running : Option Descriptor) : Memory.wf (abortMemory p m draw running) = true := by
  cases running with
  | none => exact h
  | some d => exact drawBytes_wf p _ _ _ h

/-- A byte that does not exist takes no free value (70_reset_and_hazards.md R211; log 9). -/
theorem mem_abortMemory {p : Platform} {m : Memory} {draw : Nat} {running : Option Descriptor} {c : Host.Cell}
    (h : c ∈ abortMemory p m draw running) : memAdmits p c.1 = true ∨ c ∈ m := by
  cases running with
  | none => exact .inr h
  | some d => exact mem_drawBytes p _ _ _ h

theorem good_resetBlock {s : State} (h : State.Good s) (n : Nat) : State.Good (s.resetBlock n) := by
  cases hb : s.blocks[n]? with
  | none => rwa [resetBlock_of_none hb]
  | some b =>
    rw [resetBlock_of_block hb]
    have hblock : State.Good (s.updateBlock n fun _ => Block.afterReset (freeLanes (s.draws + abortDraws b.running))) :=
      good_updateBlock_of_running h (fun _ _ => good_afterReset _ _) fun _ => .inr rfl
    exact ⟨abortMemory_wf h.memWf _ _ _, fun c hc => (mem_abortMemory hc).elim id (h.memAdmitted c),
      hblock.blockCount, hblock.blocks, hblock.apart⟩

/-! ### The statements -/

/-- Settles O49: whoever moves, the move is one of the changes above. -/
theorem stepKeepsGood : Obligations.StepKeepsGood := by
  intro s t h hstep
  have htaken : State.Good s.taken := good_congr h rfl rfl rfl
  obtain ⟨-, hhost⟩ | ⟨n, -, hengine⟩ | ⟨n, -, rfl⟩ := step_turn_cases hstep
  · obtain ⟨prog, heff⟩ := hostTurn_effect hhost
    have hgood : State.Good { s.taken with program := prog } := good_congr htaken rfl rfl rfl
    exact good_hostEffect hgood heff
  · exact good_engineTurn htaken hengine
  · exact good_resetBlock htaken n

/-- A reset machine runs nothing, has no error, and its memory lists nothing. -/
theorem good_resetOn (p : Platform) : State.Good (State.resetOn p) := by
  have hblock : ∀ b ∈ (State.resetOn p).blocks, b = Block.afterReset (Vector.replicate 8 0) := by
    intro b hb
    obtain ⟨-, -, rfl⟩ := List.mem_map.1 hb
    rfl
  refine ⟨rfl, nofun, List.length_map .., fun b hb => hblock b hb ▸ good_afterReset p _, ?_⟩
  intro n m d e hne hd he
  obtain ⟨b, hb, hrun⟩ := runningAt_eq_some.1 hd
  rw [hblock b (List.mem_of_getElem? hb)] at hrun
  cases hrun

/-- Settles O48: every block of a reset machine is `Block.afterReset`. -/
theorem resetIsGood : Obligations.ResetIsGood := by
  refine ⟨good_resetOn defaultPlatform, fun p => ⟨good_resetOn p, fun b hb => ?_⟩⟩
  obtain ⟨-, -, rfl⟩ := List.mem_map.1 hb
  exact ⟨readReg_afterReset _, rfl⟩

end Sys2Proof.Machine
end

section
/-! What a step leaves of a running command (10_state.md R31, R32): its latched descriptor and every byte of its
footprint, unless it is performed or its block is reset. -/

namespace Sys2Proof.Machine

/-- Block `n` is left running `d`, and no byte of `d`'s footprint has changed. -/
structure LeftRunning (n : Nat) (d : Descriptor) (s t : State) : Prop where
  running : t.runningAt n = some d
  footprint : ∀ x, inFootprint d x = true → Memory.read t.mem x = Memory.read s.mem x

section
variable {s t : State} {n m : Nat} {d e : Descriptor}

/-- Where memory and what the block runs are as before, the command is left running. -/
theorem leftRunning_of_eq (hd : s.runningAt n = some d) (hrun : t.runningAt n = s.runningAt n) (hmem : t.mem = s.mem) :
    LeftRunning n d s t :=
  ⟨hrun.trans hd, fun _ _ => by rw [hmem]⟩

/-- A change confined to a region that the footprint does not meet leaves the command running. -/
theorem leftRunning_of_confinedTo {r : Region} (hwf : Memory.wf s.mem = true) (hd : s.runningAt n = some d)
    (hrun : t.runningAt n = s.runningAt n) (hconf : ConfinedTo r s.mem t.mem)
    (hapart : ∀ x, inFootprint d x = true → inRegion r x = false) : LeftRunning n d s t :=
  ⟨hrun.trans hd, fun x hx => hconf.other hwf x (hapart x hx)⟩

/-- No other running command's out range holds a byte of the footprint (70_reset_and_hazards.md R220). -/
theorem not_outRange_of_apart (h : State.Good s) (hne : m ≠ n) (hd : s.runningAt n = some d)
    (he : s.runningAt m = some e) {x : Nat} (hx : inFootprint d x = true) : inRegion (outRange e) x = false := by
  rw [Bool.eq_false_iff]
  intro hout
  have hfree := (conflict_eq_false_iff.1 (h.apart n m d e hne.symm hd he)).2 x hout
  simp [hfree] at hx

/-- The host touches no running command and no byte of its footprint (70_reset_and_hazards.md R218). -/
theorem hostEffect_leftRunning (hwf : Memory.wf s.mem = true) (hd : s.runningAt n = some d) (heff : HostEffect s t) :
    LeftRunning n d s t := by
  have hother : ∀ {m b} (f : Block → Block), s.blocks[m]? = some b → b.busy = false →
      (s.updateBlock m f).runningAt n = s.runningAt n := by
    intro m b f hb hidle
    refine updateBlock_runningAt_other s f fun hnm => ?_
    rw [hnm, runningAt_of_idle hb hidle] at hd
    cases hd
  cases heff with
  | replies ht => exact leftRunning_of_eq hd (by rw [ht]; rfl) (by rw [ht])
  | register m r v ht =>
    rw [ht]
    exact leftRunning_of_eq hd (updateBlock_runningAt (store_running r v) s m n) rfl
  | error m b e hb hidle he ht =>
    rw [ht]
    exact leftRunning_of_eq hd (hother _ hb hidle) rfl
  | latch m b hb hidle he hord hconf ht =>
    rw [ht]
    exact leftRunning_of_eq hd (hother _ hb hidle) rfl
  | memory a bytes hadm hfree ht =>
    rw [ht]
    refine leftRunning_of_confinedTo hwf hd rfl (storeBytes_confinedTo _ _ _) fun x hx => ?_
    rw [Bool.eq_false_iff]
    intro hin
    simp [meetsRunningFootprint_eq_false hfree hd hin] at hx

/-- An engine's turn leaves the command running, or is its own and performs it. -/
theorem engineTurn_leftRunning (h : State.Good s) (hd : s.runningAt n = some d) (ht : engineTurn m s = .next t) :
    LeftRunning n d s t ∨ (t.runningAt n = none ∧ footprintAdmitted s.platform d = true) := by
  obtain ⟨-, rfl⟩ | ⟨e, i, he, hi, -, ⟨hadm, rfl⟩ | ⟨-, rfl⟩⟩ := engineTurn_effect ht
  · exact .inl (leftRunning_of_eq hd rfl rfl)
  · by_cases hne : m = n
    · subst hne
      obtain rfl : e = d := Option.some_inj.1 (he.symm.trans hd)
      exact .inr ⟨complete_runningAt_same { s with engine := m } _, hadm⟩
    · have hconf := commandFunction_confinedTo_of_decode hi (good_running h he).1 s.mem
      have hrun := complete_runningAt_other { s with engine := m } (commandFunction i (encode i) s.mem) (Ne.symm hne)
      exact .inl (leftRunning_of_confinedTo h.memWf hd hrun hconf fun x hx => not_outRange_of_apart h hne hd he hx)
  · exact .inl (leftRunning_of_eq hd rfl rfl)

/-- An aborted command's free values lie in its out range (70_reset_and_hazards.md R211). -/
theorem resetBlock_leftRunning (h : State.Good s) (hne : m ≠ n) (hd : s.runningAt n = some d) :
    LeftRunning n d s (s.resetBlock m) := by
  refine ⟨(resetBlock_runningAt_other s hne.symm).trans hd, fun x hx => ?_⟩
  cases he : s.runningAt m with
  | none => rw [resetBlock_mem_of_idle he]
  | some e => exact read_resetBlock_of_not_out he h.memWf (not_outRange_of_apart h hne hd he hx)

/-- A command that a step does not leave running was reset, or its footprint exists and it was performed. -/
theorem step_leftRunning (h : State.Good s) (hstep : step s = .next t) (hd : s.runningAt n = some d) :
    LeftRunning n d s t ∨
      (t.runningAt n = none ∧ (nextTurn s = .reset n ∨ footprintAdmitted s.platform d = true)) := by
  have htaken : State.Good s.taken := good_congr h rfl rfl rfl
  have hdtaken : s.taken.runningAt n = some d := hd
  obtain ⟨-, hhost⟩ | ⟨m, -, hengine⟩ | ⟨m, hturn, rfl⟩ := step_turn_cases hstep
  · obtain ⟨prog, heff⟩ := hostTurn_effect hhost
    have hleft := hostEffect_leftRunning (s := { s.taken with program := prog }) h.memWf hd heff
    exact .inl ⟨hleft.running, hleft.footprint⟩
  · obtain hleft | ⟨hnone, hadm⟩ := engineTurn_leftRunning htaken hdtaken hengine
    · exact .inl ⟨hleft.running, hleft.footprint⟩
    · exact .inr ⟨hnone, .inr hadm⟩
  · by_cases hne : m = n
    · subst hne
      exact .inr ⟨resetBlock_runningAt_same _ _, .inl hturn⟩
    · have hleft := resetBlock_leftRunning htaken hne hdtaken
      exact .inl ⟨hleft.running, hleft.footprint⟩

end

/-! ### The statements -/

/-- Settles O50: `step_leftRunning`, why the command ended left out. -/
theorem runningFootprintIsStable : Obligations.RunningFootprintIsStable := by
  intro s t n d h hstep hd
  obtain hleft | ⟨hnone, -⟩ := step_leftRunning h hstep hd
  · exact .inr ⟨hleft.running, hleft.footprint⟩
  · exact .inl hnone

theorem footprintAdmitted_eq_false {p : Platform} {d : Descriptor} {x : Nat} (hx : inFootprint d x = true)
    (hmissing : memAdmits p x = false) : footprintAdmitted p d = false := by
  rw [Bool.eq_false_iff]
  intro hadm
  simp [footprintAdmitted_iff.1 hadm x hx] at hmissing

/-- An engine's turn with a command latched is that command's perform step (45_host_interface.md R171). -/
theorem engineTurn_of_running {s : State} {n : Nat} {d : Descriptor} {i : Instr} (hd : s.runningAt n = some d)
    (hi : decode d = .ok i) : engineTurn n s = exec i { s with engine := n } := by
  simp only [engineTurn, fetch, hd, Option.map_some, hi]

/-- The step of a listed engine's turn. -/
theorem step_engine {s : State} {n : Nat} {rest : List Turn} (ht : s.turns = .engine n :: rest) :
    step s = engineTurn n { s with turns := rest } := by
  simp [step, nextMove, ht, move]

/-- A command over a missing byte is not performed (20_memory.md R59; log 10). -/
theorem exec_of_missing {i : Instr} {s : State} (hord : footprintOrdinary s.platform (encode i) = true)
    (hadm : footprintAdmitted s.platform (encode i) = false) : exec i s = .next s := by
  rw [exec_eq_perform, perform, if_pos hord, hadm, if_neg Bool.false_ne_true]

/-- Settles O26: `step_leftRunning` with no reset listed and the footprint not admitted; and the engine's own turn is a
perform step that is not enabled. -/
theorem missingMemoryLeavesCommandStuck : Obligations.MissingMemoryLeavesCommandStuck := by
  refine ⟨?stays, ?passes⟩
  case stays =>
    intro s t n d x h hd hx hmissing hturn hstep
    obtain hleft | ⟨-, hreset | hadm⟩ := step_leftRunning h hstep hd
    · exact hleft.running
    · exact absurd (head?_of_nextTurn_reset hreset) hturn
    · simp [footprintAdmitted_eq_false hx hmissing] at hadm
  case passes =>
    intro s n d i rest x ht hd hi hord hx hmissing
    have hfoot := footprint_of_decode hi
    rw [step_engine ht, engineTurn_of_running (s := { s with turns := rest }) hd hi]
    refine exec_of_missing ?_ ?_
    · rwa [footprintOrdinary, hfoot]
    · rw [footprintAdmitted, hfoot]
      exact footprintAdmitted_eq_false hx hmissing

end Sys2Proof.Machine
end

section
/-! What no step, and what no engine, changes: the platform and the number of blocks (00_scope.md R8), the descriptor
registers (10_state.md R21), memory outside the out range (20_memory.md R58). -/

namespace Sys2Proof.Machine

/-! ### The platform and the blocks -/

theorem hostEffect_platform {s t : State} (h : HostEffect s t) :
    t.platform = s.platform ∧ t.blocks.length = s.blocks.length := by
  cases h with
  | replies ht => rw [ht]; exact ⟨rfl, rfl⟩
  | register n r v ht => rw [ht]; exact ⟨rfl, updateBlock_length ..⟩
  | error n b e hb hidle he ht => rw [ht]; exact ⟨rfl, updateBlock_length ..⟩
  | latch n b hb hidle he hord hconf ht => rw [ht]; exact ⟨rfl, updateBlock_length ..⟩
  | memory a bytes hadm hfree ht => rw [ht]; exact ⟨rfl, rfl⟩

theorem engineTurn_platform {n : Nat} {s t : State} (h : engineTurn n s = .next t) :
    t.platform = s.platform ∧ t.blocks.length = s.blocks.length := by
  obtain ⟨-, rfl⟩ | ⟨d, i, -, -, -, ⟨-, rfl⟩ | ⟨-, rfl⟩⟩ := engineTurn_effect h
  · exact ⟨rfl, rfl⟩
  · exact ⟨rfl, List.length_modify ..⟩
  · exact ⟨rfl, rfl⟩

theorem resetBlock_length (s : State) (n : Nat) : (s.resetBlock n).blocks.length = s.blocks.length := by
  cases hb : s.blocks[n]? with
  | none => rw [resetBlock_of_none hb]
  | some b => rw [resetBlock_of_block hb]; exact updateBlock_length ..

/-- Settles O52: one case for each agent. -/
theorem stepKeepsPlatform : Obligations.StepKeepsPlatform := by
  intro s t hstep
  obtain ⟨-, hhost⟩ | ⟨n, -, hengine⟩ | ⟨n, -, rfl⟩ := step_turn_cases hstep
  · obtain ⟨prog, heff⟩ := hostTurn_effect hhost
    exact hostEffect_platform (s := { s.taken with program := prog }) heff
  · exact engineTurn_platform (s := s.taken) hengine
  · exact ⟨resetBlock_platform _ n, resetBlock_length _ n⟩

/-! ### The descriptor registers -/

/-- An update that keeps its block's registers keeps every block's. -/
theorem updateBlock_regs (s : State) (n m : Nat) {f : Block → Block} (hf : ∀ b, (f b).regs = b.regs) :
    ((s.updateBlock n f).blocks[m]?).map Block.regs = (s.blocks[m]?).map Block.regs := by
  rw [updateBlock_blocks]
  split
  · rw [Option.map_map]
    exact congrArg (Option.map · _) (funext hf)
  · rfl

theorem complete_regs (s : State) (mem : Memory) (m : Nat) :
    ((s.complete mem).blocks[m]?).map Block.regs = (s.blocks[m]?).map Block.regs :=
  updateBlock_regs s s.engine m fun b => finish_regs b _

/-- Settles O51: completing a command keeps the registers, and the turn changes the blocks in no other way. -/
theorem enginesWriteNoRegister : Obligations.EnginesWriteNoRegister := by
  intro s t n rest ht hstep m
  rw [step_engine ht] at hstep
  obtain ⟨-, rfl⟩ | ⟨d, i, -, -, -, ⟨-, rfl⟩ | ⟨-, rfl⟩⟩ := engineTurn_effect hstep
  · rfl
  · exact complete_regs _ _ m
  · rfl

/-- Settles O43: the command completed, which leaves what `Completed` says and changes its out range, or nothing
changed. -/
theorem commandsWriteOnlyTheirOutRange : Obligations.CommandsWriteOnlyTheirOutRange := by
  intro i s t hwf hcheck hexec
  obtain ⟨-, ⟨-, rfl⟩ | ⟨-, rfl⟩⟩ := exec_cases hexec
  · have hdone := completed_complete s (commandFunction i (encode i) s.mem)
    exact ⟨(commandFunction_confinedTo hcheck s.mem).other hwf, hdone.others, complete_regs s _, hdone.platform,
      hdone.program, hdone.replies, hdone.turns⟩
  · exact ⟨fun _ _ => rfl, fun _ _ => rfl, fun _ => rfl, rfl, rfl, rfl, rfl⟩

/-! ### The engine's step -/

/-- A table word that decodes is a descriptor that decodes (log 17). -/
theorem decode_of_decodeTableWord {nbits w : Nat} {i : Instr} (h : decodeTableWord nbits w = some i) :
    decode (descriptorOfBits (w % 2 ^ nbits)) = .ok i := by
  rw [decodeTableWord, decodeWords_words] at h
  split at h
  · rename_i hi
    cases h
    exact hi
  · cases h

theorem withLatched_runningAt {s : State} {b : Block} (hb : s.blocks[0]? = some b) (d : Descriptor) :
    (s.withLatched d).runningAt 0 = some d := by
  refine (updateBlock_runningAt_same s 0 _).trans ?_
  rw [hb]
  rfl

/-- Settles O5: a listed engine's turn with a command latched is that command's exec. -/
theorem stepPerformsLatchedCommand : Obligations.StepPerformsLatchedCommand := by
  refine ⟨fun s n rest d i ht hd hi => ?listed, fun s b nbits w i hb hi => ?fetchWord⟩
  case listed =>
    rw [step_engine ht]
    exact engineTurn_of_running (s := { s with turns := rest }) hd hi
  case fetchWord =>
    rw [step_engine (rest := s.turns) rfl]
    exact engineTurn_of_running (s := { s.withFetchWord nbits w with turns := s.turns }) (withLatched_runningAt hb _)
      (decode_of_decodeTableWord hi)

/-! ### The default turn (log 2) -/

theorem performEnabled_iff {s : State} {n : Nat} :
    performEnabled s n = true ↔ ∃ d, s.runningAt n = some d ∧ footprintAdmitted s.platform d = true :=
  Option.any_eq_true ..

/-- With some Perform enabled the default turn is the engine of the first block whose is. -/
theorem defaultTurn_of_enabled {s : State} {n : Nat} (h : performEnabled s n = true) :
    ∃ m, m ≤ n ∧ performEnabled s m = true ∧ defaultTurn s = .engine m := by
  have hn : n < s.blocks.length := by
    obtain ⟨d, hd, -⟩ := performEnabled_iff.1 h
    obtain ⟨b, hb, -⟩ := runningAt_eq_some.1 hd
    exact (List.getElem?_eq_some_iff.1 hb).1
  cases hfind : (List.range s.blocks.length).find? (performEnabled s) with
  | none => exact absurd h (List.find?_eq_none.1 hfind n (List.mem_range.2 hn))
  | some m =>
    obtain ⟨hm, -, hfirst⟩ := List.find?_range_eq_some.1 hfind
    refine ⟨m, ?_, hm, by rw [defaultTurn, hfind]⟩
    by_contra hlt
    simpa [h] using hfirst n (Nat.not_le.1 hlt)

/-- Settles O56: the step is the engine's turn of the first block whose Perform is enabled. -/
theorem defaultTurnPerformsEnabled : Obligations.DefaultTurnPerformsEnabled := by
  intro s n ht h
  obtain ⟨m, hle, hm, hturn⟩ := defaultTurn_of_enabled h
  obtain ⟨d, hd, hadm⟩ := performEnabled_iff.1 hm
  refine ⟨m, d, hle, hd, hadm, fun i hi => ?_⟩
  have hstep : step s = engineTurn m s := by rw [step, nextMove, ht, hturn, move]
  rw [hstep, engineTurn_of_running hd hi]

end Sys2Proof.Machine
end

section
/-! Free values (10_state.md R33; 70_reset_and_hazards.md R211): which draws a step makes, and where it puts them. -/

namespace Sys2Proof.Machine

/-! ### The bytes of an aborted out range -/

/-- Each existing byte of the range takes its own draw, every other byte is as before (log 9). -/
theorem read_drawBytes (p : Platform) (n : Nat) : ∀ {m : Memory} (a draw k : Nat), Memory.wf m = true → k < n →
    Memory.read (drawBytes p m a draw n) (a + k) =
      if memAdmits p (a + k) then Config.freeByte (draw + k) else Memory.read m (a + k) := by
  induction n with
  | zero => intro m a draw k _ hk; omega
  | succ n ih =>
    intro m a draw k hm hk
    rw [drawBytes]
    have hm' : Memory.wf (if memAdmits p a then Memory.write m a (Config.freeByte draw) else m) = true := by
      split
      · exact Memory.write_wf _ _ hm
      · exact hm
    cases k with
    | zero =>
      rw [read_drawBytes_other p n _ _ _ hm' (by omega)]
      split
      · rw [Memory.read_write hm]; simp [*]
      · simp [*]
    | succ k =>
      have haddr : a + (k + 1) = a + 1 + k := by omega
      have hdraw : draw + (k + 1) = draw + 1 + k := by omega
      rw [haddr, hdraw, ih _ _ _ hm' (by omega)]
      split
      · rfl
      · split
        · rw [Memory.read_write hm, if_neg (by omega)]
        · rfl

/-- The bytes that a reset leaves in the out range of the command it aborts. -/
theorem read_resetBlock_out {s : State} {n : Nat} {d : Descriptor} (hd : s.runningAt n = some d)
    (hm : Memory.wf s.mem = true) {k : Nat} (hk : k < d.outLen.toNat) :
    Memory.read (s.resetBlock n).mem (d.outBase.toNat + k) =
      if memAdmits s.platform (d.outBase.toNat + k) then Config.freeByte (s.draws + k)
      else Memory.read s.mem (d.outBase.toNat + k) := by
  rw [resetBlock_mem, hd, abortMemory]
  exact read_drawBytes _ _ _ _ k hm hk

/-! ### The counter and the lanes -/

theorem freeLanes_getElem (draw : Nat) {k : Nat} (hk : k < 8) : (freeLanes draw)[k] = Config.freeAcc (draw + k) := by
  simp [freeLanes]

theorem resetBlock_draws {s : State} {n : Nat} {b : Block} (hb : s.blocks[n]? = some b) :
    (s.resetBlock n).draws = s.draws + abortDraws (s.runningAt n) + 8 := by
  rw [resetBlock_of_block hb, runningAt_of_block hb]

/-- The lanes of a reset block are drawn after the bytes of the out range. -/
theorem resetBlock_lanes {s : State} {n : Nat} {b : Block} (hb : s.blocks[n]? = some b) :
    ∃ c, (s.resetBlock n).blocks[n]? = some c ∧
      ∀ (k : Nat) (hk : k < 8), c.acc[k] = Config.freeAcc (s.draws + abortDraws (s.runningAt n) + k) := by
  rw [runningAt_of_block hb]
  exact ⟨_, resetBlock_same hb, fun k hk => freeLanes_getElem _ hk⟩

/-- Settles O46: the reset draws the out range byte by byte, and counts past it. -/
theorem abortedOutRangeIsFree : Obligations.AbortedOutRangeIsFree := by
  intro s n d rest ht hd hm
  refine ⟨_, step_reset ht, ?counter, fun k hk => read_resetBlock_out (s := { s with turns := rest }) hd hm hk⟩
  case counter =>
    obtain ⟨b, hb, -⟩ := runningAt_eq_some.1 hd
    have hrun : ({ s with turns := rest } : State).runningAt n = some d := hd
    rw [resetBlock_draws (s := { s with turns := rest }) hb, hrun, abortDraws]
    exact Nat.le_add_right _ 8

/-- The host draws nothing. -/
theorem hostEffect_draws {s t : State} (h : HostEffect s t) : t.draws = s.draws := by
  cases h with
  | replies ht => rw [ht]
  | register n r v ht => rw [ht]; rfl
  | error n b e hb hidle he ht => rw [ht]; rfl
  | latch n b hb hidle he hord hconf ht => rw [ht]; rfl
  | memory a bytes hadm hfree ht => rw [ht]

/-- An engine's turn draws its block's lanes when its Perform is enabled. -/
theorem engineTurn_draws {n : Nat} {s t : State} (h : engineTurn n s = .next t) (hen : performEnabled s n = true) :
    t.draws = s.draws + 8 ∧
      ∃ c, t.blocks[n]? = some c ∧ ∀ (k : Nat) (hk : k < 8), c.acc[k] = Config.freeAcc (s.draws + k) := by
  obtain ⟨d, hd, hadm⟩ := performEnabled_iff.1 hen
  obtain ⟨hnone, -⟩ | ⟨e, i, he, -, -, ⟨-, rfl⟩ | ⟨hstuck, -⟩⟩ := engineTurn_effect h
  · rw [hd] at hnone
    cases hnone
  · obtain ⟨b, hb, -⟩ := runningAt_eq_some.1 hd
    exact ⟨rfl, b.finish (freeLanes s.draws), by simp [hb], fun k hk => freeLanes_getElem _ hk⟩
  · obtain rfl : e = d := Option.some_inj.1 (he.symm.trans hd)
    simp [hadm] at hstuck

/-- An engine's turn draws nothing else. -/
theorem engineTurn_draws_of_not_enabled {n : Nat} {s t : State} (h : engineTurn n s = .next t)
    (hen : performEnabled s n = false) : t.draws = s.draws := by
  obtain ⟨-, rfl⟩ | ⟨d, i, hd, -, -, ⟨hadm, -⟩ | ⟨-, rfl⟩⟩ := engineTurn_effect h
  · rfl
  · simp [performEnabled_iff.2 ⟨d, hd, hadm⟩] at hen
  · rfl

/-- A reset of a block that is not there draws nothing (log 16). -/
theorem resetBlock_draws_of_none {s : State} {n : Nat} (hb : s.blocks[n]? = none) :
    (s.resetBlock n).draws = s.draws := by
  rw [resetBlock_of_none hb]

theorem draws_le_resetBlock (s : State) (n : Nat) : s.draws ≤ (s.resetBlock n).draws := by
  cases hb : s.blocks[n]? with
  | none => exact (resetBlock_draws_of_none hb).ge
  | some b => rw [resetBlock_draws hb]; omega

theorem draws_le_engineTurn {n : Nat} {s t : State} (h : engineTurn n s = .next t) : s.draws ≤ t.draws := by
  cases hen : performEnabled s n with
  | false => exact (engineTurn_draws_of_not_enabled h hen).ge
  | true => rw [(engineTurn_draws h hen).1]; omega

/-- Settles O57: each agent's draws; the other clauses of each case speak of another agent's turn. -/
theorem drawsAreFresh : Obligations.DrawsAreFresh := by
  intro s t hstep turn
  have hdef : turn = nextTurn s := rfl
  clear_value turn
  obtain ⟨hturn, hhost⟩ | ⟨n, hturn, hengine⟩ | ⟨n, hturn, rfl⟩ := step_turn_cases hstep <;>
    rw [hdef, hturn]
  · obtain ⟨prog, heff⟩ := hostTurn_effect hhost
    have hdraws : t.draws = s.draws := hostEffect_draws (s := { s.taken with program := prog }) heff
    exact ⟨hdraws.ge, nofun, nofun, fun _ _ => hdraws⟩
  · refine ⟨draws_le_engineTurn (s := s.taken) hengine, ?_, nofun, fun hen _ => ?_⟩
    · rintro _ ⟨⟩ hen
      exact engineTurn_draws (s := s.taken) hengine hen
    · exact engineTurn_draws_of_not_enabled (s := s.taken) hengine (hen n rfl)
  · refine ⟨draws_le_resetBlock s.taken n, nofun, ?_, fun _ hnone => resetBlock_draws_of_none (hnone n rfl)⟩
    rintro _ b ⟨⟩ hb bytes
    have hbytes : bytes = abortDraws (s.taken.runningAt n) := by
      rw [taken_runningAt]
      cases hd : s.runningAt n <;> simp [bytes, hd, abortDraws]
    clear_value bytes
    subst hbytes
    refine ⟨resetBlock_draws (s := s.taken) hb, resetBlock_lanes (s := s.taken) hb, fun d hd hm k hk hadm => ?_⟩
    rw [taken_runningAt, hd] at hk
    rw [read_resetBlock_out (s := s.taken) hd hm hk]
    exact if_pos hadm

end Sys2Proof.Machine
end

section
/-! The host's register reads, and what the STATUS word and the register map hold (10_state.md R20, R28;
45_host_interface.md R167). -/

namespace Sys2Proof.Machine

/-! ### The register map -/

theorem regAt_eq_some_iff {off : Nat} {r : Reg} : regAt off = some r ↔ regOffset r = off :=
  ⟨regOffset_of_regAt, fun h => h ▸ regAt_regOffset r⟩

/-- Every multiple of 8 below `0x60` is the offset of a register (10_state.md R20). -/
theorem exists_regOffset {off : Nat} (hlt : off < 0x60) (hmod : off % 8 = 0) : ∃ r, regOffset r = off := by
  obtain ⟨j, rfl⟩ := Nat.dvd_of_mod_eq_zero hmod
  have hj : j < 12 := by omega
  have hall : ∀ j < 12, ∃ r ∈ [Reg.cmd, .outBase, .aBase, .bBase, .aRows, .aCols, .bCols, .outLen, .aLen, .bLen,
      .ctrl, .status], regOffset r = 8 * j := by decide
  obtain ⟨r, -, hr⟩ := hall j hj
  exact ⟨r, hr⟩

theorem regAt_eq_none_iff {off : Nat} : regAt off = none ↔ (0x60 ≤ off ∨ off % 8 ≠ 0) := by
  constructor
  · intro h
    by_contra hmapped
    obtain ⟨r, hr⟩ := exists_regOffset (off := off) (by omega) (by omega)
    rw [regAt_eq_some_iff.2 hr] at h
    cases h
  · rintro h
    rw [Option.eq_none_iff_forall_ne_some]
    intro r hr
    obtain ⟨hlt, hmod⟩ := regOffset_mapped r
    rw [regAt_eq_some_iff.1 hr] at hlt hmod
    omega

/-- Settles O17: the offsets are computed, and `regAt` is the inverse of `regOffset`. -/
theorem registerMapIsExact : Obligations.RegisterMapIsExact :=
  ⟨by decide, fun _ => ⟨regAt_eq_none_iff, fun _ => regAt_eq_some_iff⟩⟩

/-! ### The STATUS word -/

section
variable (b : Block)

/-- A field of the STATUS word as a quotient and a remainder of its number. -/
theorem extractLsb'_statusWord_toNat (lo len : Nat) :
    ((statusWord b).extractLsb' lo len).toNat =
      (b.busy.toNat + 2 * b.done.toNat + 4 * b.err.toNat + 256 * b.errCode.toNat) / 2 ^ lo % 2 ^ len := by
  rw [BitVec.extractLsb'_toNat, statusWord_toNat, Nat.shiftRight_eq_div_pow]

theorem getLsbD_statusWord (i : Nat) :
    (statusWord b).getLsbD i =
      decide ((b.busy.toNat + 2 * b.done.toNat + 4 * b.err.toNat + 256 * b.errCode.toNat) / 2 ^ i % 2 = 1) := by
  rw [BitVec.getLsbD, Nat.testBit_eq_decide_div_mod_eq, statusWord_toNat]

theorem statusWord_busy : (statusWord b).getLsbD 0 = b.busy := by
  rw [getLsbD_statusWord]
  cases b.busy <;> simp <;> omega

theorem statusWord_done : (statusWord b).getLsbD 1 = b.done := by
  have := b.busy.toNat_lt
  rw [getLsbD_statusWord]
  cases b.done <;> simp <;> omega

theorem statusWord_err : (statusWord b).getLsbD 2 = b.err := by
  have := b.busy.toNat_lt
  have := b.done.toNat_lt
  rw [getLsbD_statusWord]
  cases b.err <;> simp <;> omega

theorem statusWord_errCode : (statusWord b).extractLsb' 8 8 = b.errCode := by
  have := b.busy.toNat_lt
  have := b.done.toNat_lt
  have := b.err.toNat_lt
  have := b.errCode.isLt
  rw [← BitVec.toNat_inj, extractLsb'_statusWord_toNat]
  omega

/-- Bits 7:3 of STATUS are 0 (10_state.md R28). -/
theorem statusWord_low_reserved : (statusWord b).extractLsb' 3 5 = 0 := by
  have := b.busy.toNat_lt
  have := b.done.toNat_lt
  have := b.err.toNat_lt
  rw [← BitVec.toNat_inj, extractLsb'_statusWord_toNat]
  change _ = 0
  omega

/-- Bits 63:16 of STATUS are 0 (10_state.md R28). -/
theorem statusWord_high_reserved : (statusWord b).extractLsb' 16 48 = 0 := by
  have := b.busy.toNat_lt
  have := b.done.toNat_lt
  have := b.err.toNat_lt
  have := b.errCode.isLt
  rw [← BitVec.toNat_inj, extractLsb'_statusWord_toNat]
  change _ = 0
  omega

end

/-- A good block that is BUSY reports nothing else (10_state.md R28). -/
theorem statusWord_of_busy {p : Platform} {b : Block} (h : Block.Good p b) (hbusy : b.busy = true) :
    statusWord b = 1 := by
  obtain ⟨hdone, herr⟩ := h.busy hbusy
  have hcode : b.errCode = 0 := by
    by_contra hne
    simp [h.errCode.2 hne] at herr
  rw [← BitVec.toNat_inj, statusWord_toNat, hbusy, hdone, herr, hcode]
  rfl

/-- Settles O18: the fields are those of the block, and its invariants are the word's. -/
theorem statusWordFields : Obligations.StatusWordFields := by
  intro p b h
  refine ⟨statusWord_low_reserved b, statusWord_high_reserved b,
    ⟨statusWord_busy b, statusWord_done b, statusWord_err b, statusWord_errCode b⟩, ?_, ?_, ?_⟩
  · rw [statusWord_err, statusWord_errCode]
    exact h.errCode
  · rw [statusWord_busy]
    exact statusWord_of_busy h
  · rw [statusWord_err, statusWord_done]
    exact h.errDone

/-! ### Register transactions -/

/-- An `RD` from a block that is there answers with the register it names. -/
theorem transact_RD (s : State) {n : Nat} {b : Block} (hb : s.blocks[n]? = some b) (r : Reg) :
    transact (RD n r) s = .next (readReg s b r) := by
  have hacc : registerAccess s n (regOffset r) 64 = some (b, r) := registerAccess_eq_some.2 ⟨rfl, hb, rfl⟩
  simp [RD, transact, hacc]

/-- POLL reads STATUS and stays in the program while BUSY is 1 (30_encoding.md R84). -/
theorem transact_poll (s : State) {n : Nat} {b : Block} (hb : s.blocks[n]? = some b) :
    transact (.poll n) s =
      .next { readReg s b .status with program := if b.busy then .poll n :: s.program else s.program } := by
  have hacc : registerAccess s n (regOffset .status) 64 = some (b, .status) :=
    registerAccess_eq_some.2 ⟨rfl, hb, rfl⟩
  simp only [transact, hacc, readReg_status, statusWord_busy]
  split <;> rfl

/-- The descriptor registers are the words of a command in the order of their offsets (10_state.md R26). -/
theorem getReg_eq_words {r : Reg} (hc : r ≠ .ctrl) (hs : r ≠ .status) (d : Descriptor) :
    getReg d r = (d.words[regOffset r / 8]?).getD 0 := by
  cases r with
  | ctrl => exact absurd rfl hc
  | status => exact absurd rfl hs
  | _ => rfl

/-- Settles O15: the reply is `Block.readReg`, and that is each kind of register's value. -/
theorem registerReadReturnsValue : Obligations.RegisterReadReturnsValue := by
  intro s n b r prog rest ht hp hb
  refine ⟨b.readReg r, (step_host ht hp).trans (transact_RD { s with turns := rest, program := prog } hb r),
    ?ctrl, ?status, fun hc hs => ?descriptor⟩
  case ctrl =>
    rintro rfl
    rfl
  case status =>
    rintro rfl
    exact statusWord_toNat b
  case descriptor => rw [readReg_of_ne_status hs, getReg_eq_words hc hs]

/-- Settles O19: the step is POLL's transaction. -/
theorem pollRepeatsWhileBusy : Obligations.PollRepeatsWhileBusy := by
  intro s n b prog rest ht hp hb
  exact (step_host ht hp).trans (transact_poll { s with turns := rest, program := prog } hb)

/-- Settles O14: a CTRL write asks for nothing with bit 0 clear, and a STATUS write never does. -/
theorem ctrlAndStatusStoreNothing : Obligations.CtrlAndStatusStoreNothing := by
  intro s n b r v prog rest ht hp hb h
  rw [step_WR ht hp hb]
  obtain ⟨rfl, hv⟩ | rfl := h
  · rw [writeReg_ctrl, hv, if_neg Bool.false_ne_true]
  · rfl

end Sys2Proof.Machine
end

section
/-! A START that passes its check (45_host_interface.md R164; 70_reset_and_hazards.md R220, R221): latched over ordinary
memory and beside no conflicting command, else refused. -/

namespace Sys2Proof.Machine

/-- The step of a START of an idle block. -/
theorem step_start {s : State} {n : Nat} {b : Block} {v : Word} {prog : List HostOp} {rest : List Turn}
    (ht : s.turns = .host :: rest) (hp : s.program = WR n .ctrl v :: prog) (hb : s.blocks[n]? = some b)
    (hidle : b.busy = false) (hv : v.getLsbD 0 = true) :
    step s = acceptStart { s with turns := rest, program := prog } n b := by
  rw [step_WR ht hp hb, writeReg_ctrl, if_pos hv, start_idle hidle]

/-- The three outcomes of a START whose check passes (log 12 for their order). -/
theorem acceptStart_pass {s : State} {n : Nat} {b : Block} (h : check b.regs = none) :
    acceptStart s n b =
      if footprintOrdinary s.platform b.regs then
        if conflictsWithRunning s n b.regs then .refused .crossBlockHazard
        else .next (s.updateBlock n fun b => b.clearStatus.latch)
      else .refused .footprintNotMemory := by
  rw [acceptStart, h]

theorem conflictsWithRunning_eq_false_iff {s : State} {n : Nat} {d : Descriptor} :
    conflictsWithRunning s n d = false ↔ ∀ m e, m ≠ n → s.runningAt m = some e → conflict d e = false := by
  refine ⟨fun h m e hm he => conflictsWithRunning_eq_false h hm he, fun h => ?_⟩
  rw [conflictsWithRunning, List.any_eq_false]
  intro m _ hm
  rw [Bool.and_eq_true, decide_eq_true_eq, Option.any_eq_true] at hm
  obtain ⟨hne, e, he, hconf⟩ := hm
  simp [h m e hne he] at hconf

/-- The started block has BUSY 1 and nothing else in STATUS. -/
theorem statusWord_latch (b : Block) : (statusWord b.clearStatus.latch).toNat = 1 := by
  simp [statusWord_toNat]

/-- The step of a START that latches its command. -/
theorem step_start_latch {s : State} {n : Nat} {b : Block} {v : Word} {prog : List HostOp} {rest : List Turn}
    (ht : s.turns = .host :: rest) (hp : s.program = WR n .ctrl v :: prog) (hb : s.blocks[n]? = some b)
    (hidle : b.busy = false) (hv : v.getLsbD 0 = true) (hcheck : check b.regs = none)
    (hord : footprintOrdinary s.platform b.regs = true)
    (hfree : ∀ m d, m ≠ n → s.runningAt m = some d → conflict b.regs d = false) :
    step s = .next (({ s with turns := rest, program := prog } : State).updateBlock n
      fun b => b.clearStatus.latch) := by
  have hconf : conflictsWithRunning { s with turns := rest, program := prog } n b.regs = false :=
    conflictsWithRunning_eq_false_iff.2 fun m d hm hd => hfree m d hm hd
  rw [step_start ht hp hb hidle hv, acceptStart_pass hcheck, if_pos hord, hconf, if_neg Bool.false_ne_true]

/-- Settles O11: `step_start_latch`, and the latched block's fields. -/
theorem passingStartLatches : Obligations.PassingStartLatches := by
  intro s n b v prog rest ht hp hb hidle hv hcheck hord hfree
  exact ⟨_, b.clearStatus.latch, step_start_latch ht hp hb hidle hv hcheck hord hfree,
    onlyBlock_updateBlock ht hp n fun b => b.clearStatus.latch, by simp [hb], rfl, rfl, rfl, rfl, rfl, rfl, rfl,
    statusWord_latch b⟩

/-- Two commands conflict where a byte of one's out range lies in the other's footprint. -/
theorem conflict_of_byte {d e : Descriptor} {x : Nat}
    (h : (inRegion (outRange d) x = true ∧ inFootprint e x = true) ∨
      (inRegion (outRange e) x = true ∧ inFootprint d x = true)) : conflict d e = true := by
  by_contra hno
  obtain ⟨hd, he⟩ := conflict_eq_false_iff.1 (Bool.eq_false_iff.2 hno)
  obtain ⟨hout, hfoot⟩ | ⟨hout, hfoot⟩ := h
  · simp [hd x hout] at hfoot
  · simp [he x hout] at hfoot

/-- Settles O24: the running command is one that `conflictsWithRunning` finds. -/
theorem crossBlockHazardIsRefused : Obligations.CrossBlockHazardIsRefused := by
  intro s n m b d v prog rest x ht hp hb hidle hv hcheck hord hne hd hbyte
  have hconf : conflictsWithRunning { s with turns := rest, program := prog } n b.regs = true := by
    by_contra hno
    have := conflictsWithRunning_eq_false (Bool.eq_false_iff.2 hno) hne hd
    simp [conflict_of_byte hbyte] at this
  rw [step_start ht hp hb hidle hv, acceptStart_pass hcheck, if_pos hord, if_pos hconf]

/-- A device's region and a register window are no ordinary memory (20_memory.md R58; log 7). -/
theorem mem_notMemory {p : Platform} {q : Region}
    (h : q ∈ p.device ∨ ∃ base ∈ p.regBase, q = { base := base.toNat, size := 0x60 }) : q ∈ notMemory p := by
  refine List.mem_append.2 (h.imp id ?_)
  rintro ⟨base, hbase, rfl⟩
  exact List.mem_map_of_mem hbase

theorem footprintOrdinary_eq_false {p : Platform} {d : Descriptor} {q : Region} {x : Nat} (hq : q ∈ notMemory p)
    (hx : inFootprint d x = true) (hqx : inRegion q x = true) : footprintOrdinary p d = false := by
  obtain ⟨r, hr, hrx⟩ := List.any_eq_true.1 hx
  rw [Bool.eq_false_iff]
  intro hord
  have := regionOrdinary_iff.1 (List.all_eq_true.1 hord r hr) q hq x hrx
  simp [hqx] at this

/-- Settles O25: START and Perform ask the same of the footprint. -/
theorem footprintOverDeviceIsRefused : Obligations.FootprintOverDeviceIsRefused := by
  refine ⟨?start, ?perform⟩
  case start =>
    intro s n b v prog rest q x ht hp hb hidle hv hcheck hx hqx hq
    have hord := footprintOrdinary_eq_false (mem_notMemory hq) hx hqx
    rw [step_start ht hp hb hidle hv, acceptStart_pass hcheck, hord, if_neg Bool.false_ne_true]
  case perform =>
    intro i s q x hx hqx hq
    rw [exec_eq_perform, perform, footprintOrdinary_eq_false (mem_notMemory hq) hx hqx, if_neg Bool.false_ne_true]

end Sys2Proof.Machine
end

section
/-! The host's memory accesses (45_host_interface.md R168; 70_reset_and_hazards.md R218). -/

namespace Sys2Proof.Machine

section
variable {s t : State} {r : Region}

theorem hostAccess_ok (hadm : regionAdmitted s.platform r = true) (hord : regionOrdinary s.platform r = true) :
    hostAccess s r false t = .next t := by
  rw [hostAccess, if_neg Bool.false_ne_true, if_pos hadm, if_pos hord]

theorem hostAccess_missing {x : Nat} (hx : inRegion r x = true) (hmissing : memAdmits s.platform x = false) :
    hostAccess s r false t = .refused .noSuchMemory := by
  have hadm : ¬ regionAdmitted s.platform r = true := by
    intro hadm
    simp [regionAdmitted_iff.1 hadm x hx] at hmissing
  rw [hostAccess, if_neg Bool.false_ne_true, if_neg hadm]

end

theorem meetsRunningFootprint_of_byte {s : State} {r : Region} {n x : Nat} {d : Descriptor}
    (hd : s.runningAt n = some d) (hr : inRegion r x = true) (hx : inFootprint d x = true) :
    meetsRunningFootprint s r = true := by
  by_contra hno
  simp [meetsRunningFootprint_eq_false (Bool.eq_false_iff.2 hno) hd hr] at hx

theorem meetsRunningOut_of_byte {s : State} {r : Region} {n x : Nat} {d : Descriptor}
    (hd : s.runningAt n = some d) (hr : inRegion r x = true) (hx : inRegion (outRange d) x = true) :
    meetsRunningOut s r = true := by
  by_contra hno
  have := meetsRunningOut_eq_false_iff.1 (Bool.eq_false_iff.2 hno) n d x hd hr
  simp [this] at hx

/-- A region that meets no running footprint, as the statements put it. -/
theorem meetsRunningFootprint_of_free {s : State} {a len : Nat}
    (h : ∀ m d x, s.runningAt m = some d → a ≤ x → x < a + len → inFootprint d x = false) :
    meetsRunningFootprint s { base := a, size := len } = false :=
  meetsRunningFootprint_eq_false_iff.2 fun m d x hd hx =>
    h m d x hd (inRegion_iff.1 hx).1 (inRegion_iff.1 hx).2

theorem meetsRunningOut_of_free {s : State} {a len : Nat}
    (h : ∀ m d x, s.runningAt m = some d → a ≤ x → x < a + len → inRegion (outRange d) x = false) :
    meetsRunningOut s { base := a, size := len } = false :=
  meetsRunningOut_eq_false_iff.2 fun m d x hd hx => h m d x hd (inRegion_iff.1 hx).1 (inRegion_iff.1 hx).2

theorem transact_memWrite (s : State) (a : Word) (bytes : List Byte) :
    transact (.memWrite a bytes) s =
      hostAccess s { base := a.toNat, size := bytes.length }
        (meetsRunningFootprint s { base := a.toNat, size := bytes.length })
        { s with mem := storeBytes s.mem a.toNat bytes } := rfl

theorem transact_memRead (s : State) (a : Word) (count : Nat) :
    transact (.memRead a count) s =
      hostAccess s { base := a.toNat, size := count } (meetsRunningOut s { base := a.toNat, size := count })
        (s.answer (.memory (memRead s.mem a.toNat count))) := rfl

/-- Settles O23: a shared byte makes the access a breach, and with none over ordinary memory it goes on. -/
theorem footprintHazardIsRefused : Obligations.FootprintHazardIsRefused := by
  intro s a prog rest ht
  refine ⟨?write, ?read, ?answered⟩
  case write =>
    intro bytes n d x hp hd hlo hhi hx
    rw [step_host ht hp, transact_memWrite,
      meetsRunningFootprint_of_byte (s := { s with turns := rest, program := prog }) hd (inRegion_iff.2 ⟨hlo, hhi⟩) hx,
      hostAccess_breach]
  case read =>
    intro count n d x hp hd hlo hhi hx
    rw [step_host ht hp, transact_memRead,
      meetsRunningOut_of_byte (s := { s with turns := rest, program := prog }) hd (inRegion_iff.2 ⟨hlo, hhi⟩) hx,
      hostAccess_breach]
  case answered =>
    intro count hp hadm hord hfree
    rw [step_host ht hp, transact_memRead,
      meetsRunningOut_of_free (s := { s with turns := rest, program := prog }) hfree]
    exact hostAccess_ok hadm hord

/-- Settles O27: no breach, and the missing byte is one of the access. -/
theorem hostAccessToMissingMemoryIsRefused : Obligations.HostAccessToMissingMemoryIsRefused := by
  intro s a x prog rest ht hlo hmissing
  refine ⟨fun bytes hp hhi hfree => ?write, fun count hp hhi hfree => ?read⟩
  case write =>
    rw [step_host ht hp, transact_memWrite,
      meetsRunningFootprint_of_free (s := { s with turns := rest, program := prog }) hfree]
    exact hostAccess_missing (inRegion_iff.2 ⟨hlo, hhi⟩) hmissing
  case read =>
    rw [step_host ht hp, transact_memRead,
      meetsRunningOut_of_free (s := { s with turns := rest, program := prog }) hfree]
    exact hostAccess_missing (inRegion_iff.2 ⟨hlo, hhi⟩) hmissing

/-! ### A write and a read of what it wrote -/

theorem bytesOf_length (n : Nat) : ∀ v : Nat, (bytesOf n v).length = n := by
  induction n with
  | zero => intro v; rfl
  | succ n ih => intro v; rw [bytesOf, List.length_cons, ih]

/-- Storing the bytes of a number is `MemWrite` of it (00_scope.md R11). -/
theorem storeBytes_bytesOf (n : Nat) : ∀ (m : Memory) (a v : Nat), storeBytes m a (bytesOf n v) = memWrite m a n v := by
  induction n with
  | zero => intros; rfl
  | succ n ih => intro m a v; rw [bytesOf, storeBytes, ih, memWrite]

/-- Byte `k` of the value stands at address `a + k`. -/
theorem read_memWrite_byte (n : Nat) : ∀ {m : Memory} (a v k : Nat), Memory.wf m = true → k < n →
    Memory.read (memWrite m a n v) (a + k) = BitVec.ofNat 8 (v / 2 ^ (8 * k)) := by
  induction n with
  | zero => intro m a v k _ hk; omega
  | succ n ih =>
    intro m a v k hm hk
    have hm' := Memory.write_wf a (BitVec.ofNat 8 v) hm
    rw [memWrite]
    cases k with
    | zero => rw [read_memWrite_other n _ _ _ hm' (by omega), Memory.read_write hm]; simp
    | succ k =>
      have haddr : a + (k + 1) = a + 1 + k := by omega
      have hpow : 2 ^ (8 * (k + 1)) = 2 ^ 8 * 2 ^ (8 * k) := by rw [Nat.mul_succ, Nat.add_comm, Nat.pow_add]
      rw [haddr, ih _ _ _ hm' (by omega), hpow, Nat.div_div_eq_div_mul]

theorem transact_MW {s : State} {a : Word} {n : Nat} (v : Nat)
    (hadm : regionAdmitted s.platform { base := a.toNat, size := n } = true)
    (hord : regionOrdinary s.platform { base := a.toNat, size := n } = true)
    (hfree : meetsRunningFootprint s { base := a.toNat, size := n } = false) :
    transact (MW n a v) s = .next { s with mem := memWrite s.mem a.toNat n v } := by
  rw [MW, transact_memWrite, bytesOf_length, storeBytes_bytesOf, hfree, hostAccess_ok hadm hord]

theorem transact_MR {s : State} {a : Word} {n : Nat}
    (hadm : regionAdmitted s.platform { base := a.toNat, size := n } = true)
    (hord : regionOrdinary s.platform { base := a.toNat, size := n } = true)
    (hfree : meetsRunningOut s { base := a.toNat, size := n } = false) :
    transact (MR n a) s = .next (s.answer (.memory (memRead s.mem a.toNat n))) := by
  rw [MR, transact_memRead, hfree, hostAccess_ok hadm hord]

/-- Settles O22: the write is `MemWrite`, and reading it back gives the low bytes of the value. -/
theorem hostWriteThenRead : Obligations.HostWriteThenRead := by
  intro s a n v prog rest ht hp hm hadm hord hfree
  have hout : ∀ m d x, s.runningAt m = some d → a.toNat ≤ x → x < a.toNat + n → inRegion (outRange d) x = false := by
    intro m d x hd hlo hhi
    rw [Bool.eq_false_iff]
    intro hin
    have hfoot := inFootprint_of_inRegion_outRange hin
    simp [hfree m d x hd hlo hhi] at hfoot
  refine ⟨{ s with mem := memWrite s.mem a.toNat n v, turns := .host :: rest, program := MR n a :: prog }, _,
    ?write, rfl, fun k hk => read_memWrite_byte n _ v k hm hk, fun x hx => read_memWrite_other n _ v x hm hx,
    ?read, rfl⟩
  case write =>
    rw [step_host ht hp]
    exact transact_MW v hadm hord
      (meetsRunningFootprint_of_free (s := { s with turns := .host :: rest, program := MR n a :: prog }) hfree)
  case read =>
    rw [step_host rfl rfl, ← memRead_memWrite n a.toNat v hm]
    exact transact_MR hadm hord (meetsRunningOut_of_free fun m d x hd => hout m d x hd)

end Sys2Proof.Machine
end

section
/-! A START right after reset (70_reset_and_hazards.md R213): the registers read 0, which is a DMUL32 of no rows, no
columns and no bytes. -/

namespace Sys2Proof.Machine

theorem check_zeroDescriptor : check zeroDescriptor = none := by decide

/-- The command that the reset registers hold. -/
theorem decode_zeroDescriptor : decode zeroDescriptor = .ok (.dmul32 zeroDescriptor.matOperands) :=
  decode_of_decodeCmd (op := .dense) (k := .k32) (by decide)

/-- The reset registers name no byte. -/
theorem inFootprint_zeroDescriptor (x : Nat) : inFootprint zeroDescriptor x = false := by
  rw [inFootprint, List.any_eq_false]
  intro r hr
  have hsize : r.size = 0 := by
    simp only [footprint, List.mem_cons, List.not_mem_nil, or_false] at hr
    obtain rfl | rfl | rfl := hr <;> rfl
  rw [inRegion_iff]
  omega

theorem footprintAdmitted_zeroDescriptor (p : Platform) : footprintAdmitted p zeroDescriptor = true :=
  footprintAdmitted_iff.2 fun x hx => by simp [inFootprint_zeroDescriptor] at hx

/-- A footprint without bytes is ordinary memory. -/
theorem footprintOrdinary_zeroDescriptor (p : Platform) : footprintOrdinary p zeroDescriptor = true := by
  refine List.all_eq_true.2 fun r hr => regionOrdinary_iff.2 fun q _ x hx => ?_
  have hfoot : inFootprint zeroDescriptor x = true := List.any_eq_true.2 ⟨r, hr, hx⟩
  simp [inFootprint_zeroDescriptor] at hfoot

/-- Performing the reset registers' command changes no memory. -/
theorem exec_zeroDescriptor (s : State) : exec (.dmul32 zeroDescriptor.matOperands) s = .next (s.complete s.mem) :=
  exec_enabled (footprintOrdinary_zeroDescriptor s.platform) (footprintAdmitted_zeroDescriptor s.platform)

/-- Completing a command finishes the engine's block. -/
theorem complete_block {s : State} {b : Block} (hb : s.blocks[s.engine]? = some b) (m : Memory) :
    (s.complete m).blocks[s.engine]? = some (b.finish (freeLanes s.draws)) := by
  rw [complete_blocks, List.getElem?_modify_eq, hb]
  rfl

/-- A command that completes without error leaves DONE alone in STATUS. -/
theorem statusWord_finish {b : Block} (herr : b.err = false) (hcode : b.errCode = 0) (acc : Vector Word 8) :
    statusWord (b.finish acc) = 2 := by
  rw [← BitVec.toNat_inj, statusWord_toNat, finish_err, finish_errCode, herr, hcode]
  rfl

/-- Settles O47: `passingStartLatches` for the START, and the engine's turn performs the command of the reset
registers. -/
theorem startAfterResetRunsEmptyDmul : Obligations.StartAfterResetRunsEmptyDmul := by
  intro p hp
  have hblock : (State.resetOn p).blocks[0]? = some (Block.afterReset (Vector.replicate 8 0)) := by
    rw [State.resetOn, List.getElem?_map, List.getElem?_eq_getElem (List.length_pos_iff.2 hp), Option.map_some]
  have hidle : ∀ m d, (State.resetOn p).runningAt m = some d → False := by
    intro m d hd
    obtain ⟨b, hb, hrun⟩ := runningAt_eq_some.1 hd
    obtain ⟨-, -, rfl⟩ := List.mem_map.1 (List.mem_of_getElem? hb)
    cases hrun
  obtain ⟨t, c, hstep, honly, hc, hlatched, hbusy, hdone, herr, hcode, -, -, hstatus⟩ :=
    passingStartLatches { State.resetOn p with program := [WR 0 .ctrl 1], turns := [.host, .engine 0] } 0 _ 1 []
      [.engine 0] rfl rfl hblock rfl rfl check_zeroDescriptor (footprintOrdinary_zeroDescriptor p)
      fun m d _ hd => (hidle m d hd).elim
  have hrun : t.runningAt 0 = some zeroDescriptor := by
    rw [runningAt_of_block hc, running_eq_some]
    exact ⟨hbusy, hlatched⟩
  have hperform : step t = exec (.dmul32 zeroDescriptor.matOperands) { t with turns := [], engine := 0 } := by
    rw [step_engine honly.turns]
    exact engineTurn_of_running (s := { t with turns := [] }) hrun decode_zeroDescriptor
  refine ⟨t, _, hstep, ?started, ⟨zeroDescriptor.matOperands, ?latched, rfl, rfl, rfl⟩,
    hperform.trans (exec_zeroDescriptor _), ?completed, honly.mem⟩
  case started => rw [hc, Option.map_some, Option.some_inj, ← BitVec.toNat_inj, hstatus]; rfl
  case latched => rw [hrun, Option.map_some, decode_zeroDescriptor]
  case completed =>
    rw [complete_block (s := { t with turns := [], engine := 0 }) hc, Option.map_some, statusWord_finish herr hcode]

end Sys2Proof.Machine
end

section
/-! What a passing START check says (60_exceptions.md R182), and that it is each command's own rule (R111, R112, R121,
R122, R131, R132, R143, R144; 20_memory.md R61; 60_exceptions.md R184). -/

namespace Sys2Proof.Machine

/-! ### The check as two lists of rules -/

/-- The lengths, the alignment and the row count that an operation asks of a descriptor. -/
structure Sized (op : Op) (k : Kernel) (d : Descriptor) : Prop where
  rows8 : op = .unpack → d.aRows.toNat % rowBlock = 0
  outLen : d.outLen.toNat = requiredOut op k d.aRows.toNat d.aCols.toNat d.bCols.toNat
  aLen : d.aLen.toNat = requiredA k d.aRows.toNat d.aCols.toNat
  bLen : d.bLen.toNat = requiredB op k d.aCols.toNat d.bCols.toNat
  aligned : misaligned op k d = false

/-- Where the three buffers lie: inside the address space, and `out` apart from A and B. -/
structure Placed (d : Descriptor) : Prop where
  outFits : pastTop d.outBase d.outLen = false
  aFits : pastTop d.aBase d.aLen = false
  bFits : pastTop d.bBase d.bLen = false
  outApartA : regionsMeet (outRange d) (aRange d) = false
  outApartB : regionsMeet (outRange d) (bRange d) = false

theorem find?_errorCodes_eq_none {p : ErrorCode → Bool} : errorCodes.find? p = none ↔ ∀ e, p e = false := by
  rw [List.find?_eq_none]
  exact ⟨fun h e => Bool.eq_false_iff.2 (h e (mem_errorCodes e)), fun h e _ => Bool.eq_false_iff.1 (h e)⟩

/-- A length that a register holds is not too long. -/
theorem tooLong_of_eq {bytes : Nat} {len : Word} (h : len.toNat = bytes) : tooLong bytes = false := by
  have := len.isLt
  simp only [tooLong, addressTop, decide_eq_false_iff_not]
  omega

/-- The check of a CMD that encodes a command passes just where its rules hold. -/
theorem check_eq_none_iff {d : Descriptor} {op : Op} {k : Kernel} (hcmd : decodeCmd d.cmd = some (op, k)) :
    check d = none ↔ Sized op k d ∧ Placed d := by
  rw [check_of_decodeCmd hcmd, find?_errorCodes_eq_none]
  constructor
  · intro h
    have hrows := h .rows8
    have houtLen := h .lenOut
    have haLen := h .lenA
    have hbLen := h .lenB
    have hrange := h .range
    have halias := h .aliased
    simp only [failing, decide_eq_false_iff_not, not_and, not_not, Bool.or_eq_false_iff]
      at hrows houtLen haLen hbLen hrange halias
    obtain ⟨⟨hout, ha⟩, hb⟩ := hrange
    exact ⟨⟨hrows, houtLen, haLen, hbLen, h .align⟩, hout, ha, hb, halias.1, halias.2⟩
  · rintro ⟨hs, hp⟩ e
    cases e with
    | opcode => rfl
    | dim => simp only [failing, tooLong_of_eq hs.outLen, tooLong_of_eq hs.aLen, tooLong_of_eq hs.bLen, Bool.or_false]
    | rows8 => simpa only [failing, decide_eq_false_iff_not, not_and, not_not] using hs.rows8
    | lenOut => simpa only [failing, decide_eq_false_iff_not, not_not] using hs.outLen
    | lenA => simpa only [failing, decide_eq_false_iff_not, not_not] using hs.aLen
    | lenB => simpa only [failing, decide_eq_false_iff_not, not_not] using hs.bLen
    | align => exact hs.aligned
    | range => simp only [failing, hp.outFits, hp.aFits, hp.bFits, Bool.or_false]
    | aliased => simp only [failing, hp.outApartA, hp.outApartB, Bool.or_false]

theorem decodeCmd_encode (i : Instr) : decodeCmd (encode i).cmd = some (i.op, i.kernel) := by
  obtain ⟨hcmd, hcode⟩ := encode_cmd i
  rw [hcmd, hcode]

/-! ### Each command's own rule -/

theorem misaligned_eq_false_iff {op : Op} {k : Kernel} {d : Descriptor} :
    misaligned op k d = false ↔ d.outBase.toNat % elemBytes k = 0 ∧ d.bBase.toNat % elemBytes k = 0 ∧
      (op ≠ .expand → d.aBase.toNat % elemBytes k = 0) := by
  rw [Bool.eq_false_iff, Ne, misaligned_iff]
  simp only [not_or, not_not, not_and]

theorem hasLength_iff {len : Word} {bytes : Nat} : hasLength len bytes = true ↔ len.toNat = bytes := beq_iff_eq

theorem alignedTo_iff {e : Nat} {base : Word} : alignedTo e base = true ↔ base.toNat % e = 0 := beq_iff_eq

theorem fitsMemory_iff {base len : Word} : fitsMemory base len = true ↔ pastTop base len = false := by
  simp [fitsMemory, pastTop]

theorem sharesNoByte_iff {a m b n : Word} :
    sharesNoByte a m b n = true ↔
      regionsMeet { base := a.toNat, size := m.toNat } { base := b.toNat, size := n.toNat } = false := by
  refine ⟨regionsMeet_of_sharesNoByte, fun h => ?_⟩
  simp only [regionsMeet, overlap, Bool.and_eq_false_iff, decide_eq_false_iff_not] at h
  simp only [sharesNoByte, Bool.or_eq_true, beq_iff_eq, decide_eq_true_eq, ← BitVec.toNat_inj, BitVec.ofNat_eq_ofNat,
    BitVec.toNat_ofNat, Nat.zero_mod]
  omega

theorem buffersPlaced_iff (i : Instr) : i.buffersPlaced = true ↔ Placed (encode i) := by
  have hplaced : i.buffersPlaced = placed (encode i).outBase (encode i).aBase (encode i).bBase (encode i).outLen
      (encode i).aLen (encode i).bLen := by cases i <;> rfl
  simp only [hplaced, placed, Bool.and_eq_true, fitsMemory_iff, sharesNoByte_iff]
  exact ⟨fun ⟨⟨⟨⟨hout, ha⟩, hb⟩, hA⟩, hB⟩ => ⟨hout, ha, hb, hA, hB⟩,
    fun h => ⟨⟨⟨⟨h.outFits, h.aFits⟩, h.bFits⟩, h.outApartA⟩, h.outApartB⟩⟩

theorem sized_iff_and {op : Op} {k : Kernel} {d : Descriptor} :
    Sized op k d ↔ (op = .unpack → d.aRows.toNat % rowBlock = 0) ∧
      d.outLen.toNat = requiredOut op k d.aRows.toNat d.aCols.toNat d.bCols.toNat ∧
      d.aLen.toNat = requiredA k d.aRows.toNat d.aCols.toNat ∧
      d.bLen.toNat = requiredB op k d.aCols.toNat d.bCols.toNat ∧ misaligned op k d = false :=
  ⟨fun h => ⟨h.rows8, h.outLen, h.aLen, h.bLen, h.aligned⟩, fun ⟨h1, h2, h3, h4, h5⟩ => ⟨h1, h2, h3, h4, h5⟩⟩

/-- A command's own rule is the common one at its operation and kernel, up to the order of a product's factors. -/
theorem sized_iff (i : Instr) : i.sized = true ↔ Sized i.op i.kernel (encode i) := by
  rw [sized_iff_and, misaligned_eq_false_iff]
  cases i with
  | dmul32 o | dmul64 o | emul32 o | emul64 o =>
    simp [Instr.sized, hasLength_iff, alignedTo_iff, Instr.op, Instr.kernel, encode, MatOperands.descriptor,
      requiredOut, requiredA, requiredB, elemBytes, Nat.mul_comm, Nat.mul_left_comm]
    omega
  | vmul32 o | vmul64 o | umul32 o | umul64 o =>
    simp [Instr.sized, hasLength_iff, alignedTo_iff, Instr.op, Instr.kernel, encode, VecOperands.descriptor,
      requiredOut, requiredA, requiredB, elemBytes, slotsPerWord, rowBlock, Nat.mul_comm, Nat.mul_left_comm]
    omega

theorem wellFormed_iff (i : Instr) : i.wellFormed = true ↔ Sized i.op i.kernel (encode i) ∧ Placed (encode i) := by
  rw [Instr.wellFormed, Bool.and_eq_true, sized_iff, buffersPlaced_iff]

/-- Settles O7: both sides are `Sized` and `Placed`. -/
theorem checkAcceptsExactlyWellFormed : Obligations.CheckAcceptsExactlyWellFormed :=
  fun i => (check_eq_none_iff (decodeCmd_encode i)).trans (wellFormed_iff i).symm

/-! ### Length operands left out -/

/-- The lengths that a descriptor's dimensions require, as the assembler writes them (log 18). -/
structure RequiredLengths (op : Op) (k : Kernel) (d : Descriptor) : Prop where
  outLen : d.outLen = BitVec.ofNat 64 (requiredOut op k d.aRows.toNat d.aCols.toNat d.bCols.toNat)
  aLen : d.aLen = BitVec.ofNat 64 (requiredA k d.aRows.toNat d.aCols.toNat)
  bLen : d.bLen = BitVec.ofNat 64 (requiredB op k d.aCols.toNat d.bCols.toNat)

theorem requiredLengths_withRequiredLengths (i : Instr) :
    RequiredLengths i.op i.kernel (encode (withRequiredLengths i)) := by
  cases i <;> exact ⟨rfl, rfl, rfl⟩

theorem withRequiredLengths_op_kernel (i : Instr) :
    (withRequiredLengths i).op = i.op ∧ (withRequiredLengths i).kernel = i.kernel := by
  cases i <;> exact ⟨rfl, rfl⟩

/-- A required length that is not too long is what the register holds. -/
theorem toNat_of_not_tooLong {bytes : Nat} {len : Word} (h : len = BitVec.ofNat 64 bytes)
    (hlt : tooLong bytes = false) : len.toNat = bytes := by
  simp only [tooLong, addressTop, decide_eq_false_iff_not, Nat.not_le] at hlt
  rw [h, BitVec.toNat_ofNat, Nat.mod_eq_of_lt hlt]

/-- With the required lengths written, none of the length conditions holds where E_DIM's does not. -/
theorem failing_length_eq_false {op : Op} {k : Kernel} {d : Descriptor} (h : RequiredLengths op k d)
    (hdim : failing op k d .dim = false) :
    failing op k d .lenOut = false ∧ failing op k d .lenA = false ∧ failing op k d .lenB = false := by
  simp only [failing, Bool.or_eq_false_iff] at hdim
  obtain ⟨⟨hout, ha⟩, hb⟩ := hdim
  simp only [failing, decide_eq_false_iff_not, not_not]
  exact ⟨toNat_of_not_tooLong h.outLen hout, toNat_of_not_tooLong h.aLen ha, toNat_of_not_tooLong h.bLen hb⟩

/-- Settles O9: E_DIM comes before the length errors, and without it they cannot be. -/
theorem requiredLengthsNeverMismatch : Obligations.RequiredLengthsNeverMismatch := by
  intro i
  have hcmd := decodeCmd_encode (withRequiredLengths i)
  have hlen := requiredLengths_withRequiredLengths i
  obtain ⟨hop, hkernel⟩ := withRequiredLengths_op_kernel i
  rw [hop, hkernel] at hcmd
  have hnever : ∀ e, (errorNumber .dim).toNat < (errorNumber e).toNat →
      (failing i.op i.kernel (encode (withRequiredLengths i)) .dim = false →
        failing i.op i.kernel (encode (withRequiredLengths i)) e = false) →
      check (encode (withRequiredLengths i)) ≠ some e := by
    intro e hlt hfalse h
    have hdim := not_of_lt_find? (check_of_decodeCmd hcmd ▸ h) hlt
    have hfails := failing_of_check hcmd h
    simp [hfalse hdim] at hfails
  refine ⟨hnever .lenOut (by decide) fun hdim => ?_, hnever .lenA (by decide) fun hdim => ?_,
    hnever .lenB (by decide) fun hdim => ?_⟩
  all_goals
    obtain ⟨hout, ha, hb⟩ := failing_length_eq_false hlen hdim
    assumption

end Sys2Proof.Machine
end

section
/-! Ring sums (40_datapath.md R92): they are finite sums of a commutative ring, so their order does not matter, and a
sum over the fields of packed words is one sum over all the fields. -/

namespace Sys2Proof.Machine

theorem ringSum_eq_sum {w : Nat} (n : Nat) (f : Nat → BitVec w) : ringSum n f = ((List.range n).map f).sum := by
  induction n with
  | zero => rfl
  | succ n ih => rw [ringSum_succ, ih, List.range_succ, List.map_append, List.sum_append]; simp

/-- Settles O28: the sum of a list does not depend on its order. -/
theorem ringSumIgnoresOrder : Obligations.RingSumIgnoresOrder := by
  intro w n f l hperm
  rw [ringSum_eq_sum, ← (hperm.map f).sum_eq, List.sum_eq_foldl]

theorem ringSum_eq_zero {w : Nat} {f : Nat → BitVec w} {n : Nat} (h : n = 0) : ringSum n f = 0 := by
  rw [h, ringSum_zero]

/-- A sum over two counts is one sum after the other. -/
theorem ringSum_add {w : Nat} (f : Nat → BitVec w) (n k : Nat) :
    ringSum (n + k) f = ringSum n f + ringSum k fun i => f (n + i) := by
  induction k with
  | zero => simp
  | succ k ih => rw [← Nat.add_assoc, ringSum_succ, ih, ringSum_succ, BitVec.add_assoc]

/-- A sum of `n` sums of `c` terms is one sum of `n*c` terms. -/
theorem ringSum_mul {w : Nat} (f : Nat → BitVec w) (n c : Nat) :
    ringSum (n * c) f = ringSum n fun j => ringSum c fun t => f (j * c + t) := by
  induction n with
  | zero => simp
  | succ n ih => rw [Nat.succ_mul, ringSum_add, ih, ringSum_succ]

end Sys2Proof.Machine
end

section
/-! What the eight commands leave (R110, R120, R130, R142), in the operands' own words: the elements of `out`, every
other byte, and completion (45_host_interface.md R166). -/

namespace Sys2Proof.Machine

/-! ### Packed words as numbers -/

/-- An element read from memory is the number of its bytes. -/
theorem readElem_toNat (k : Kernel) (m : Memory) (a : Nat) : (readElem k m a).toNat = memRead m a (elemBytes k) := by
  rw [readElem, BitVec.toNat_ofNat, width_eq, Nat.mod_eq_of_lt (memRead_lt ..)]

/-- A field of a packed word, as a quotient and a remainder of the bytes' number (40_datapath.md R94). -/
theorem slot_readElem (k : Kernel) (m : Memory) (a s : Nat) :
    slot k (readElem k m a) s =
      BitVec.ofNat (width k) (memRead m a (elemBytes k) / 2 ^ (s * basis k) % 2 ^ basis k) := by
  have hlt : memRead m a (elemBytes k) / 2 ^ (s * basis k) % 2 ^ basis k < 2 ^ width k :=
    (Nat.mod_lt _ (Nat.two_pow_pos _)).trans_le (Nat.pow_le_pow_right (by decide) (basis_le_width k))
  rw [← BitVec.toNat_inj, slot_toNat, readElem_toNat, BitVec.toNat_ofNat, Nat.mod_eq_of_lt hlt, Nat.mul_comm]

/-- The sum of UnpackAndMultiply, its fields read off the bytes (44_unpack_and_multiply.md R142). -/
theorem unpackSum_eq (k : Kernel) (d : Descriptor) (m : Memory) (i : Nat) :
    unpackSum k d m i = ringSum d.aCols.toNat fun j => ringSum (slotsPerWord k) fun c =>
      BitVec.ofNat (width k)
          (memRead m (cellAt k d.aBase d.aCols.toNat i j) (elemBytes k) / 2 ^ (c * basis k) % 2 ^ basis k) *
        readElem k m (elemAt k d.bBase (j * slotsPerWord k + c)) :=
  ringSum_congr fun _ _ => ringSum_congr fun _ _ => congrArg₂ (· * ·) (slot_readElem ..) rfl

/-! ### The results -/

section
variable {k : Kernel} {c : Instr} {s : State}

/-- The result of a command that runs DenseMultiply, EMUL's among them. -/
theorem exec_dense_result (hf : commandFunction c = denseMultiply k) (hwf : Memory.wf s.mem = true)
    (hord : footprintOrdinary s.platform (encode c) = true) (hadm : footprintAdmitted s.platform (encode c) = true) :
    ∃ t, exec c s = .next t ∧ Completed s t ∧
      (∀ i < (encode c).aRows.toNat, ∀ j < (encode c).bCols.toNat,
        readElem k t.mem (cellAt k (encode c).outBase (encode c).bCols.toNat i j) =
          readElem k s.mem (cellAt k (encode c).outBase (encode c).bCols.toNat i j) + denseSum k (encode c) s.mem i j) ∧
      ∀ x, x < (encode c).outBase.toNat ∨
          (encode c).outBase.toNat + (encode c).aRows.toNat * (encode c).bCols.toNat * elemBytes k ≤ x →
        Memory.read t.mem x = Memory.read s.mem x := by
  refine ⟨_, exec_enabled hord hadm, completed_complete s _, ?elements, ?frame⟩ <;> rw [complete_mem, hf]
  case elements => exact fun i hi j hj => readElem_denseMultiply hwf hi hj
  case frame => exact (denseMultiply_storesOut k _ s.mem).other hwf

/-- The result of a command that runs VectorMultiply. -/
theorem exec_vector_result (hf : commandFunction c = vectorMultiply k) (hwf : Memory.wf s.mem = true)
    (hord : footprintOrdinary s.platform (encode c) = true) (hadm : footprintAdmitted s.platform (encode c) = true) :
    ∃ t, exec c s = .next t ∧ Completed s t ∧
      (∀ i < (encode c).aRows.toNat,
        readElem k t.mem (elemAt k (encode c).outBase i) = vectorSum k (encode c) s.mem i) ∧
      ∀ x, x < (encode c).outBase.toNat ∨ (encode c).outBase.toNat + (encode c).aRows.toNat * elemBytes k ≤ x →
        Memory.read t.mem x = Memory.read s.mem x := by
  refine ⟨_, exec_enabled hord hadm, completed_complete s _, ?elements, ?frame⟩ <;> rw [complete_mem, hf]
  case elements => exact fun i hi => readElem_vectorMultiply hwf hi
  case frame => exact (vectorMultiply_storesOut k _ s.mem).other hwf

/-- The result of a command that runs UnpackAndMultiply. -/
theorem exec_unpack_result (hf : commandFunction c = unpackMultiply k) (hwf : Memory.wf s.mem = true)
    (hord : footprintOrdinary s.platform (encode c) = true) (hadm : footprintAdmitted s.platform (encode c) = true) :
    ∃ t, exec c s = .next t ∧ Completed s t ∧
      (∀ i < (encode c).aRows.toNat,
        readElem k t.mem (elemAt k (encode c).outBase i) =
          readElem k s.mem (elemAt k (encode c).outBase i) + ringSum (encode c).aCols.toNat fun j =>
            ringSum (slotsPerWord k) fun t =>
              BitVec.ofNat (width k)
                  (memRead s.mem (cellAt k (encode c).aBase (encode c).aCols.toNat i j) (elemBytes k) /
                    2 ^ (t * basis k) % 2 ^ basis k) *
                readElem k s.mem (elemAt k (encode c).bBase (j * slotsPerWord k + t))) ∧
      ∀ x, x < (encode c).outBase.toNat ∨ (encode c).outBase.toNat + (encode c).aRows.toNat * elemBytes k ≤ x →
        Memory.read t.mem x = Memory.read s.mem x := by
  refine ⟨_, exec_enabled hord hadm, completed_complete s _, ?elements, ?frame⟩ <;> rw [complete_mem, hf]
  case elements => exact fun i hi => (readElem_unpackMultiply hwf hi).trans (congrArg _ (unpackSum_eq ..))
  case frame => exact (unpackMultiply_storesOut k _ s.mem).other hwf

end

/-- Settles O32: `exec_dense_result` at each kernel's command. -/
theorem denseMultiplyResult : Obligations.DenseMultiplyResult :=
  ⟨fun _ _ hwf hord hadm => exec_dense_result (k := .k32) rfl hwf hord hadm,
    fun _ _ hwf hord hadm => exec_dense_result (k := .k64) rfl hwf hord hadm⟩

/-- Settles O33: `exec_vector_result` at each kernel's command. -/
theorem vectorMultiplyResult : Obligations.VectorMultiplyResult :=
  ⟨fun _ _ hwf hord hadm => exec_vector_result (k := .k32) rfl hwf hord hadm,
    fun _ _ hwf hord hadm => exec_vector_result (k := .k64) rfl hwf hord hadm⟩

/-- Settles O34: a seed element is read as a matrix element is, so the result is DenseMultiply's. -/
theorem expandMultiplyResult : Obligations.ExpandMultiplyResult :=
  ⟨fun _ _ hwf hord hadm => exec_dense_result (k := .k32) (expandMultiply_eq_denseMultiply .k32) hwf hord hadm,
    fun _ _ hwf hord hadm => exec_dense_result (k := .k64) (expandMultiply_eq_denseMultiply .k64) hwf hord hadm⟩

/-- Settles O35: `exec_unpack_result` at each kernel's command. -/
theorem unpackMultiplyResult : Obligations.UnpackMultiplyResult :=
  ⟨fun _ _ hwf hord hadm => exec_unpack_result (k := .k32) rfl hwf hord hadm,
    fun _ _ hwf hord hadm => exec_unpack_result (k := .k64) rfl hwf hord hadm⟩

end Sys2Proof.Machine
end

section
/-! What the results depend on (10_state.md R32; 44_unpack_and_multiply.md R145, R147; 41_dense_multiply.md R114): two
memories that agree on what a command reads get the same `out`. -/

namespace Sys2Proof.Machine

/-! ### The command functions by operation and kernel -/

/-- The command function of an operation and a kernel (45_host_interface.md R171). -/
def functionOf : Op → Kernel → Descriptor → Memory → Memory
  | .dense => denseMultiply
  | .vector => vectorMultiply
  | .expand => expandMultiply
  | .unpack => unpackMultiply

theorem commandFunction_eq_functionOf (i : Instr) : commandFunction i = functionOf i.op i.kernel := by cases i <;> rfl

/-- The buffers of DMUL and EMUL, which differ only in what they ask of A's alignment. -/
theorem denseBuffers_of_sized {op : Op} {k : Kernel} {d : Descriptor} (hop : op = .dense ∨ op = .expand)
    (hs : Sized op k d) (hp : Placed d) : DenseBuffers k d := by
  obtain rfl | rfl := hop <;> exact ⟨hs.outLen, hs.aLen, hs.bLen, hp.outApartA, hp.outApartB⟩

theorem vectorBuffers_of_sized {k : Kernel} {d : Descriptor} (hs : Sized .vector k d) (hp : Placed d) :
    VectorBuffers k d :=
  ⟨hs.outLen, hs.aLen, hs.bLen, hp.outApartA, hp.outApartB⟩

/-- UMUL's vector has an element for each field of a packed row (44_unpack_and_multiply.md R140, R141). -/
theorem Sized.unpack_bLen {k : Kernel} {d : Descriptor} (hs : Sized .unpack k d) :
    (bRange d).size = d.aCols.toNat * slotsPerWord k * elemBytes k :=
  hs.bLen.trans (by rw [requiredB, Nat.mul_comm (slotsPerWord k)])

/-! ### The same reads, the same result -/

section
variable {k : Kernel} {d : Descriptor} {m m' : Memory}

/-- The packed words of A have the same fields in both memories. -/
def SameSlots (k : Kernel) (d : Descriptor) (m m' : Memory) : Prop :=
  ∀ i < d.aRows.toNat, ∀ j < d.aCols.toNat, ∀ t < slotsPerWord k,
    slot k (readElem k m' (cellAt k d.aBase d.aCols.toNat i j)) t =
      slot k (readElem k m (cellAt k d.aBase d.aCols.toNat i j)) t

theorem sameLeftMatrix_of_agreeOn {op : Op} (hs : Sized op k d) (hA : AgreeOn (aRange d) m m') :
    SameLeftMatrix k d d.aBase m m' :=
  fun _ hi _ ht => hA.readElem_eq hs.aLen (cell_lt hi ht)

theorem sameSlots_of_agreeOn {op : Op} (hs : Sized op k d) (hA : AgreeOn (aRange d) m m') : SameSlots k d m m' :=
  fun i hi j hj _ _ => by rw [sameLeftMatrix_of_agreeOn hs hA i hi j hj]

theorem denseMultiply_agreeOn (hd : DenseBuffers k d) (hm : Memory.wf m = true) (hm' : Memory.wf m' = true)
    (hA : SameLeftMatrix k d d.aBase m m') (hB : AgreeOn (bRange d) m m') (hO : AgreeOn (outRange d) m m') :
    AgreeOn (outRange d) (denseMultiply k d m) (denseMultiply k d m') :=
  denseMultiply_rebased_agreeOn (cmd' := d.cmd) hd hm hm' hA hB hO

/-- VectorMultiply reads A and B only (42_vector_multiply.md R120). -/
theorem vectorMultiply_agreeOn (hs : Sized .vector k d) (hm : Memory.wf m = true) (hm' : Memory.wf m' = true)
    (hA : SameLeftMatrix k d d.aBase m m') (hB : AgreeOn (bRange d) m m') :
    AgreeOn (outRange d) (vectorMultiply k d m) (vectorMultiply k d m') := by
  intro x hx
  have hsum : ∀ i < d.aRows.toNat, vectorSum k d m' i = vectorSum k d m i := fun i hi =>
    ringSum_congr fun t ht => congrArg₂ (· * ·) (hA i hi t ht) (hB.readElem_eq hs.bLen ht)
  have hfill : vectorMultiply k d m' = fill k d.outBase.toNat d.aRows.toNat (vectorSum k d m) m' :=
    forUpTo_congr _ fun i hi y => congrArg (writeElem k y _) (hsum i hi)
  have hlen : (outRange d).size = d.aRows.toNat * elemBytes k := hs.outLen
  have hbase : (outRange d).base = d.outBase.toNat := rfl
  rw [inRegion_iff] at hx
  rw [hfill, vectorMultiply_eq_fill]
  exact read_fill_congr hm hm' _ fun hout => by omega

/-- UnpackAndMultiply reads A by its fields alone (44_unpack_and_multiply.md R142). -/
theorem unpackMultiply_agreeOn (hs : Sized .unpack k d) (hm : Memory.wf m = true) (hm' : Memory.wf m' = true)
    (hA : SameSlots k d m m') (hB : AgreeOn (bRange d) m m') (hO : AgreeOn (outRange d) m m') :
    AgreeOn (outRange d) (unpackMultiply k d m) (unpackMultiply k d m') := by
  intro x hx
  have hsum : ∀ i < d.aRows.toNat, unpackSum k d m' i = unpackSum k d m i := fun i hi =>
    ringSum_congr fun j hj => ringSum_congr fun t ht =>
      congrArg₂ (· * ·) (hA i hi j hj t ht) (hB.readElem_eq hs.unpack_bLen (cell_lt hj ht))
  have hfill : unpackMultiply k d m' = fill k d.outBase.toNat d.aRows.toNat (fun i =>
      readElem k m (elemAt k d.outBase i) + unpackSum k d m i) m' :=
    forUpTo_congr _ fun i hi y =>
      congrArg _ (congrArg₂ (· + ·) (hO.readElem_eq hs.outLen hi) (hsum i hi))
  rw [hfill, unpackMultiply_eq_fill]
  exact read_fill_congr hm hm' _ fun _ => hO x hx

/-- Every command's `out` is a function of the bytes of A and B, and of its own where the command reads them. -/
theorem functionOf_agreeOn {op : Op} (hs : Sized op k d) (hp : Placed d) (hm : Memory.wf m = true)
    (hm' : Memory.wf m' = true) (hA : AgreeOn (aRange d) m m') (hB : AgreeOn (bRange d) m m')
    (hO : op ≠ .vector → AgreeOn (outRange d) m m') :
    AgreeOn (outRange d) (functionOf op k d m) (functionOf op k d m') := by
  have hleft := sameLeftMatrix_of_agreeOn hs hA
  cases op with
  | dense => exact denseMultiply_agreeOn (denseBuffers_of_sized (.inl rfl) hs hp) hm hm' hleft hB (hO nofun)
  | vector => exact vectorMultiply_agreeOn hs hm hm' hleft hB
  | expand =>
    rw [functionOf, expandMultiply_eq_denseMultiply]
    exact denseMultiply_agreeOn (denseBuffers_of_sized (.inr rfl) hs hp) hm hm' hleft hB (hO nofun)
  | unpack => exact unpackMultiply_agreeOn hs hm hm' (sameSlots_of_agreeOn hs hA) hB (hO nofun)

end

/-- The bytes of the footprint are those of its three ranges (10_state.md R34). -/
theorem inFootprint_iff {d : Descriptor} {x : Nat} :
    inFootprint d x = true ↔
      inRegion (outRange d) x = true ∨ inRegion (aRange d) x = true ∨ inRegion (bRange d) x = true := by
  simp only [inFootprint, footprint, List.any_cons, List.any_nil, Bool.or_false, Bool.or_eq_true]

/-- Settles O44: the footprint holds A, B and `out`, and VMUL needs the first two. -/
theorem resultDependsOnFootprintOnly : Obligations.ResultDependsOnFootprintOnly := by
  rintro i s s' ⟨hformed, hwf, hord, hadm⟩ ⟨-, hwf', hord', hadm'⟩ h
  obtain ⟨hs, hp⟩ := (wellFormed_iff i).1 hformed
  have hA : AgreeOn (aRange (encode i)) s.mem s'.mem := by
    obtain hfoot | ⟨-, hAB⟩ := h
    · exact fun x hx => hfoot x (inFootprint_iff.2 (.inr (.inl hx)))
    · exact fun x hx => hAB x (.inl hx)
  have hB : AgreeOn (bRange (encode i)) s.mem s'.mem := by
    obtain hfoot | ⟨-, hAB⟩ := h
    · exact fun x hx => hfoot x (inFootprint_iff.2 (.inr (.inr hx)))
    · exact fun x hx => hAB x (.inr hx)
  have hO : i.op ≠ .vector → AgreeOn (outRange (encode i)) s.mem s'.mem := by
    intro hop
    obtain hfoot | ⟨hvector, -⟩ := h
    · exact fun x hx => hfoot x (inFootprint_iff.2 (.inl hx))
    · exact absurd hvector hop
  refine ⟨_, _, exec_enabled hord hadm, exec_enabled hord' hadm', ?_⟩
  rw [complete_mem, complete_mem, commandFunction_eq_functionOf]
  exact functionOf_agreeOn hs hp hwf hwf' hA hB hO

/-! ### UnpackAndMultiply and the unused bits -/

/-- UMUL of packed words that differ above their fields alone, for either kernel. -/
theorem exec_unpack_ignores {k : Kernel} {c : Instr} {s s' : State} (hf : commandFunction c = unpackMultiply k)
    (hsized : Sized .unpack k (encode c)) (hp : Claims.performable c s) (hp' : Claims.performable c s')
    (h : ∀ x, inRegion (aRange (encode c)) x = false ∨ inRegion (bRange (encode c)) x = true →
      Memory.read s'.mem x = Memory.read s.mem x)
    (hwords : ∀ p < (encode c).aRows.toNat * (encode c).aCols.toNat,
      memRead s'.mem (elemAt k (encode c).aBase p) (elemBytes k) % 2 ^ (basis k * slotsPerWord k) =
        memRead s.mem (elemAt k (encode c).aBase p) (elemBytes k) % 2 ^ (basis k * slotsPerWord k)) :
    ∃ t t', exec c s = .next t ∧ exec c s' = .next t' ∧ AgreeOn (outRange (encode c)) t.mem t'.mem := by
  obtain ⟨hformed, hwf, hord, hadm⟩ := hp
  obtain ⟨-, hwf', hord', hadm'⟩ := hp'
  obtain ⟨-, hplaced⟩ := (wellFormed_iff c).1 hformed
  have hslots : SameSlots k (encode c) s.mem s'.mem := fun i hi j hj t ht =>
    slot_congr ht (by rw [readElem_toNat, readElem_toNat]; exact hwords _ (cell_lt hi hj))
  have hout : AgreeOn (outRange (encode c)) s.mem s'.mem := by
    refine fun x hx => h x (.inl ?_)
    rw [Bool.eq_false_iff]
    intro hxa
    simpa [hplaced.outApartA] using regionsMeet_iff.2 ⟨x, hx, hxa⟩
  refine ⟨_, _, exec_enabled hord hadm, exec_enabled hord' hadm', ?_⟩
  rw [complete_mem, complete_mem, hf]
  exact unpackMultiply_agreeOn hsized hwf hwf' hslots (fun x hx => h x (.inr hx)) hout

theorem sized_of_performable {c : Instr} {s : State} (h : Claims.performable c s) :
    Sized c.op c.kernel (encode c) :=
  ((wellFormed_iff c).1 h.1).1

/-- Settles O41: `exec_unpack_ignores` at each kernel's command. -/
theorem unpackIgnoresUnusedBits : Obligations.UnpackIgnoresUnusedBits :=
  ⟨fun _ _ _ hp hp' h hwords => exec_unpack_ignores (k := .k32) rfl (sized_of_performable hp) hp hp' h hwords,
    fun _ _ _ hp hp' h hwords => exec_unpack_ignores (k := .k64) rfl (sized_of_performable hp) hp hp' h hwords⟩

/-! ### UnpackAndMultiply as VectorMultiply of the unpacked matrix -/

/-- Row by row, the entries of the matrix at `d'` are the fields of the packed words at `d`. -/
def UnpackedAt (k : Kernel) (d d' : Descriptor) (m m' : Memory) : Prop :=
  ∀ i < d.aRows.toNat, ∀ j < d.aCols.toNat, ∀ t < slotsPerWord k,
    readElem k m' (cellAt k d'.aBase d'.aCols.toNat i (j * slotsPerWord k + t)) =
      BitVec.ofNat (width k)
        (memRead m (cellAt k d.aBase d.aCols.toNat i j) (elemBytes k) / 2 ^ (t * basis k) % 2 ^ basis k)

/-- The two sums have the same terms (44_unpack_and_multiply.md R145). -/
theorem unpackSum_eq_vectorSum {k : Kernel} {d d' : Descriptor} {m m' : Memory} (hs : Sized .unpack k d)
    (hcols : d'.aCols.toNat = slotsPerWord k * d.aCols.toNat) (hb : d'.bBase = d.bBase)
    (hB : AgreeOn (bRange d) m m') (hA : UnpackedAt k d d' m m') {i : Nat} (hi : i < d.aRows.toNat) :
    unpackSum k d m i = vectorSum k d' m' i := by
  rw [unpackSum_eq, vectorSum, hcols, Nat.mul_comm (slotsPerWord k), ringSum_mul]
  refine ringSum_congr fun j hj => ringSum_congr fun t ht => congrArg₂ (· * ·) ?a ?b
  case a => rw [← hA i hi j hj t ht, hcols, Nat.mul_comm (slotsPerWord k)]
  case b =>
    rw [hb]
    exact (hB.readElem_eq hs.unpack_bLen (cell_lt hj ht)).symm

/-- UMUL and VMUL of the unpacked matrix, for either kernel. -/
theorem exec_unpack_as_vector {k : Kernel} {c c' : Instr} {s s' : State} (hf : commandFunction c = unpackMultiply k)
    (hf' : commandFunction c' = vectorMultiply k) (hsized : Sized .unpack k (encode c))
    (hrows : (encode c').aRows = (encode c).aRows) (hout : (encode c').outBase = (encode c).outBase)
    (hb : (encode c').bBase = (encode c).bBase)
    (hcols : (encode c').aCols.toNat = slotsPerWord k * (encode c).aCols.toNat)
    (hp : Claims.performable c s) (hp' : Claims.performable c' s') (hB : AgreeOn (bRange (encode c)) s.mem s'.mem)
    (hA : UnpackedAt k (encode c) (encode c') s.mem s'.mem) :
    ∃ t t', exec c s = .next t ∧ exec c' s' = .next t' ∧
      ∀ i < (encode c).aRows.toNat,
        readElem k t.mem (elemAt k (encode c).outBase i) =
          readElem k s.mem (elemAt k (encode c).outBase i) + readElem k t'.mem (elemAt k (encode c).outBase i) := by
  obtain ⟨-, hwf, hord, hadm⟩ := hp
  obtain ⟨-, hwf', hord', hadm'⟩ := hp'
  refine ⟨_, _, exec_enabled hord hadm, exec_enabled hord' hadm', fun i hi => ?_⟩
  have hvector := readElem_vectorMultiply (k := k) (d := encode c') hwf' (hrows ▸ hi)
  rw [hout] at hvector
  rw [complete_mem, complete_mem, hf, hf', readElem_unpackMultiply hwf hi, hvector,
    unpackSum_eq_vectorSum hsized hcols hb hB hA hi]

/-- Settles O40: `exec_unpack_as_vector` at each kernel's commands. -/
theorem unpackAddsVectorOfUnpacked : Obligations.UnpackAddsVectorOfUnpacked := by
  refine ⟨?k32, ?k64⟩
  case k32 =>
    intro o a' cols' aLen' s s' p hcols hp hp' hB hA
    exact exec_unpack_as_vector (k := .k32) rfl rfl (sized_of_performable hp) rfl rfl rfl hcols hp hp' hB hA
  case k64 =>
    intro o a' cols' aLen' s s' p hcols hp hp' hB hA
    exact exec_unpack_as_vector (k := .k64) rfl rfl (sized_of_performable hp) rfl rfl rfl hcols hp hp' hB hA

/-! ### Chained DenseMultiplies -/

/-- A DenseMultiply into the out range that another also has leaves the other's product as it was. -/
theorem denseSum_after_denseMultiply {k : Kernel} {d d' : Descriptor} {m : Memory} (hd : DenseBuffers k d)
    (hd' : DenseBuffers k d') (hout : outRange d' = outRange d) (hm : Memory.wf m = true) {i j : Nat}
    (hi : i < d'.aRows.toNat) (hj : j < d'.bCols.toNat) :
    denseSum k d' (denseMultiply k d m) i j = denseSum k d' m i j := by
  have hs := denseMultiply_storesOut k d m
  refine ringSum_congr fun t ht => congrArg₂ (· * ·) ?a ?b
  case a => exact readElem_of_apart hs hm hd.outLen (hout ▸ hd'.outApartA) hd'.aLen (cell_lt hi ht)
  case b => exact readElem_of_apart hs hm hd.outLen (hout ▸ hd'.outApartB) hd'.bLen (cell_lt ht hj)

/-- Two commands that run DenseMultiply into one `out`, for either kernel (41_dense_multiply.md R114). -/
theorem exec_dense_chain {k : Kernel} {c c' : Instr} {s : State} (hf : commandFunction c = denseMultiply k)
    (hf' : commandFunction c' = denseMultiply k) (hd : DenseBuffers k (encode c)) (hd' : DenseBuffers k (encode c'))
    (hrows : (encode c').aRows = (encode c).aRows) (hcols : (encode c').bCols = (encode c).bCols)
    (hbase : (encode c').outBase = (encode c).outBase) (hlen : (encode c').outLen = (encode c).outLen)
    (hp : Claims.performable c s) (hp' : Claims.performable c' s) :
    ∃ t u, exec c s = .next t ∧ exec c' t = .next u ∧
      ∀ i < (encode c).aRows.toNat, ∀ j < (encode c).bCols.toNat,
        readElem k u.mem (cellAt k (encode c).outBase (encode c).bCols.toNat i j) =
          readElem k s.mem (cellAt k (encode c).outBase (encode c).bCols.toNat i j) + denseSum k (encode c) s.mem i j +
            denseSum k (encode c') s.mem i j := by
  obtain ⟨-, hwf, hord, hadm⟩ := hp
  obtain ⟨-, -, hord', hadm'⟩ := hp'
  have hout : outRange (encode c') = outRange (encode c) := by rw [outRange, outRange, hbase, hlen]
  refine ⟨_, _, exec_enabled hord hadm, exec_enabled hord' hadm', fun i hi j hj => ?_⟩
  rw [complete_mem, complete_mem, hf, hf']
  have hi' : i < (encode c').aRows.toNat := hrows ▸ hi
  have hj' : j < (encode c').bCols.toNat := hcols ▸ hj
  have hwf' := (denseMultiply_storesOut k (encode c) s.mem).wf hwf
  have hsecond := readElem_denseMultiply (k := k) (d := encode c') hwf' hi' hj'
  rw [hbase, hcols, readElem_denseMultiply hwf hi hj, denseSum_after_denseMultiply hd hd' hout hwf hi' hj'] at hsecond
  exact hsecond

/-- Settles O37: `exec_dense_chain` at each kernel's command. -/
theorem denseChaining : Obligations.DenseChaining := by
  refine ⟨?k32, ?k64⟩
  case k32 =>
    intro o a2 b2 cols2 aLen2 bLen2 s p hp hp'
    exact exec_dense_chain (k := .k32) rfl rfl (denseBuffers_dmul32 hp.1) (denseBuffers_dmul32 hp'.1) rfl rfl rfl rfl
      hp hp'
  case k64 =>
    intro o a2 b2 cols2 aLen2 bLen2 s p hp hp'
    exact exec_dense_chain (k := .k64) rfl rfl (denseBuffers_dmul64 hp.1) (denseBuffers_dmul64 hp'.1) rfl rfl rfl rfl
      hp hp'

end Sys2Proof.Machine
end

section
/-! Empty dimensions (60_exceptions.md R186): a sum without terms is 0, so an accumulating command stores back what it
read, and VectorMultiply stores zeros. -/

namespace Sys2Proof.Machine

/-! ### Storing what is there -/

/-- Storing the byte that is there changes nothing. -/
theorem write_read_self {m : Memory} (h : Memory.wf m = true) (a : Nat) : Memory.write m a (Memory.read m a) = m := by
  refine Memory.ext (Memory.write_wf _ _ h) h fun b => ?_
  rw [Memory.read_write h]
  split
  · subst b; rfl
  · rfl

theorem memWrite_memRead_self {m : Memory} (h : Memory.wf m = true) (n : Nat) : ∀ a : Nat,
    memWrite m a n (memRead m a n) = m := by
  induction n with
  | zero => intro a; rfl
  | succ n ih =>
    intro a
    have hbyte := (Memory.read m a).isLt
    have hlow : BitVec.ofNat 8 (memRead m a (n + 1)) = Memory.read m a := by
      rw [← BitVec.toNat_inj, BitVec.toNat_ofNat, memRead]
      omega
    have hhigh : memRead m a (n + 1) / 2 ^ 8 = memRead m (a + 1) n := by
      rw [memRead]
      omega
    rw [memWrite, hlow, write_read_self h, hhigh, ih]

theorem writeElem_readElem_self {k : Kernel} {m : Memory} (h : Memory.wf m = true) (a : Nat) :
    writeElem k m a (readElem k m a) = m := by
  rw [writeElem, readElem_toNat, memWrite_memRead_self h]

/-- Storing back every element of a buffer changes nothing. -/
theorem fill_self {k : Kernel} {base : Nat} {f : Nat → Elem k} {m : Memory} (h : Memory.wf m = true) :
    ∀ n, (∀ p < n, f p = readElem k m (base + p * elemBytes k)) → fill k base n f m = m
  | 0, _ => rfl
  | n + 1, hf => by
    rw [fill_succ, fill_self h n fun p hp => hf p (by omega), hf n (by omega), writeElem_readElem_self h]

/-! ### Storing zeros -/

theorem memWrite_nil_zero (n : Nat) : ∀ a : Nat, memWrite [] a n 0 = [] := by
  induction n with
  | zero => intro a; rfl
  | succ n ih => intro a; exact ih (a + 1)

/-- Zeros are what an unlisted byte reads as, so into empty memory they store nothing (log 5). -/
theorem fill_nil_zero (k : Kernel) (base n : Nat) : fill k base n (fun _ => 0) [] = [] := by
  induction n with
  | zero => rfl
  | succ n ih => rw [fill_succ, ih]; exact memWrite_nil_zero _ _

/-- A buffer filled with zeros, every other byte as before. -/
theorem read_fill_zero {k : Kernel} {r : Region} {n : Nat} {m : Memory} (h : Memory.wf m = true)
    (hsize : r.size = n * elemBytes k) (x : Nat) :
    Memory.read (fill k r.base n (fun _ => 0) m) x = if inRegion r x then 0 else Memory.read m x := by
  split
  · rename_i hx
    rw [inRegion_iff] at hx
    rw [← read_fill_congr (m' := []) h rfl n fun hout => by omega, fill_nil_zero]
    rfl
  · rename_i hx
    rw [Bool.not_eq_true, not_inRegion_iff, hsize] at hx
    exact read_fill_other h n hx

/-! ### The command functions over an empty dimension -/

section
variable {k : Kernel} {d : Descriptor} {m : Memory}

theorem denseMultiply_empty (hm : Memory.wf m = true) (h : d.aRows = 0 ∨ d.aCols = 0 ∨ d.bCols = 0) :
    denseMultiply k d m = m := by
  rw [denseMultiply_eq_fill]
  refine fill_self hm _ fun p hp => ?_
  have hcols : d.aCols.toNat = 0 := by
    obtain h | h | h := h
    · simp [h] at hp
    · simp [h]
    · simp [h] at hp
  rw [denseSum, ringSum_eq_zero hcols, add_zero, elemAt]

theorem unpackMultiply_empty (hm : Memory.wf m = true) (h : d.aRows = 0 ∨ d.aCols = 0) :
    unpackMultiply k d m = m := by
  rw [unpackMultiply_eq_fill]
  refine fill_self hm _ fun p hp => ?_
  have hcols : d.aCols.toNat = 0 := by
    obtain h | h := h
    · simp [h] at hp
    · simp [h]
  rw [unpackSum, ringSum_eq_zero hcols, add_zero, elemAt]

theorem vectorMultiply_no_rows (h : d.aRows = 0) : vectorMultiply k d m = m := by
  rw [vectorMultiply, h]
  rfl

/-- With no terms VectorMultiply writes zeros (42_vector_multiply.md R120). -/
theorem read_vectorMultiply_no_terms (hm : Memory.wf m = true) (h : d.aCols = 0)
    (hlen : d.outLen.toNat = d.aRows.toNat * elemBytes k) (x : Nat) :
    Memory.read (vectorMultiply k d m) x = if inRegion (outRange d) x then 0 else Memory.read m x := by
  have hsum : vectorSum k d m = fun _ => 0 := funext fun i => ringSum_eq_zero (by simp [h])
  rw [vectorMultiply_eq_fill, hsum]
  exact read_fill_zero (r := outRange d) hm hlen x

/-- Which empty dimensions leave an operation nothing to change. -/
theorem functionOf_empty {op : Op} (hm : Memory.wf m = true)
    (h : d.aRows = 0 ∨ (d.aCols = 0 ∧ op ≠ .vector) ∨ (d.bCols = 0 ∧ (op = .dense ∨ op = .expand))) :
    functionOf op k d m = m := by
  cases op with
  | dense => exact denseMultiply_empty hm (by tauto)
  | vector => exact vectorMultiply_no_rows (by tauto)
  | expand =>
    rw [functionOf, expandMultiply_eq_denseMultiply]
    exact denseMultiply_empty hm (by tauto)
  | unpack => exact unpackMultiply_empty hm (by tauto)

end

/-- Settles O42: the commands complete over any dimensions, and empty ones are the lemmas above. -/
theorem zeroDimensions : Obligations.ZeroDimensions := by
  intro i s hwf hord hadm
  refine ⟨_, exec_enabled hord hadm, completed_complete s _, fun hempty => ?nothing,
    fun hcols hop hformed => ?zeros⟩ <;> rw [complete_mem, commandFunction_eq_functionOf]
  case nothing => exact functionOf_empty hwf hempty
  case zeros =>
    obtain ⟨hs, -⟩ := (wellFormed_iff i).1 hformed
    rw [hop] at hs ⊢
    exact read_vectorMultiply_no_terms hwf hcols hs.outLen

end Sys2Proof.Machine
end

section
/-! Pseudo-instructions (30_encoding.md R83): ten descriptor writes, a START, the engine's turn and a POLL, run one
after the other. -/

namespace Sys2Proof.Machine

/-! ### Runs -/

section
variable {M : Host.Core} {s t : M.State}

/-- A run begins with a step. -/
theorem run_succ_of_step (h : M.step s = .next t) (k : Nat) : M.run (k + 1) s = M.run k t := by
  rw [Host.Core.run, h]

/-- A run goes on from where a shorter one ends. -/
theorem run_add_of_run (j k : Nat) (h : M.run j s = .next t) : M.run (j + k) s = M.run k t := by
  induction j generalizing s with
  | zero =>
    cases h
    rw [Nat.zero_add]
  | succ j ih =>
    rw [Nat.add_right_comm]
    rw [Host.Core.run] at h ⊢
    split at h
    · rename_i u hstep
      exact ih h
    · cases h
    · cases h

end

/-- A run of this machine begins with its step. -/
theorem core_run_succ {s t : State} (h : step s = .next t) (k : Nat) :
    Sys2Proof.core.run (k + 1) s = Sys2Proof.core.run k t :=
  run_succ_of_step (M := Sys2Proof.core) (s := s) (t := t) h k

/-! ### The ten descriptor writes -/

/-- One update of a block after another is one update. -/
theorem updateBlock_updateBlock (s : State) (n : Nat) (f g : Block → Block) :
    (s.updateBlock n f).updateBlock n g = s.updateBlock n (g ∘ f) := by
  simp only [State.updateBlock, List.modify_modify_eq]

theorem updateBlock_id (s : State) (n : Nat) : s.updateBlock n id = s := by
  rw [State.updateBlock, List.modify_id]

/-- The block after stores to its descriptor registers, one after the other. -/
def Block.storeAll (writes : List (Reg × Word)) (b : Block) : Block :=
  writes.foldl (fun b w => b.store w.1 w.2) b

/-- Stores touch no field of the block but its registers. -/
theorem storeAll_eq (ws : List (Reg × Word)) : ∀ b : Block,
    b.storeAll ws = { b with regs := ws.foldl (fun d w => setReg d w.1 w.2) b.regs } := by
  induction ws with
  | nil => intro b; rfl
  | cons w ws ih => intro b; exact ih (b.store w.1 w.2)

/-- The state after the writes, with these transactions and turns left. -/
def afterWrites (s : State) (n : Nat) (ws : List (Reg × Word)) (prog : List HostOp) (rest : List Turn) : State :=
  { s.updateBlock n (Block.storeAll ws) with turns := rest, program := prog }

theorem afterWrites_block {s : State} {n : Nat} {b : Block} (hb : s.blocks[n]? = some b) (ws : List (Reg × Word))
    (prog : List HostOp) (rest : List Turn) : (afterWrites s n ws prog rest).blocks[n]? = some (b.storeAll ws) :=
  (updateBlock_same ..).trans (congrArg (Option.map _) hb)

theorem afterWrites_nil {s : State} {prog : List HostOp} {rest : List Turn} (ht : s.turns = rest)
    (hp : s.program = prog) (n : Nat) : afterWrites s n [] prog rest = s := by
  have hid : s.updateBlock n (Block.storeAll []) = s := updateBlock_id s n
  rw [afterWrites, hid, ← ht, ← hp]

theorem afterWrites_cons (s : State) (n : Nat) (w : Reg × Word) (ws : List (Reg × Word)) (prog prog' : List HostOp)
    (rest rest' : List Turn) :
    afterWrites (afterWrites s n [w] prog' rest') n ws prog rest = afterWrites s n (w :: ws) prog rest := by
  have hblock := updateBlock_updateBlock s n (Block.store w.1 w.2) (Block.storeAll ws)
  exact congrArg (fun t : State => { t with turns := rest, program := prog }) hblock

/-- As many host turns as there are writes to descriptor registers make them all. -/
theorem run_writes {n : Nat} {prog : List HostOp} {rest : List Turn} (ws : List (Reg × Word))
    (hws : ∀ w ∈ ws, w.1 ≠ .ctrl ∧ w.1 ≠ .status) : ∀ {s : State} {b : Block},
    s.turns = List.replicate ws.length .host ++ rest → s.program = ws.map (fun w => WR n w.1 w.2) ++ prog →
    s.blocks[n]? = some b → Sys2Proof.core.run ws.length s = .next (afterWrites s n ws prog rest) := by
  induction ws with
  | nil =>
    intro s b ht hp _
    exact congrArg Host.Outcome.next (afterWrites_nil ht hp n).symm
  | cons w ws ih =>
    intro s b ht hp hb
    obtain ⟨hc, hs⟩ := hws w List.mem_cons_self
    have hstep : step s = .next (afterWrites s n [w] (ws.map (fun w => WR n w.1 w.2) ++ prog)
        (List.replicate ws.length .host ++ rest)) := step_WR_descriptor ht hp hb hc hs
    have hrest := ih (fun w hw => hws w (List.mem_cons_of_mem _ hw)) rfl rfl
      (afterWrites_block hb [w] (ws.map (fun w => WR n w.1 w.2) ++ prog) (List.replicate ws.length .host ++ rest))
    rw [afterWrites_cons] at hrest
    exact (core_run_succ hstep _).trans hrest

/-- A command's ten writes, in the order of the registers (30_encoding.md R83). -/
def descriptorWrites (d : Descriptor) : List (Reg × Word) :=
  [(.cmd, d.cmd), (.outBase, d.outBase), (.aBase, d.aBase), (.bBase, d.bBase), (.aRows, d.aRows), (.aCols, d.aCols),
    (.bCols, d.bCols), (.outLen, d.outLen), (.aLen, d.aLen), (.bLen, d.bLen)]

theorem descriptorWrites_descriptor (d : Descriptor) : ∀ w ∈ descriptorWrites d, w.1 ≠ .ctrl ∧ w.1 ≠ .status := by
  simp [descriptorWrites]

/-- The expansion is the ten writes, START and POLL. -/
theorem expand_eq (n : Nat) (i : Instr) :
    expand n i = (descriptorWrites (encode i)).map (fun w => WR n w.1 w.2) ++ [WR n .ctrl 1, .poll n] := rfl

/-- The ten writes overwrite every descriptor register. -/
theorem storeAll_descriptorWrites (d : Descriptor) :
    Block.storeAll (descriptorWrites d) = fun b => { b with regs := d } := by
  funext b
  rw [storeAll_eq]
  cases d
  cases b.regs
  rfl

/-- Settles O20: `run_writes` of the ten writes. -/
theorem pseudoInstructionLoadsDescriptor : Obligations.PseudoInstructionLoadsDescriptor := by
  intro s n b i prog rest ht hp hb
  rw [expand_eq, List.append_assoc] at hp
  rw [← storeAll_descriptorWrites]
  exact run_writes (descriptorWrites (encode i)) (descriptorWrites_descriptor _) ht hp hb

/-! ### START, Perform and POLL -/

/-- The state after block `n`'s engine has performed command `i`, with these turns left. -/
def afterPerform (s : State) (n : Nat) (i : Instr) (rest : List Turn) : State :=
  ({ s with turns := rest, engine := n } : State).complete (commandFunction i (encode i) s.mem)

section
variable (s : State) {n : Nat} (i : Instr) (rest : List Turn)

theorem afterPerform_block {b : Block} (hb : s.blocks[n]? = some b) :
    (afterPerform s n i rest).blocks[n]? = some (b.finish (freeLanes s.draws)) :=
  complete_block (s := { s with turns := rest, engine := n }) hb _

theorem afterPerform_other {m : Nat} (h : m ≠ n) : (afterPerform s n i rest).blocks[m]? = s.blocks[m]? :=
  (completed_complete { s with turns := rest, engine := n } (commandFunction i (encode i) s.mem)).others m h

theorem afterPerform_runningAt_same : (afterPerform s n i rest).runningAt n = none :=
  complete_runningAt_same { s with turns := rest, engine := n } (commandFunction i (encode i) s.mem)

theorem afterPerform_runningAt_other {m : Nat} (h : m ≠ n) :
    (afterPerform s n i rest).runningAt m = s.runningAt m :=
  complete_runningAt_other { s with turns := rest, engine := n } (commandFunction i (encode i) s.mem) h

end

/-- The step of a listed engine's turn that completes its block's command. -/
theorem step_engine_complete {s : State} {n : Nat} {rest : List Turn} {d : Descriptor} {i : Instr}
    (ht : s.turns = .engine n :: rest) (hd : s.runningAt n = some d) (hi : decode d = .ok i)
    (hord : footprintOrdinary s.platform d = true) (hadm : footprintAdmitted s.platform d = true) :
    step s = .next (afterPerform s n i rest) := by
  have hfoot := footprint_of_decode hi
  rw [footprintOrdinary, ← hfoot] at hord
  rw [footprintAdmitted, ← hfoot] at hadm
  rw [step_engine ht, engineTurn_of_running (s := { s with turns := rest }) hd hi]
  exact exec_enabled hord hadm

/-- The step of a POLL that finds BUSY 0. -/
theorem step_poll_idle {s : State} {n : Nat} {b : Block} {prog : List HostOp} {rest : List Turn}
    (ht : s.turns = .host :: rest) (hp : s.program = .poll n :: prog) (hb : s.blocks[n]? = some b)
    (hidle : b.busy = false) :
    step s = .next { s with turns := rest, program := prog, replies := .register (statusWord b) :: s.replies } := by
  rw [pollRepeatsWhileBusy s n b prog rest ht hp hb, hidle, if_neg Bool.false_ne_true]

/-! ### The whole pseudo-instruction -/

section
variable (s : State) (n : Nat) (b : Block) (i : Instr) (prog : List HostOp) (rest : List Turn)

/-- The state before START: the ten writes are made. -/
def loadedState : State :=
  { s.updateBlock n (fun b => { b with regs := encode i }) with
    turns := .host :: .engine n :: .host :: rest
    program := WR n .ctrl 1 :: .poll n :: prog }

/-- The state after START: the command is latched. -/
def startedState : State :=
  ({ loadedState s n i prog rest with turns := .engine n :: .host :: rest, program := .poll n :: prog } :
    State).updateBlock n fun b => b.clearStatus.latch

/-- The block after START. -/
def startedBlock : Block := ({ b with regs := encode i } : Block).clearStatus.latch

/-- The state before POLL: the command is performed. -/
def doneState : State := afterPerform (startedState s n i prog rest) n i (.host :: rest)

/-- The block before POLL. -/
def doneBlock : Block := (startedBlock b i).finish (freeLanes s.draws)

end

section
variable {s : State} {n : Nat} {b : Block} {i : Instr} (prog : List HostOp) (rest : List Turn)

theorem loadedState_block (hb : s.blocks[n]? = some b) :
    (loadedState s n i prog rest).blocks[n]? = some { b with regs := encode i } :=
  (updateBlock_same ..).trans (congrArg (Option.map _) hb)

theorem startedState_block (hb : s.blocks[n]? = some b) :
    (startedState s n i prog rest).blocks[n]? = some (startedBlock b i) :=
  (updateBlock_same ..).trans (congrArg (Option.map _) (loadedState_block prog rest hb))

theorem doneState_block (hb : s.blocks[n]? = some b) :
    (doneState s n i prog rest).blocks[n]? = some (doneBlock s b i) :=
  afterPerform_block _ i _ (startedState_block prog rest hb)

theorem doneState_other {m : Nat} (hm : m ≠ n) : (doneState s n i prog rest).blocks[m]? = s.blocks[m]? :=
  (afterPerform_other _ i _ hm).trans ((updateBlock_other _ _ _ hm).trans (updateBlock_other _ _ _ hm))

/-- DONE is set and nothing else (45_host_interface.md R166). -/
theorem statusWord_doneBlock : statusWord (doneBlock s b i) = 2 := statusWord_finish rfl rfl _

theorem step_loadedState (hb : s.blocks[n]? = some b) (hidle : b.busy = false) (hformed : i.wellFormed = true)
    (hord : footprintOrdinary s.platform (encode i) = true)
    (hfree : ∀ m d, m ≠ n → s.runningAt m = some d → conflict (encode i) d = false) :
    step (loadedState s n i prog rest) = .next (startedState s n i prog rest) :=
  step_start_latch rfl rfl (loadedState_block prog rest hb) hidle rfl ((checkAcceptsExactlyWellFormed i).2 hformed)
    hord fun m d hm hd => hfree m d hm ((updateBlock_runningAt_other s _ hm).symm.trans hd)

theorem step_startedState (hb : s.blocks[n]? = some b) (hord : footprintOrdinary s.platform (encode i) = true)
    (hadm : footprintAdmitted s.platform (encode i) = true) :
    step (startedState s n i prog rest) = .next (doneState s n i prog rest) :=
  step_engine_complete rfl (runningAt_of_block (startedState_block prog rest hb)) (decode_encode i) hord hadm

theorem step_doneState (hb : s.blocks[n]? = some b) :
    step (doneState s n i prog rest) =
      .next { doneState s n i prog rest with turns := rest, program := prog, replies := .register 2 :: s.replies } := by
  have hpoll := step_poll_idle (s := doneState s n i prog rest) rfl rfl (doneState_block prog rest hb) rfl
  rw [statusWord_doneBlock] at hpoll
  exact hpoll

end

/-- Settles O55: the writes are O20's, and the three steps after them are those above. -/
theorem pseudoInstructionPerformsCommand : Obligations.PseudoInstructionPerformsCommand := by
  intro s n b i prog rest _ hb hidle hformed hord hadm hfree ht hp
  refine ⟨{ doneState s n i prog rest with turns := rest, program := prog, replies := .register 2 :: s.replies }, _,
    ?run, exec_enabled hord hadm, rfl, rfl, rfl, rfl, ?status, ?regs, fun m hm => doneState_other prog rest hm⟩
  case run =>
    have hwrites : Sys2Proof.core.run 10 s = .next (loadedState s n i prog rest) :=
      pseudoInstructionLoadsDescriptor s n b i prog _ ht hp hb
    calc Sys2Proof.core.run 13 s
      _ = Sys2Proof.core.run 3 (loadedState s n i prog rest) := run_add_of_run (M := Sys2Proof.core) 10 3 hwrites
      _ = Sys2Proof.core.run 2 (startedState s n i prog rest) :=
        core_run_succ (step_loadedState prog rest hb hidle hformed hord hfree) 2
      _ = Sys2Proof.core.run 1 (doneState s n i prog rest) := core_run_succ (step_startedState prog rest hb hord hadm) 1
      _ = _ := core_run_succ (step_doneState prog rest hb) 0
  case status =>
    exact (congrArg (Option.map statusWord) (doneState_block prog rest hb)).trans (congrArg some statusWord_doneBlock)
  case regs => exact congrArg (Option.map Block.regs) (doneState_block prog rest hb)

end Sys2Proof.Machine
end

section
/-! The accumulators are never read (10_state.md R33): forgetting the lanes before a step gives the same outcome, up to
lanes, as the step. -/

namespace Sys2Proof.Machine

/-! ### States with their lanes forgotten -/

/-- A state with every block's lanes forgotten. -/
def State.forgetLanes (s : State) : State := { s with blocks := s.blocks.map Block.forgetLanes }

section
variable (b : Block) (acc : Vector Word 8)
@[simp] theorem forgetLanes_regs : b.forgetLanes.regs = b.regs := rfl
@[simp] theorem forgetLanes_busy : b.forgetLanes.busy = b.busy := rfl
@[simp] theorem forgetLanes_running : b.forgetLanes.running = b.running := rfl
@[simp] theorem forgetLanes_forgetLanes : b.forgetLanes.forgetLanes = b.forgetLanes := rfl
@[simp] theorem forgetLanes_readReg (r : Reg) : b.forgetLanes.readReg r = b.readReg r := by cases r <;> rfl
end

section
variable (s : State)
@[simp] theorem forgetLanes_mem : s.forgetLanes.mem = s.mem := rfl
@[simp] theorem forgetLanes_platform : s.forgetLanes.platform = s.platform := rfl
@[simp] theorem forgetLanes_program : s.forgetLanes.program = s.program := rfl
@[simp] theorem forgetLanes_turns : s.forgetLanes.turns = s.turns := rfl
@[simp] theorem forgetLanes_draws : s.forgetLanes.draws = s.draws := rfl

theorem forgetLanes_blocks (n : Nat) : s.forgetLanes.blocks[n]? = s.blocks[n]?.map Block.forgetLanes :=
  List.getElem?_map ..

@[simp] theorem forgetLanes_length : s.forgetLanes.blocks.length = s.blocks.length := List.length_map ..

@[simp] theorem forgetLanes_runningAt (n : Nat) : s.forgetLanes.runningAt n = s.runningAt n := by
  rw [State.runningAt, State.runningAt, forgetLanes_blocks, Option.bind_map]
  rfl
end

/-- Updates that do the same up to lanes give the same state up to lanes. -/
theorem forgetLanes_updateBlock {f g : Block → Block} (h : ∀ b, (f b).forgetLanes = g b.forgetLanes) (s : State)
    (n : Nat) : (s.updateBlock n f).forgetLanes = s.forgetLanes.updateBlock n g := by
  have hblocks : (s.updateBlock n f).blocks.map Block.forgetLanes = (s.forgetLanes.updateBlock n g).blocks := by
    refine List.ext_getElem? fun m => ?_
    rw [List.getElem?_map, updateBlock_blocks, updateBlock_blocks, forgetLanes_blocks]
    split
    · rw [Option.map_map, Option.map_map]
      exact congrArg (Option.map · _) (funext h)
    · rfl
  exact congrArg (fun blocks => { s with blocks := blocks }) hblocks

/-- Equal states up to lanes are what the spec can speak of. -/
theorem sameButLanes_of_forgetLanes {s t : State} (h : t.forgetLanes = s.forgetLanes) : SameButLanes s t := by
  obtain ⟨hmem, hblocks, hplatform, hprogram, hreplies, hturns, -, -⟩ := State.mk.inj h
  exact ⟨hmem, hblocks, hplatform, hprogram, hreplies, hturns⟩

/-! ### Outcomes with lanes forgotten -/

/-- An outcome with the lanes of its next state forgotten. -/
def forgetOutcome : Host.Outcome State Fault Refusal → Host.Outcome State Fault Refusal
  | .next t => .next t.forgetLanes
  | .fault r => .fault r
  | .refused r => .refused r

/-- The operation gives the same outcome, up to lanes, with the lanes forgotten before it. -/
def ReadsNoLanes (op : State → Host.Outcome State Fault Refusal) : Prop :=
  ∀ s : State, forgetOutcome (op s.forgetLanes) = forgetOutcome (op s)

theorem forgetOutcome_next {s t : State} (h : s.forgetLanes = t.forgetLanes) :
    forgetOutcome (.next s) = forgetOutcome (.next t) :=
  congrArg Host.Outcome.next h

theorem forgetLanes_idem (s : State) : s.forgetLanes.forgetLanes = s.forgetLanes := by
  have hblocks : s.forgetLanes.blocks.map Block.forgetLanes = s.forgetLanes.blocks := by
    simp only [State.forgetLanes, List.map_map]
    exact congrArg (List.map · s.blocks) (funext forgetLanes_forgetLanes)
  exact congrArg (fun blocks => { s with blocks := blocks }) hblocks

/-- An update that does not look at lanes. -/
theorem forgetLanes_updateBlock_congr {f : Block → Block} (h : ∀ b, (f b.forgetLanes).forgetLanes = (f b).forgetLanes)
    (s : State) (n : Nat) : (s.forgetLanes.updateBlock n f).forgetLanes = (s.updateBlock n f).forgetLanes := by
  have hf : ∀ b, (f b).forgetLanes = (f b.forgetLanes).forgetLanes := fun b => (h b).symm
  rw [forgetLanes_updateBlock (g := fun b => (f b).forgetLanes) hf,
    forgetLanes_updateBlock (g := fun b => (f b).forgetLanes) hf, forgetLanes_idem]

/-! ### Engines and reset -/

theorem forgetLanes_complete (s : State) (m : Memory) :
    (s.forgetLanes.complete m).forgetLanes = (s.complete m).forgetLanes := by
  have hblock := forgetLanes_updateBlock_congr (f := (·.finish (freeLanes s.draws))) (fun _ => rfl) s s.engine
  exact congrArg (fun t : State => { t with mem := m, draws := s.draws + 8 }) hblock

theorem exec_readsNoLanes (i : Instr) : ReadsNoLanes (exec i) := by
  intro s
  rw [exec_eq_perform, exec_eq_perform, perform, perform, forgetLanes_platform, forgetLanes_mem]
  split
  · split
    · exact forgetOutcome_next (forgetLanes_complete s _)
    · exact forgetOutcome_next (forgetLanes_idem s)
  · rfl

theorem engineTurn_readsNoLanes (n : Nat) : ReadsNoLanes (engineTurn n) := by
  intro s
  have hfetch : fetch s.forgetLanes n = fetch s n := by rw [fetch, fetch, forgetLanes_runningAt]
  rw [engineTurn, engineTurn, hfetch]
  split
  · exact forgetOutcome_next (forgetLanes_idem s)
  · exact exec_readsNoLanes _ { s with engine := n }
  · rfl

theorem resetBlock_readsNoLanes (n : Nat) : ReadsNoLanes fun s => .next (s.resetBlock n) := by
  intro s
  refine forgetOutcome_next ?_
  cases hb : s.blocks[n]? with
  | none =>
    have hb' : s.forgetLanes.blocks[n]? = none := by rw [forgetLanes_blocks, hb, Option.map_none]
    rw [resetBlock_of_none hb, resetBlock_of_none hb', forgetLanes_idem]
  | some b =>
    have hb' : s.forgetLanes.blocks[n]? = some b.forgetLanes := by rw [forgetLanes_blocks, hb, Option.map_some]
    rw [resetBlock_of_block hb, resetBlock_of_block hb', forgetLanes_running, forgetLanes_draws, forgetLanes_platform,
      forgetLanes_mem]
    have hblock := forgetLanes_updateBlock_congr
      (f := fun _ => Block.afterReset (freeLanes (s.draws + abortDraws b.running))) (fun _ => rfl) s n
    exact congrArg (fun t : State => { t with
      mem := abortMemory s.platform s.mem s.draws b.running
      draws := s.draws + abortDraws b.running + 8 }) hblock

/-! ### The host -/

theorem forgetLanes_conflictsWithRunning (s : State) (n : Nat) (d : Descriptor) :
    conflictsWithRunning s.forgetLanes n d = conflictsWithRunning s n d := by
  simp only [conflictsWithRunning, forgetLanes_length, forgetLanes_runningAt]

theorem acceptStart_readsNoLanes (n : Nat) (b : Block) :
    ∀ s, forgetOutcome (acceptStart s.forgetLanes n b.forgetLanes) = forgetOutcome (acceptStart s n b) := by
  intro s
  cases hcheck : check b.regs with
  | some e =>
    rw [acceptStart_error (b := b.forgetLanes) hcheck, acceptStart_error hcheck]
    exact forgetOutcome_next (forgetLanes_updateBlock_congr (fun _ => rfl) s n)
  | none =>
    rw [acceptStart_pass (b := b.forgetLanes) hcheck, acceptStart_pass hcheck, forgetLanes_platform,
      forgetLanes_regs, forgetLanes_conflictsWithRunning]
    split
    · split
      · rfl
      · exact forgetOutcome_next (forgetLanes_updateBlock_congr (fun _ => rfl) s n)
    · rfl

theorem start_readsNoLanes (n : Nat) (b : Block) (s : State) :
    forgetOutcome (start s.forgetLanes n b.forgetLanes) = forgetOutcome (start s n b) := by
  rw [start, start, forgetLanes_busy]
  split
  · exact forgetOutcome_next (forgetLanes_idem s)
  · exact acceptStart_readsNoLanes n b s

theorem writeReg_readsNoLanes (n : Nat) (b : Block) (r : Reg) (v : Word) (s : State) :
    forgetOutcome (writeReg s.forgetLanes n b.forgetLanes r v) = forgetOutcome (writeReg s n b r v) := by
  by_cases hc : r = .ctrl
  · subst r
    rw [writeReg_ctrl, writeReg_ctrl]
    split
    · exact start_readsNoLanes n b s
    · exact forgetOutcome_next (forgetLanes_idem s)
  · by_cases hs : r = .status
    · subst r
      exact forgetOutcome_next (forgetLanes_idem s)
    · rw [writeReg_descriptor hc hs, writeReg_descriptor hc hs]
      exact forgetOutcome_next (forgetLanes_updateBlock_congr (fun _ => rfl) s n)

theorem forgetLanes_registerAccess (s : State) (n off bits : Nat) :
    registerAccess s.forgetLanes n off bits =
      (registerAccess s n off bits).map fun x => (x.1.forgetLanes, x.2) := by
  unfold registerAccess
  split
  · rw [forgetLanes_blocks]
    cases s.blocks[n]? <;> cases regAt off <;> rfl
  · rfl

theorem forgetLanes_readReg_answer (s : State) (b : Block) (r : Reg) :
    (readReg s.forgetLanes b.forgetLanes r).forgetLanes = (readReg s b r).forgetLanes := by
  rw [readReg, readReg, forgetLanes_readReg]
  exact congrArg (fun t : State => t.answer (.register (b.readReg r))) (forgetLanes_idem s)

/-- What is running is the same, so an access breaks the same hazards. -/
theorem forgetLanes_meetsRunning (s : State) (r : Region) :
    meetsRunningFootprint s.forgetLanes r = meetsRunningFootprint s r ∧
      meetsRunningOut s.forgetLanes r = meetsRunningOut s r := by
  simp only [meetsRunningFootprint, meetsRunningOut, State.forgetLanes, List.any_map, Function.comp_def,
    forgetLanes_running, and_self]

theorem hostAccess_readsNoLanes {s t t' : State} (r : Region) (breach : Bool)
    (h : t'.forgetLanes = t.forgetLanes) :
    forgetOutcome (hostAccess s.forgetLanes r breach t') = forgetOutcome (hostAccess s r breach t) := by
  rw [hostAccess, hostAccess, forgetLanes_platform]
  split
  · rfl
  · split
    · split
      · exact forgetOutcome_next h
      · rfl
    · rfl

theorem transact_readsNoLanes (op : HostOp) : ReadsNoLanes (transact op) := by
  intro s
  cases op with
  | regWrite n off bits v =>
    simp only [transact, forgetLanes_registerAccess]
    cases registerAccess s n off bits with
    | none => rfl
    | some x => exact writeReg_readsNoLanes n x.1 x.2 v s
  | regRead n off bits =>
    simp only [transact, forgetLanes_registerAccess]
    cases registerAccess s n off bits with
    | none => rfl
    | some x => exact forgetOutcome_next (forgetLanes_readReg_answer s x.1 x.2)
  | memWrite a bytes =>
    rw [transact_memWrite, transact_memWrite, (forgetLanes_meetsRunning s _).1]
    exact hostAccess_readsNoLanes _ _
      (congrArg (fun t : State => { t with mem := storeBytes s.mem a.toNat bytes }) (forgetLanes_idem s))
  | memRead a count =>
    rw [transact_memRead, transact_memRead, (forgetLanes_meetsRunning s _).2]
    exact hostAccess_readsNoLanes _ _
      (congrArg (fun t : State => t.answer (.memory (memRead s.mem a.toNat count))) (forgetLanes_idem s))
  | poll n =>
    cases hb : s.blocks[n]? with
    | none =>
      have hacc : registerAccess s n (regOffset .status) 64 = none := by
        rw [Option.eq_none_iff_forall_ne_some]
        rintro ⟨b, r⟩ hacc
        obtain ⟨-, hb', -⟩ := registerAccess_eq_some.1 hacc
        rw [hb] at hb'
        cases hb'
      simp only [transact, forgetLanes_registerAccess, hacc]
      rfl
    | some b =>
      have hb' : s.forgetLanes.blocks[n]? = some b.forgetLanes := by rw [forgetLanes_blocks, hb, Option.map_some]
      rw [transact_poll s hb, transact_poll s.forgetLanes hb']
      exact forgetOutcome_next (congrArg (fun t : State => { t with
        program := if b.busy then .poll n :: s.program else s.program }) (forgetLanes_readReg_answer s b .status))

theorem hostTurn_readsNoLanes : ReadsNoLanes hostTurn := by
  intro s
  rw [hostTurn, hostTurn, forgetLanes_program]
  split
  · exact forgetOutcome_next (forgetLanes_idem s)
  · rename_i op rest _
    exact transact_readsNoLanes op { s with program := rest }

/-! ### The step -/

theorem forgetLanes_nextTurn (s : State) : nextTurn s.forgetLanes = nextTurn s := by
  have henabled : performEnabled s.forgetLanes = performEnabled s := funext fun n => by
    rw [performEnabled, performEnabled, forgetLanes_runningAt, forgetLanes_platform]
  simp only [nextTurn, defaultTurn, forgetLanes_turns, forgetLanes_length, henabled]

theorem step_readsNoLanes : ReadsNoLanes step := by
  intro s
  rw [step_eq_move_nextTurn, step_eq_move_nextTurn, forgetLanes_nextTurn]
  cases nextTurn s with
  | host => exact hostTurn_readsNoLanes s.taken
  | engine n => exact engineTurn_readsNoLanes n s.taken
  | reset n => exact resetBlock_readsNoLanes n s.taken

/-- States that differ in lanes alone have the same outcomes up to lanes. -/
theorem step_of_forgetLanes_eq {s s' : State} (h : s'.forgetLanes = s.forgetLanes) :
    forgetOutcome (step s') = forgetOutcome (step s) := by
  rw [← step_readsNoLanes s', h, step_readsNoLanes s]

/-- Settles O53: `step_of_forgetLanes_eq`, outcome by outcome. -/
theorem lanesAreNeverRead : Obligations.LanesAreNeverRead := by
  intro s n acc
  have hsame : (s.updateBlock n fun b => { b with acc }).forgetLanes = s.forgetLanes := by
    rw [forgetLanes_updateBlock (f := fun b => { b with acc }) (g := id) (fun _ => rfl), updateBlock_id]
  have hstep := step_of_forgetLanes_eq hsame
  refine ⟨fun t ht => ?next, nofun, fun r hr => ?refused⟩
  case next =>
    rw [ht] at hstep
    cases ht' : step (s.updateBlock n fun b => { b with acc }) with
    | next t' =>
      rw [ht'] at hstep
      exact ⟨t', rfl, sameButLanes_of_forgetLanes (Host.Outcome.next.inj hstep)⟩
    | fault r => cases r
    | refused r => rw [ht'] at hstep; cases hstep
  case refused =>
    rw [hr] at hstep
    cases ht' : step (s.updateBlock n fun b => { b with acc }) with
    | next t' => rw [ht'] at hstep; cases hstep
    | fault r => cases r
    | refused r' => rw [ht'] at hstep; exact hstep

end Sys2Proof.Machine
end

section
/-! Two running commands (20_memory.md R66): each leaves the other's footprint as it was, so the order in which they are
performed does not show. -/

namespace Sys2Proof.Machine

/-! ### The memory -/

/-- A command's out range after a change of memory that its footprint does not show. -/
theorem commandFunction_agreeOn_of_footprint {i : Instr} {m m' : Memory} (hcheck : check (encode i) = none)
    (hm : Memory.wf m = true) (hm' : Memory.wf m' = true)
    (h : ∀ x, inFootprint (encode i) x = true → Memory.read m' x = Memory.read m x) :
    AgreeOn (outRange (encode i)) (commandFunction i (encode i) m) (commandFunction i (encode i) m') := by
  obtain ⟨hs, hp⟩ := (check_eq_none_iff (decodeCmd_encode i)).1 hcheck
  rw [commandFunction_eq_functionOf]
  exact functionOf_agreeOn hs hp hm hm' (fun x hx => h x (inFootprint_iff.2 (.inr (.inl hx))))
    (fun x hx => h x (inFootprint_iff.2 (.inr (.inr hx)))) fun _ x hx => h x (inFootprint_iff.2 (.inl hx))

theorem conflict_free_byte {d e : Descriptor} (h : conflict d e = false) {x : Nat} (hx : inFootprint d x = true) :
    inRegion (outRange e) x = false := by
  rw [Bool.eq_false_iff]
  intro hout
  simp [(conflict_eq_false_iff.1 h).2 x hout] at hx

/-- In the out range of one command, the order of the two does not show. -/
theorem read_commandFunction_swap {i j : Instr} {m : Memory} (hi : check (encode i) = none)
    (hj : check (encode j) = none) (hfree : conflict (encode i) (encode j) = false) (hm : Memory.wf m = true) {x : Nat}
    (hx : inRegion (outRange (encode i)) x = true) :
    Memory.read (commandFunction j (encode j) (commandFunction i (encode i) m)) x =
      Memory.read (commandFunction i (encode i) (commandFunction j (encode j) m)) x := by
  have hci := commandFunction_confinedTo hi m
  have hcj := commandFunction_confinedTo hj m
  have hxj := conflict_free_byte hfree (inFootprint_of_inRegion_outRange hx)
  rw [(commandFunction_confinedTo hj _).other (hci.wf hm) x hxj]
  exact (commandFunction_agreeOn_of_footprint hi hm (hcj.wf hm)
    (fun y hy => hcj.other hm y (conflict_free_byte hfree hy)) x hx).symm

theorem commandFunction_comm {i j : Instr} {m : Memory} (hi : check (encode i) = none)
    (hj : check (encode j) = none) (hfree : conflict (encode i) (encode j) = false) (hm : Memory.wf m = true) :
    commandFunction j (encode j) (commandFunction i (encode i) m) =
      commandFunction i (encode i) (commandFunction j (encode j) m) := by
  have hci := commandFunction_confinedTo hi
  have hcj := commandFunction_confinedTo hj
  refine Memory.ext ((hcj _).wf ((hci m).wf hm)) ((hci _).wf ((hcj m).wf hm)) fun x => ?_
  cases hxi : inRegion (outRange (encode i)) x with
  | true => exact read_commandFunction_swap hi hj hfree hm hxi
  | false =>
    cases hxj : inRegion (outRange (encode j)) x with
    | true => exact (read_commandFunction_swap hj hi (conflict_comm _ _ ▸ hfree) hm hxj).symm
    | false =>
      rw [(hcj _).other ((hci m).wf hm) x hxj, (hci m).other hm x hxi, (hci _).other ((hcj m).wf hm) x hxi,
        (hcj m).other hm x hxj]

/-! ### The state -/

theorem updateBlock_comm (s : State) {n m : Nat} (h : n ≠ m) (f g : Block → Block) :
    (s.updateBlock n f).updateBlock m g = (s.updateBlock m g).updateBlock n f := by
  simp only [State.updateBlock, List.modify_modify_ne _ _ _ h]

/-- Two blocks finish in either order with the same state up to lanes, whatever is left in these. -/
theorem forgetLanes_finish_comm (s : State) {n m : Nat} (h : n ≠ m) (acc₁ acc₂ acc₃ acc₄ : Vector Word 8) :
    ((s.updateBlock n (·.finish acc₁)).updateBlock m (·.finish acc₂)).forgetLanes =
      ((s.updateBlock m (·.finish acc₃)).updateBlock n (·.finish acc₄)).forgetLanes := by
  have hfinish : ∀ (s : State) (n : Nat) (acc : Vector Word 8), (s.updateBlock n (·.finish acc)).forgetLanes =
      s.forgetLanes.updateBlock n (·.finish (Vector.replicate 8 0)) := fun s n acc =>
    forgetLanes_updateBlock (f := (·.finish acc)) (fun _ => rfl) s n
  rw [hfinish, hfinish, hfinish, hfinish, updateBlock_comm _ h]

/-- The state after the engines of blocks `n` and `m` have performed the commands `i` and `j`, in this order. -/
def afterBoth (s : State) (n m : Nat) (i j : Instr) (rest : List Turn) : State :=
  afterPerform (afterPerform s n i (.engine m :: rest)) m j rest

section
variable {s : State} {n m : Nat} {d e : Descriptor} {i j : Instr}

/-- Two engines' turns, of different blocks whose Performs are enabled, complete both commands. -/
theorem run_both (rest : List Turn) (hne : n ≠ m) (hd : s.runningAt n = some d) (he : s.runningAt m = some e)
    (hi : decode d = .ok i) (hj : decode e = .ok j) (hdord : footprintOrdinary s.platform d = true)
    (heord : footprintOrdinary s.platform e = true) (hdadm : footprintAdmitted s.platform d = true)
    (headm : footprintAdmitted s.platform e = true) :
    Sys2Proof.core.run 2 { s with turns := .engine n :: .engine m :: rest } = .next (afterBoth s n m i j rest) ∧
      (afterBoth s n m i j rest).runningAt n = none ∧ (afterBoth s n m i j rest).runningAt m = none := by
  have hfirst : step { s with turns := .engine n :: .engine m :: rest } =
      .next (afterPerform s n i (.engine m :: rest)) := step_engine_complete rfl hd hi hdord hdadm
  have hsecond : step (afterPerform s n i (.engine m :: rest)) = .next (afterBoth s n m i j rest) :=
    step_engine_complete rfl ((afterPerform_runningAt_other s i _ hne.symm).trans he) hj heord headm
  refine ⟨(core_run_succ hfirst 1).trans (core_run_succ hsecond 0), ?_, afterPerform_runningAt_same _ j rest⟩
  exact (afterPerform_runningAt_other _ j rest hne).trans (afterPerform_runningAt_same s i _)

/-- The order of two commands that do not conflict shows in the lanes alone. -/
theorem sameButLanes_afterBoth (rest : List Turn) (hne : n ≠ m) (hi : check (encode i) = none)
    (hj : check (encode j) = none) (hfree : conflict (encode i) (encode j) = false) (hm : Memory.wf s.mem = true) :
    SameButLanes (afterBoth s n m i j rest) (afterBoth s m n j i rest) where
  mem := (commandFunction_comm hi hj hfree hm).symm
  blocks := congrArg State.blocks (forgetLanes_finish_comm s hne.symm ..)
  platform := rfl
  program := rfl
  replies := rfl
  turns := rfl

end

/-- A checked descriptor encodes a command. -/
theorem exists_decode_of_check {d : Descriptor} (h : check d = none) : ∃ i, decode d = .ok i := by
  obtain ⟨op, k, hcmd, -⟩ := check_none h
  exact ⟨_, decode_of_decodeCmd hcmd⟩

/-- Settles O54: both runs end in `afterBoth`, and what a good state runs is checked and does not conflict. -/
theorem performOrderIsInvisible : Obligations.PerformOrderIsInvisible := by
  intro s n m d e rest h hne hd he hdadm headm
  obtain ⟨hdcheck, hdord⟩ := good_running h hd
  obtain ⟨hecheck, heord⟩ := good_running h he
  obtain ⟨i, hi⟩ := exists_decode_of_check hdcheck
  obtain ⟨j, hj⟩ := exists_decode_of_check hecheck
  have hfree : conflict (encode i) (encode j) = false := by
    rw [conflict, outRange_of_decode hi, outRange_of_decode hj, footprint_of_decode hi, footprint_of_decode hj]
    exact h.apart n m d e hne hd he
  obtain ⟨hrun, hn, hm⟩ := run_both rest hne hd he hi hj hdord heord hdadm headm
  obtain ⟨hrun', -, -⟩ := run_both rest hne.symm he hd hj hi heord hdord headm hdadm
  exact ⟨_, _, hrun, hrun', sameButLanes_afterBoth rest hne ((check_of_decode hi).trans hdcheck)
    ((check_of_decode hj).trans hecheck) hfree h.memWf, hn, hm⟩

end Sys2Proof.Machine
end

section
/-! The reference schedules of 40_datapath.md R98: reading memory as they go, they leave what the closed forms leave,
for they store into `out` alone, which is apart from A and B. -/

namespace Sys2Proof.Machine

/-- What holds before a loop and is kept by each of its turns holds after it. -/
theorem forUpTo_induction {α : Type} {P : Nat → α → Prop} {n : Nat} {f : Nat → α → α} {x : α} (hzero : P 0 x)
    (hsucc : ∀ i < n, ∀ y, P i y → P (i + 1) (f i y)) : P n (forUpTo n f x) := by
  induction n with
  | zero => exact hzero
  | succ n ih => exact hsucc n (by omega) _ (ih fun i hi => hsucc i (by omega))

/-! ### Memories that hold given elements -/

theorem read_eq_of_memRead_eq {m m' : Memory} (n : Nat) : ∀ {a : Nat}, memRead m a n = memRead m' a n →
    ∀ c < n, Memory.read m (a + c) = Memory.read m' (a + c) := by
  induction n with
  | zero => intro a _ c hc; omega
  | succ n ih =>
    intro a h c hc
    have hbyte := (Memory.read m a).isLt
    have hbyte' := (Memory.read m' a).isLt
    simp only [memRead] at h
    cases c with
    | zero => exact BitVec.eq_of_toNat_eq (by rw [Nat.add_zero]; omega)
    | succ c =>
      rw [Nat.add_comm c 1, ← Nat.add_assoc]
      exact ih (by omega) c (by omega)

/-- Memory `m'` has the `n` elements `v` from `base` up, and every other byte as `m` has it. -/
structure Holds (k : Kernel) (base n : Nat) (v : Nat → Elem k) (m m' : Memory) : Prop where
  wf : Memory.wf m' = true
  elems : ∀ p < n, readElem k m' (base + p * elemBytes k) = v p
  other : ∀ x, x < base ∨ base + n * elemBytes k ≤ x → Memory.read m' x = Memory.read m x

section
variable {k : Kernel} {base n : Nat} {v v' : Nat → Elem k} {m m' m'' : Memory}

theorem Holds.congr (h : Holds k base n v m m') (hv : ∀ p < n, v' p = v p) : Holds k base n v' m m' :=
  ⟨h.wf, fun p hp => (h.elems p hp).trans (hv p hp).symm, h.other⟩

/-- The elements of a buffer are all of its bytes. -/
theorem Holds.eq (h : Holds k base n v m m') (h' : Holds k base n v m m'') : m' = m'' := by
  refine Memory.ext h.wf h'.wf fun x => ?_
  by_cases hx : x < base ∨ base + n * elemBytes k ≤ x
  · rw [h.other x hx, h'.other x hx]
  · obtain ⟨y, rfl⟩ := Nat.exists_eq_add_of_le (by omega : base ≤ x)
    have hy : y < n * elemBytes k := by omega
    have hp : y / elemBytes k < n := Nat.div_lt_of_lt_mul (Nat.mul_comm n _ ▸ hy)
    have helem := congrArg BitVec.toNat ((h.elems _ hp).trans (h'.elems _ hp).symm)
    rw [readElem_toNat, readElem_toNat] at helem
    have hbyte := read_eq_of_memRead_eq _ helem (y % elemBytes k) (Nat.mod_lt _ (elemBytes_pos k))
    rwa [Nat.add_assoc, Nat.div_add_mod'] at hbyte

theorem holds_fill (h : Memory.wf m = true) : Holds k base n v m (fill k base n v m) :=
  ⟨fill_wf h n, fun _ hp => readElem_fill h n hp, fun _ hx => read_fill_other h n hx⟩

theorem Holds.eq_fill (h : Holds k base n v m m') (hm : Memory.wf m = true) : m' = fill k base n v m :=
  h.eq (holds_fill hm)

theorem holds_self (h : Memory.wf m = true) :
    Holds k base n (fun p => readElem k m (base + p * elemBytes k)) m m :=
  ⟨h, fun _ _ => rfl, fun _ _ => rfl⟩

/-- Storing element `q` changes that element. -/
theorem Holds.write {q : Nat} (h : Holds k base n v m m') (hq : q < n) (x : Elem k)
    (hsame : ∀ p < n, p ≠ q → v' p = v p) (hnew : v' q = x) :
    Holds k base n v' m (writeElem k m' (base + q * elemBytes k) x) := by
  have hmul : ∀ {p q : Nat}, p < q → (p + 1) * elemBytes k ≤ q * elemBytes k := fun hpq => Nat.mul_le_mul_right _ hpq
  simp only [Nat.succ_mul] at hmul
  refine ⟨writeElem_wf _ _ h.wf, fun p hp => ?_, fun y hy => ?_⟩
  · by_cases hpq : p = q
    · subst p
      rw [readElem_writeElem _ _ h.wf, hnew]
    · have hapart : base + p * elemBytes k + elemBytes k ≤ base + q * elemBytes k ∨
          base + q * elemBytes k + elemBytes k ≤ base + p * elemBytes k := by
        rcases Nat.lt_or_gt_of_ne hpq with hlt | hlt
        · have := hmul hlt; omega
        · have := hmul hlt; omega
      rw [readElem_writeElem_other _ _ _ h.wf hapart, h.elems p hp, hsame p hp hpq]
  · have := hmul hq
    rw [read_writeElem_other _ _ _ h.wf (by omega), h.other y hy]

/-- Outside its `out` the memory is as before. -/
theorem Holds.agreeOutside {d : Descriptor} (h : Holds k d.outBase.toNat n v m m')
    (hlen : d.outLen.toNat = n * elemBytes k) : AgreeOutside (outRange d) m m' :=
  fun x hx => h.other x (hlen ▸ not_inRegion_iff.1 hx)

end

/-! ### DMUL's and EMUL's schedule -/

/-- How many products cell `(r, q)` of `out` has when row `i`'s contraction step `t` has reached column `j`. -/
def termsAdded (cols i t j r q : Nat) : Nat :=
  if r < i then cols else if r = i then (if q < j then t + 1 else t) else 0

theorem termsAdded_other {cols i t j r q : Nat} (h : r ≠ i ∨ q ≠ j) :
    termsAdded cols i t (j + 1) r q = termsAdded cols i t j r q := by
  unfold termsAdded
  split
  · rfl
  · split
    · have hq : q < j + 1 ↔ q < j := by omega
      simp only [hq]
    · rfl

theorem termsAdded_before (cols i t j : Nat) : termsAdded cols i t j i j = t := by simp [termsAdded]

theorem termsAdded_after (cols i t j : Nat) : termsAdded cols i t (j + 1) i j = t + 1 := by simp [termsAdded]

/-- With every column reached the step is done. -/
theorem termsAdded_step {cols i t n r q : Nat} (hq : q < n) :
    termsAdded cols i (t + 1) 0 r q = termsAdded cols i t n r q := by
  simp [termsAdded, hq]

/-- With every step done so is the row. -/
theorem termsAdded_row (cols i r q : Nat) : termsAdded cols (i + 1) 0 0 r q = termsAdded cols i cols 0 r q := by
  unfold termsAdded
  rcases Nat.lt_trichotomy r i with h | h | h
  · rw [if_pos (by omega), if_pos h]
  · rw [if_pos (by omega), if_neg (by omega), if_pos h, if_neg (by omega)]
  · rw [if_neg (by omega : ¬ r < i + 1), if_neg (by omega : ¬ r < i), if_neg (by omega : ¬ r = i)]
    simp

theorem termsAdded_done {cols rows r q : Nat} (hr : r < rows) : termsAdded cols rows 0 0 r q = cols := if_pos hr

theorem termsAdded_zero (cols r q : Nat) : termsAdded cols 0 0 0 r q = 0 := by simp [termsAdded]

/-- Element `p` of `out` with as many products added as the counts say. -/
def partialElem (k : Kernel) (d : Descriptor) (m0 : Memory) (count : Nat → Nat → Nat) (p : Nat) : Elem k :=
  readElem k m0 (elemAt k d.outBase p) +
    ringSum (count (p / d.bCols.toNat) (p % d.bCols.toNat)) fun t =>
      readElem k m0 (cellAt k d.aBase d.aCols.toNat (p / d.bCols.toNat) t) *
        readElem k m0 (cellAt k d.bBase d.bCols.toNat t (p % d.bCols.toNat))

/-- The memory of a schedule that has added the products that the counts say. -/
def Accumulated (k : Kernel) (d : Descriptor) (m0 : Memory) (count : Nat → Nat → Nat) (m : Memory) : Prop :=
  Holds k d.outBase.toNat (d.aRows.toNat * d.bCols.toNat) (partialElem k d m0 count) m0 m

section
variable {k : Kernel} {d : Descriptor} {m0 m : Memory}

theorem Accumulated.congr {count count' : Nat → Nat → Nat} (h : Accumulated k d m0 count m)
    (hc : ∀ r q, q < d.bCols.toNat → count' r q = count r q) : Accumulated k d m0 count' m := by
  refine Holds.congr h fun p hp => ?_
  have hcols : 0 < d.bCols.toNat := Nat.pos_of_mul_pos_left (Nat.zero_lt_of_lt hp)
  rw [partialElem, partialElem, hc _ _ (Nat.mod_lt _ hcols)]

/-- One product added into one cell (40_datapath.md R96). -/
theorem Accumulated.mac {i j t : Nat} (hd : DenseBuffers k d) (hi : i < d.aRows.toNat) (hj : j < d.bCols.toNat)
    (ht : t < d.aCols.toNat) (h : Accumulated k d m0 (termsAdded d.aCols.toNat i t j) m) :
    Accumulated k d m0 (termsAdded d.aCols.toNat i t (j + 1))
      (writeElem k m (cellAt k d.outBase d.bCols.toNat i j)
        (macLane (readElem k m (cellAt k d.outBase d.bCols.toNat i j))
          (readElem k m (cellAt k d.aBase d.aCols.toNat i t))
          (readElem k m (cellAt k d.bBase d.bCols.toNat t j)))) := by
  have hagree := h.agreeOutside hd.outLen
  have ha : readElem k m (cellAt k d.aBase d.aCols.toNat i t) = readElem k m0 (cellAt k d.aBase d.aCols.toNat i t) :=
    hagree.readElem_eq hd.outApartA hd.aLen (cell_lt hi ht)
  have hb : readElem k m (cellAt k d.bBase d.bCols.toNat t j) = readElem k m0 (cellAt k d.bBase d.bCols.toNat t j) :=
    hagree.readElem_eq hd.outApartB hd.bLen (cell_lt ht hj)
  have hheld := h.elems (i * d.bCols.toNat + j) (cell_lt hi hj)
  obtain ⟨hdiv, hmod⟩ := cell_div_mod (i := i) hj
  refine Holds.write h (cell_lt hi hj) _ (fun p _ hpq => ?other) ?cell
  case other =>
    have hne : p / d.bCols.toNat ≠ i ∨ p % d.bCols.toNat ≠ j := by
      by_contra hboth
      rw [not_or, not_not, not_not] at hboth
      exact hpq (by rw [← Nat.div_add_mod' p d.bCols.toNat, hboth.1, hboth.2])
    rw [partialElem, partialElem, termsAdded_other hne]
  case cell =>
    rw [macLane, ha, hb, cellAt, elemAt, hheld, partialElem, partialElem, hdiv, hmod, termsAdded_after,
      termsAdded_before, ringSum_succ, BitVec.add_assoc]

/-- The schedule's three loops, from the innermost out. -/
theorem denseSchedule_accumulated (hd : DenseBuffers k d) (hm : Memory.wf m0 = true) :
    Accumulated k d m0 (termsAdded d.aCols.toNat d.aRows.toNat 0 0) (denseSchedule k d m0) := by
  refine forUpTo_induction (P := fun i => Accumulated k d m0 (termsAdded d.aCols.toNat i 0 0)) ?start
    fun i hi m h => ?row
  case start =>
    refine Holds.congr (holds_self hm) fun p _ => ?_
    rw [partialElem, termsAdded_zero, ringSum_zero, elemAt]
    exact add_zero _
  case row =>
    have hsteps := forUpTo_induction (P := fun t => Accumulated k d m0 (termsAdded d.aCols.toNat i t 0)) h
      (n := d.aCols.toNat) fun t ht m h => by
        have hcolumns := forUpTo_induction (P := fun j => Accumulated k d m0 (termsAdded d.aCols.toNat i t j)) h
          (n := d.bCols.toNat) fun j hj m h => h.mac hd hi hj ht
        exact hcolumns.congr fun r q hq => termsAdded_step hq
    exact hsteps.congr fun r q _ => termsAdded_row ..

theorem denseSchedule_eq (hd : DenseBuffers k d) (hm : Memory.wf m0 = true) :
    denseSchedule k d m0 = denseMultiply k d m0 := by
  rw [denseMultiply_eq_fill]
  refine (Holds.congr (denseSchedule_accumulated hd hm) fun p hp => ?_).eq_fill hm
  rw [partialElem, termsAdded_done (Nat.div_lt_of_lt_mul (Nat.mul_comm _ _ ▸ hp)), denseSum]

end

/-- A seed element is read as a matrix element is. -/
theorem expandSchedule_eq_denseSchedule (k : Kernel) (d : Descriptor) (m : Memory) :
    expandSchedule k d m = denseSchedule k d m := rfl

/-! ### VMUL's schedule -/

/-- A lane's steps add up to a ring sum (40_datapath.md R96). -/
theorem forUpTo_macLane {w : Nat} (x y : Nat → BitVec w) (acc : BitVec w) (n : Nat) :
    forUpTo n (fun t acc => macLane acc (x t) (y t)) acc = acc + ringSum n fun t => x t * y t := by
  induction n with
  | zero => simp
  | succ n ih => rw [forUpTo_succ, ih, macLane, ringSum_succ, BitVec.add_assoc]

/-- The first elements of `out` stored, everything outside `out` is as before. -/
theorem fill_agreeOutside {k : Kernel} {d : Descriptor} {f : Nat → Elem k} {m : Memory} {n rows : Nat}
    (hm : Memory.wf m = true) (hlen : d.outLen.toNat = rows * elemBytes k) (hn : n ≤ rows) :
    AgreeOutside (outRange d) m (fill k d.outBase.toNat n f m) := by
  intro x hx
  have hout : x < d.outBase.toNat ∨ d.outBase.toNat + rows * elemBytes k ≤ x := hlen ▸ not_inRegion_iff.1 hx
  have hle : n * elemBytes k ≤ rows * elemBytes k := Nat.mul_le_mul_right _ hn
  exact read_fill_other hm n (by omega)

theorem vectorSchedule_eq {k : Kernel} {d : Descriptor} {m : Memory} (hd : VectorBuffers k d)
    (hm : Memory.wf m = true) : vectorSchedule k d m = vectorMultiply k d m := by
  rw [vectorMultiply_eq_fill]
  refine forUpTo_induction (P := fun i m' => m' = fill k d.outBase.toNat i (vectorSum k d m) m) rfl ?_
  rintro i hi _ rfl
  have hagree := fill_agreeOutside (f := vectorSum k d m) hm hd.outLen hi.le
  have hsum := vectorSum_eq_of_agreeOutside hd hagree hi
  rw [fill_succ, forUpTo_macLane, ← hsum, vectorSum]
  exact congrArg (writeElem k _ _) (zero_add _)

/-! ### UMUL's schedule -/

section
variable {k : Kernel} {d : Descriptor} {m : Memory}

theorem macStep_getElem (acc : Lanes k) (x : Nat → Elem k) (y : Elem k) {r : Nat} (hr : r < 8) :
    (macStep acc x y)[r] = macLane acc[r] (x r) y := by
  simp [macStep]

/-- One lane of the array over some steps (40_datapath.md R97). -/
theorem forUpTo_macStep_getElem (x : Nat → Nat → Elem k) (y : Nat → Elem k) (acc : Lanes k) (n : Nat) {r : Nat}
    (hr : r < 8) :
    (forUpTo n (fun t acc => macStep acc (x t) (y t)) acc)[r] = acc[r] + ringSum n fun t => x t r * y t := by
  induction n with
  | zero => simp
  | succ n ih => rw [forUpTo_succ, macStep_getElem, ih, macLane, ringSum_succ, BitVec.add_assoc]

/-- Lane `r` has the sum of row `i0 + r`. -/
theorem unpackLanes_getD (i0 : Nat) {r : Nat} (hr : r < 8) :
    (unpackLanes k d m i0).getD r 0 = unpackSum k d m (i0 + r) := by
  have hlanes : (unpackLanes k d m i0)[r] = unpackSum k d m (i0 + r) := by
    refine forUpTo_induction (P := fun n (acc : Lanes k) => acc[r] = ringSum n fun j =>
      ringSum (slotsPerWord k) fun t => slot k (readElem k m (cellAt k d.aBase d.aCols.toNat (i0 + r) j)) t *
        readElem k m (elemAt k d.bBase (slotColumn k j t))) ?_ fun j _ acc h => ?_
    · simp [clearedLanes]
    · rw [forUpTo_macStep_getElem _ _ _ _ hr, h, ringSum_succ]
  rw [← hlanes]
  simp [Vector.getD, hr]

/-- What UMUL stores in element `i` of `out`. -/
def unpackElem (k : Kernel) (d : Descriptor) (m : Memory) (i : Nat) : Elem k :=
  readElem k m (elemAt k d.outBase i) + unpackSum k d m i

theorem unpackSum_eq_of_agreeOutside {m' : Memory} (hs : Sized .unpack k d) (hp : Placed d)
    (h : AgreeOutside (outRange d) m m') {i : Nat} (hi : i < d.aRows.toNat) :
    unpackSum k d m' i = unpackSum k d m i := by
  refine ringSum_congr fun j hj => ringSum_congr fun t ht => congrArg₂ (· * ·) (congrArg (slot k · t) ?a) ?b
  case a => exact h.readElem_eq hp.outApartA hs.aLen (cell_lt hi hj)
  case b => exact h.readElem_eq hp.outApartB hs.unpack_bLen (cell_lt hj ht)

/-- An element that a fill has not reached. -/
theorem readElem_fill_next {f : Nat → Elem k} {base : Nat} (hm : Memory.wf m = true) (n : Nat) :
    readElem k (fill k base n f m) (base + n * elemBytes k) = readElem k m (base + n * elemBytes k) :=
  readElem_congr fun _ hlo _ => read_fill_other hm n (.inr hlo)

/-- One row block: eight more elements of `out` are stored. -/
theorem drainLanes_eq (hs : Sized .unpack k d) (hp : Placed d) (hm : Memory.wf m = true) {i0 : Nat}
    (hi0 : i0 + rowBlock ≤ d.aRows.toNat) :
    drainLanes k d i0 (unpackLanes k d (fill k d.outBase.toNat i0 (unpackElem k d m) m) i0)
        (fill k d.outBase.toNat i0 (unpackElem k d m) m) =
      fill k d.outBase.toNat (i0 + rowBlock) (unpackElem k d m) m := by
  refine forUpTo_induction (P := fun r m' => m' = fill k d.outBase.toNat (i0 + r) (unpackElem k d m) m) rfl ?_
  rintro r hr _ rfl
  have hagree := fill_agreeOutside (f := unpackElem k d m) hm hs.outLen (by omega : i0 ≤ d.aRows.toNat)
  rw [unpackLanes_getD i0 hr, unpackSum_eq_of_agreeOutside hs hp hagree (by omega), elemAt, readElem_fill_next hm,
    ← Nat.add_assoc, fill_succ]
  rfl

theorem unpackSchedule_eq (hs : Sized .unpack k d) (hp : Placed d) (hm : Memory.wf m = true) :
    unpackSchedule k d m = unpackMultiply k d m := by
  have hrows : d.aRows.toNat / rowBlock * rowBlock = d.aRows.toNat :=
    Nat.div_mul_cancel (Nat.dvd_of_mod_eq_zero (hs.rows8 rfl))
  have hblocks : unpackSchedule k d m =
      fill k d.outBase.toNat (d.aRows.toNat / rowBlock * rowBlock) (unpackElem k d m) m := by
    refine forUpTo_induction (P := fun g m' => m' = fill k d.outBase.toNat (g * rowBlock) (unpackElem k d m) m)
      (by rw [Nat.zero_mul]; rfl) ?_
    rintro g hg _ rfl
    have hend : (g + 1) * rowBlock ≤ d.aRows.toNat / rowBlock * rowBlock := Nat.mul_le_mul_right _ hg
    rw [hrows, Nat.succ_mul] at hend
    rw [Nat.succ_mul, drainLanes_eq hs hp hm hend]
  rw [hblocks, hrows]
  rfl

end

/-- Settles O31: the four schedules, with the buffers that a passing check gives. -/
theorem schedulesGiveClosedForms : Obligations.SchedulesGiveClosedForms := by
  intro d op k m hm hcheck hcmd
  obtain ⟨hs, hp⟩ := (check_eq_none_iff hcmd).1 hcheck
  refine ⟨?dense, ?vector, ?expand, ?unpack⟩ <;> rintro rfl
  case dense => exact denseSchedule_eq (denseBuffers_of_sized (.inl rfl) hs hp) hm
  case vector => exact vectorSchedule_eq (vectorBuffers_of_sized hs hp) hm
  case expand =>
    rw [expandSchedule_eq_denseSchedule, expandMultiply_eq_denseMultiply]
    exact denseSchedule_eq (denseBuffers_of_sized (.inr rfl) hs hp) hm
  case unpack => exact unpackSchedule_eq hs hp hm

end Sys2Proof.Machine
end
